-- ==== Sys2Proof/Word.lean ====
section
/-! DEFINITION. The word types of the block: bytes of OPMEM, 32-bit bus words, register indexes. -/

namespace Sys2Proof

/-- One byte of OPMEM (20_memory.md R50). -/
abbrev Byte := BitVec 8

/-- A 32-bit value on the host's bus, a command word or a control register (20_memory.md R50, 30_encoding.md R80). -/
abbrev Word32 := BitVec 32

/-- A 4-bit register field: the value `i` names the BigInt register `r<i>`; every value is legal (30_encoding.md R85). -/
abbrev RegIdx := Fin 16

/-- A 2-bit context field: the value `k` names the context register `c<k>` (30_encoding.md R85). -/
abbrev CtxIdx := Fin 4

end Sys2Proof
end

