-- ==== Sys2Proof/Syntax.lean ====
section
/-! DEFINITION. The commands of BN-CMD version 1, one constructor per row of spec/opcode_table.json (30_encoding.md R89).
Operands stand in the order of their fields from bit 23 downward (30_encoding.md R98). -/

namespace Sys2Proof

/-- A command. The immediates are the unsigned fields of 30_encoding.md R86 and R87. -/
inductive Instr where
  | nop
  | li (rd : RegIdx) (imm20 : BitVec 20)
  | ld (rd : RegIdx) (imm20 : BitVec 20)
  | st (rs : RegIdx) (imm20 : BitVec 20)
  | add (rd ra rb : RegIdx)
  | sub (rd ra rb : RegIdx)
  | mul (rd ra rb : RegIdx)
  | sqr (rd ra : RegIdx)
  | div (rd ra rb : RegIdx)
  | mod (rd ra rb : RegIdx)
  | shl (rd ra : RegIdx) (imm16 : BitVec 16)
  | shr (rd ra : RegIdx) (imm16 : BitVec 16)
  | modmul (rd ra rb rm : RegIdx)
  | egcd (rg rp rq rx ry : RegIdx)
  | ctxsetup (cd : CtxIdx) (rn : RegIdx)
  | ctxgetN (rd : RegIdx) (cs : CtxIdx)
  | ctxgetNwords (rd : RegIdx) (cs : CtxIdx)
  | ctxgetR (rd : RegIdx) (cs : CtxIdx)
  | ctxgetRmodn (rd : RegIdx) (cs : CtxIdx)
  | ctxgetR2modn (rd : RegIdx) (cs : CtxIdx)
  | ctxgetNinv (rd : RegIdx) (cs : CtxIdx)
  | ctxclr (cd : CtxIdx)
  | montmul (rd rx ry : RegIdx) (cs : CtxIdx)
  | tomont (rd ra : RegIdx) (cs : CtxIdx)
  | frommont (rd ra : RegIdx) (cs : CtxIdx)
  | modexp (rd rm re rn : RegIdx)
  deriving DecidableEq, Repr

end Sys2Proof
end

