-- ==== Sys2Proof/WellFormed.lean ====
section
/-! DEFINITION. Well-formed commands. The operand types carry every range of 30_encoding.md R84 to R88; the one constraint
left is R90: the three destinations of EGCD are pairwise different. -/

namespace Sys2Proof

/-- 30_encoding.md R90, 42_binary_extended_gcd.md R141: `rg`, `rp`, `rq` pairwise different. -/
def distinctDestinations (rg rp rq : RegIdx) : Bool :=
  decide (rg ≠ rp) && decide (rg ≠ rq) && decide (rp ≠ rq)

/-- A command that some command word encodes (30_encoding.md R90, R91). -/
def Instr.wellFormed : Instr → Bool
  | .nop => true
  | .li _ _ => true
  | .ld _ _ => true
  | .st _ _ => true
  | .add _ _ _ => true
  | .sub _ _ _ => true
  | .mul _ _ _ => true
  | .sqr _ _ => true
  | .div _ _ _ => true
  | .mod _ _ _ => true
  | .shl _ _ _ => true
  | .shr _ _ _ => true
  | .modmul _ _ _ _ => true
  | .egcd rg rp rq _ _ => distinctDestinations rg rp rq
  | .ctxsetup _ _ => true
  | .ctxgetN _ _ => true
  | .ctxgetNwords _ _ => true
  | .ctxgetR _ _ => true
  | .ctxgetRmodn _ _ => true
  | .ctxgetR2modn _ _ => true
  | .ctxgetNinv _ _ => true
  | .ctxclr _ => true
  | .montmul _ _ _ _ => true
  | .tomont _ _ _ => true
  | .frommont _ _ _ => true
  | .modexp _ _ _ _ => true

end Sys2Proof
end

