-- ==== Sys2Proof/Decode.lean ====
section
/-! DEFINITION. Decoding a command word (30_encoding.md R80 to R92), total on every 32-bit word and rejecting by name, then
the encoder and the match-and-mask table of R89. -/

namespace Sys2Proof

/-- `cw[hi:lo]` (00_scope.md R7). -/
def bits (cw : Word32) (hi lo : Nat) : Nat := cw.toNat / 2 ^ lo % 2 ^ (hi - lo + 1)

/-- The 4-bit register field whose lowest bit is `lo` (30_encoding.md R85). -/
def regField (cw : Word32) (lo : Nat) : RegIdx := Fin.ofNat 16 (bits cw (lo + 3) lo)

/-- The 2-bit context field whose lowest bit is `lo` (30_encoding.md R84, R85). -/
def ctxField (cw : Word32) (lo : Nat) : CtxIdx := Fin.ofNat 4 (bits cw (lo + 1) lo)

/-- `imm20` (30_encoding.md R86). -/
def imm20Field (cw : Word32) : BitVec 20 := BitVec.ofNat 20 (bits cw 19 0)

/-- `imm16` (30_encoding.md R87). -/
def imm16Field (cw : Word32) : BitVec 16 := BitVec.ofNat 16 (bits cw 15 0)

/-- Why a word is illegal (30_encoding.md R92). The block shows one error for all of them; the names are the model's
(log entry 12). -/
inductive DecodeError where
  /-- An opcode not in the table. -/
  | undefinedOpcode
  /-- A bit that must be 0 is 1. -/
  | nonZeroField
  /-- CTXGET with a selector of 6 or more. -/
  | reservedSelector
  /-- EGCD with destinations not pairwise different. -/
  | repeatedDestination
  deriving DecidableEq, Repr

/-- The command `i` if the must-be-zero bits, read as the number `z`, are all 0. -/
def requireZero (z : Nat) (i : Instr) : Except DecodeError Instr :=
  if z = 0 then .ok i else .error .nonZeroField

/-- CTXGET: the selector chooses the row (30_encoding.md R88). -/
def decodeCtxget (cw : Word32) : Except DecodeError Instr :=
  let z := bits cw 19 18 + bits cw 11 0
  match bits cw 15 12 with
  | 0 => requireZero z (.ctxgetN (regField cw 20) (ctxField cw 16))
  | 1 => requireZero z (.ctxgetNwords (regField cw 20) (ctxField cw 16))
  | 2 => requireZero z (.ctxgetR (regField cw 20) (ctxField cw 16))
  | 3 => requireZero z (.ctxgetRmodn (regField cw 20) (ctxField cw 16))
  | 4 => requireZero z (.ctxgetR2modn (regField cw 20) (ctxField cw 16))
  | 5 => requireZero z (.ctxgetNinv (regField cw 20) (ctxField cw 16))
  | _ => .error .reservedSelector

/-- EGCD: bits 3:0 are 0 and the destinations are pairwise different (30_encoding.md R84, R90). -/
def decodeEgcd (cw : Word32) : Except DecodeError Instr :=
  if distinctDestinations (regField cw 20) (regField cw 16) (regField cw 12) then
    requireZero (bits cw 3 0)
      (.egcd (regField cw 20) (regField cw 16) (regField cw 12) (regField cw 8) (regField cw 4))
  else .error .repeatedDestination

/-- The command a word stands for (30_encoding.md R81 to R91), from the word alone. -/
def decode (cw : Word32) : Except DecodeError Instr :=
  match bits cw 31 24 with
  | 0x00 => requireZero (bits cw 23 0) .nop
  | 0x01 => .ok (.li (regField cw 20) (imm20Field cw))
  | 0x02 => .ok (.ld (regField cw 20) (imm20Field cw))
  | 0x03 => .ok (.st (regField cw 20) (imm20Field cw))
  | 0x10 => requireZero (bits cw 11 0) (.add (regField cw 20) (regField cw 16) (regField cw 12))
  | 0x11 => requireZero (bits cw 11 0) (.sub (regField cw 20) (regField cw 16) (regField cw 12))
  | 0x12 => requireZero (bits cw 11 0) (.mul (regField cw 20) (regField cw 16) (regField cw 12))
  | 0x13 => requireZero (bits cw 15 0) (.sqr (regField cw 20) (regField cw 16))
  | 0x14 => requireZero (bits cw 11 0) (.div (regField cw 20) (regField cw 16) (regField cw 12))
  | 0x15 => requireZero (bits cw 11 0) (.mod (regField cw 20) (regField cw 16) (regField cw 12))
  | 0x16 => .ok (.shl (regField cw 20) (regField cw 16) (imm16Field cw))
  | 0x17 => .ok (.shr (regField cw 20) (regField cw 16) (imm16Field cw))
  | 0x18 => requireZero (bits cw 7 0) (.modmul (regField cw 20) (regField cw 16) (regField cw 12) (regField cw 8))
  | 0x20 => decodeEgcd cw
  | 0x21 => requireZero (bits cw 23 22 + bits cw 15 0) (.ctxsetup (ctxField cw 20) (regField cw 16))
  | 0x22 => decodeCtxget cw
  | 0x23 => requireZero (bits cw 23 22 + bits cw 19 0) (.ctxclr (ctxField cw 20))
  | 0x24 => requireZero (bits cw 11 10 + bits cw 7 0) (.montmul (regField cw 20) (regField cw 16) (regField cw 12) (ctxField cw 8))
  | 0x25 => requireZero (bits cw 15 14 + bits cw 11 0) (.tomont (regField cw 20) (regField cw 16) (ctxField cw 12))
  | 0x26 => requireZero (bits cw 15 14 + bits cw 11 0) (.frommont (regField cw 20) (regField cw 16) (ctxField cw 12))
  | 0x27 => requireZero (bits cw 7 0) (.modexp (regField cw 20) (regField cw 16) (regField cw 12) (regField cw 8))
  | _ => .error .undefinedOpcode

/-- Format I: opcode, register, 20-bit immediate (30_encoding.md R82). -/
def formatI (opcode : Nat) (r : RegIdx) (imm20 : BitVec 20) : Word32 :=
  BitVec.ofNat 32 (opcode * 2 ^ 24 + r.val * 2 ^ 20 + imm20.toNat)

/-- Format S: opcode, two registers, 16-bit immediate (30_encoding.md R83). -/
def formatS (opcode : Nat) (rd ra : RegIdx) (imm16 : BitVec 16) : Word32 :=
  BitVec.ofNat 32 (opcode * 2 ^ 24 + rd.val * 2 ^ 20 + ra.val * 2 ^ 16 + imm16.toNat)

/-- Format R: opcode and five 4-bit fields, bits 3:0 zero (30_encoding.md R84). -/
def formatR (opcode f0 f1 f2 f3 f4 : Nat) : Word32 :=
  BitVec.ofNat 32 (opcode * 2 ^ 24 + f0 * 2 ^ 20 + f1 * 2 ^ 16 + f2 * 2 ^ 12 + f3 * 2 ^ 8 + f4 * 2 ^ 4)

/-- The word of a command (30_encoding.md R81 to R89); a context index stands in the low 2 bits of its 4-bit field. -/
def encode : Instr → Word32
  | .nop => 0
  | .li rd imm20 => formatI 0x01 rd imm20
  | .ld rd imm20 => formatI 0x02 rd imm20
  | .st rs imm20 => formatI 0x03 rs imm20
  | .add rd ra rb => formatR 0x10 rd ra rb 0 0
  | .sub rd ra rb => formatR 0x11 rd ra rb 0 0
  | .mul rd ra rb => formatR 0x12 rd ra rb 0 0
  | .sqr rd ra => formatR 0x13 rd ra 0 0 0
  | .div rd ra rb => formatR 0x14 rd ra rb 0 0
  | .mod rd ra rb => formatR 0x15 rd ra rb 0 0
  | .shl rd ra imm16 => formatS 0x16 rd ra imm16
  | .shr rd ra imm16 => formatS 0x17 rd ra imm16
  | .modmul rd ra rb rm => formatR 0x18 rd ra rb rm 0
  | .egcd rg rp rq rx ry => formatR 0x20 rg rp rq rx ry
  | .ctxsetup cd rn => formatR 0x21 cd rn 0 0 0
  | .ctxgetN rd cs => formatR 0x22 rd cs 0 0 0
  | .ctxgetNwords rd cs => formatR 0x22 rd cs 1 0 0
  | .ctxgetR rd cs => formatR 0x22 rd cs 2 0 0
  | .ctxgetRmodn rd cs => formatR 0x22 rd cs 3 0 0
  | .ctxgetR2modn rd cs => formatR 0x22 rd cs 4 0 0
  | .ctxgetNinv rd cs => formatR 0x22 rd cs 5 0 0
  | .ctxclr cd => formatR 0x23 cd 0 0 0 0
  | .montmul rd rx ry cs => formatR 0x24 rd rx ry cs 0
  | .tomont rd ra cs => formatR 0x25 rd ra cs 0 0
  | .frommont rd ra cs => formatR 0x26 rd ra cs 0 0
  | .modexp rd rm re rn => formatR 0x27 rd rm re rn 0

/-- One row of the opcode map: the word `cw` is this row's exactly when `cw AND mask = pattern` (30_encoding.md R89). -/
structure TableRow where
  pattern : Word32
  mask : Word32
  deriving DecidableEq, Repr

/-- `cw AND mask = pattern` (30_encoding.md R89, R91). -/
def TableRow.accepts (r : TableRow) (cw : Word32) : Bool := decide (cw &&& r.mask = r.pattern)

/-- The row of 30_encoding.md R89 a command belongs to. -/
def Instr.row : Instr → TableRow
  | .nop => ⟨0x00000000, 0xFFFFFFFF⟩
  | .li _ _ => ⟨0x01000000, 0xFF000000⟩
  | .ld _ _ => ⟨0x02000000, 0xFF000000⟩
  | .st _ _ => ⟨0x03000000, 0xFF000000⟩
  | .add _ _ _ => ⟨0x10000000, 0xFF000FFF⟩
  | .sub _ _ _ => ⟨0x11000000, 0xFF000FFF⟩
  | .mul _ _ _ => ⟨0x12000000, 0xFF000FFF⟩
  | .sqr _ _ => ⟨0x13000000, 0xFF00FFFF⟩
  | .div _ _ _ => ⟨0x14000000, 0xFF000FFF⟩
  | .mod _ _ _ => ⟨0x15000000, 0xFF000FFF⟩
  | .shl _ _ _ => ⟨0x16000000, 0xFF000000⟩
  | .shr _ _ _ => ⟨0x17000000, 0xFF000000⟩
  | .modmul _ _ _ _ => ⟨0x18000000, 0xFF0000FF⟩
  | .egcd _ _ _ _ _ => ⟨0x20000000, 0xFF00000F⟩
  | .ctxsetup _ _ => ⟨0x21000000, 0xFFC0FFFF⟩
  | .ctxgetN _ _ => ⟨0x22000000, 0xFF0CFFFF⟩
  | .ctxgetNwords _ _ => ⟨0x22001000, 0xFF0CFFFF⟩
  | .ctxgetR _ _ => ⟨0x22002000, 0xFF0CFFFF⟩
  | .ctxgetRmodn _ _ => ⟨0x22003000, 0xFF0CFFFF⟩
  | .ctxgetR2modn _ _ => ⟨0x22004000, 0xFF0CFFFF⟩
  | .ctxgetNinv _ _ => ⟨0x22005000, 0xFF0CFFFF⟩
  | .ctxclr _ => ⟨0x23000000, 0xFFCFFFFF⟩
  | .montmul _ _ _ _ => ⟨0x24000000, 0xFF000CFF⟩
  | .tomont _ _ _ => ⟨0x25000000, 0xFF00CFFF⟩
  | .frommont _ _ _ => ⟨0x26000000, 0xFF00CFFF⟩
  | .modexp _ _ _ _ => ⟨0x27000000, 0xFF0000FF⟩

/-- The 26 rows of 30_encoding.md R89, in its order. -/
def opcodeTable : List TableRow :=
  [⟨0x00000000, 0xFFFFFFFF⟩, ⟨0x01000000, 0xFF000000⟩, ⟨0x02000000, 0xFF000000⟩, ⟨0x03000000, 0xFF000000⟩,
   ⟨0x10000000, 0xFF000FFF⟩, ⟨0x11000000, 0xFF000FFF⟩, ⟨0x12000000, 0xFF000FFF⟩, ⟨0x13000000, 0xFF00FFFF⟩,
   ⟨0x14000000, 0xFF000FFF⟩, ⟨0x15000000, 0xFF000FFF⟩, ⟨0x16000000, 0xFF000000⟩, ⟨0x17000000, 0xFF000000⟩,
   ⟨0x18000000, 0xFF0000FF⟩] ++
  [⟨0x20000000, 0xFF00000F⟩, ⟨0x21000000, 0xFFC0FFFF⟩, ⟨0x22000000, 0xFF0CFFFF⟩, ⟨0x22001000, 0xFF0CFFFF⟩,
   ⟨0x22002000, 0xFF0CFFFF⟩, ⟨0x22003000, 0xFF0CFFFF⟩, ⟨0x22004000, 0xFF0CFFFF⟩, ⟨0x22005000, 0xFF0CFFFF⟩,
   ⟨0x23000000, 0xFFCFFFFF⟩, ⟨0x24000000, 0xFF000CFF⟩, ⟨0x25000000, 0xFF00CFFF⟩, ⟨0x26000000, 0xFF00CFFF⟩,
   ⟨0x27000000, 0xFF0000FF⟩]

/-- The command that the word with the bits `w`, numbered as spec/opcode_table.json numbers them, decodes to; the bits from
`nbits` up are 0. A command is one 32-bit word (30_encoding.md R80). -/
def decodeTableWord (nbits w : Nat) : Option Instr :=
  if 2 ^ 32 ≤ w % 2 ^ nbits then none
  else
    match decode (BitVec.ofNat 32 (w % 2 ^ nbits)) with
    | .ok i => some i
    | .error _ => none

end Sys2Proof
end

