-- ==== Sys2Proof/Config.lean ====
section
/-! DEFINITION. The parameters of the block (00_scope.md R5). The four `OPEN` ones are data that a machine state carries
(`State.params`), so a claim about every state is a claim about every choice of them. -/

namespace Sys2Proof

/-- The legal word widths (00_scope.md R5, `W`). -/
inductive WordWidth where
  | w8
  | w16
  | w32
  | w64
  deriving DecidableEq, Repr

/-- `W` in bits. -/
def WordWidth.bits : WordWidth → Nat
  | .w8 => 8
  | .w16 => 16
  | .w32 => 32
  | .w64 => 64

/-- The `OPEN` parameters of 00_scope.md R5. -/
structure Params where
  /-- `W`, the word width. -/
  width : WordWidth
  /-- `CAP_WORDS`, the largest number of magnitude words of a BigInt register. -/
  capWords : Nat
  /-- `MEM_BYTES`, the size of OPMEM in bytes. -/
  memBytes : Nat
  /-- `BASE`, the bus address of the block's first register; no rule depends on its value. -/
  base : Nat
  deriving DecidableEq, Repr

/-- `W` as a number of bits. -/
def Params.w (p : Params) : Nat := p.width.bits

/-- `WB`, bytes per word (00_scope.md R5). -/
def Params.wb (p : Params) : Nat := p.width.bits / 8

/-- The legal values of the `OPEN` parameters (00_scope.md R5). -/
def Params.wf (p : Params) : Bool :=
  decide (1 ≤ p.capWords) && decide (p.capWords ≤ min (2 ^ (p.w - 1) - 1) (2 ^ 32 - 1)) &&
  decide (p.memBytes % 8 = 0) && decide (8 ≤ p.memBytes) && decide (p.memBytes ≤ 2 ^ 20 * p.wb) &&
  decide (p.base % 4 = 0)

/-- The parameters of the one machine `State.reset` names: the configuration of 95_test_vectors.md V8, and `BASE` = 0.
DESIGN CHOICE (log entry 1, unsafe): the spec leaves all four OPEN. -/
def resetParams : Params := ⟨.w32, 64, 4096, 0⟩

end Sys2Proof
end

