-- ==== Sys2Proof/Machine/State.lean ====
section
/-! DEFINITION. The architectural state (10_state.md R20), the reasons a step can stop, and the reset state (R39). -/

namespace Sys2Proof.Machine

/-- The error kinds of 60_exceptions.md R201. -/
inductive ErrorKind where
  | invalidInput
  | notInvertible
  | divisionByZero
  | illegalCommand
  | invalidOperand
  | contractViolation
  | memoryFault
  | capacityExceeded
  | badFormat
  deriving DecidableEq, Repr

/-- A Context record (10_state.md R27). Its fields are integers of ℤ; 10_state.md R28 says which records a context register
may hold (`Context.valid`, in Sys2Proof/Safety.lean). -/
structure Context where
  /-- `N` -/
  n : Int
  /-- `n_words` -/
  nWords : Nat
  /-- `R` -/
  r : Int
  /-- `R_mod_N` -/
  rModN : Int
  /-- `R2_mod_N` -/
  r2ModN : Int
  /-- `N_inv` -/
  nInv : Int
  deriving DecidableEq, Repr

/-- One access of the host to the window, at a byte offset from `BASE` (00_scope.md R15, 20_memory.md R50). -/
inductive HostAccess where
  /-- `HostRead32(off)` -/
  | read32 (off : Nat)
  /-- `HostWrite32(off, v)` -/
  | write32 (off : Nat) (v : Word32)
  /-- An access of `widthBits` ≠ 32 bits, which is not part of the interface (20_memory.md R57, R63). -/
  | otherWidth (widthBits : Nat) (off : Nat)
  deriving DecidableEq, Repr

/-- OPMEM's content: address and byte pairs in the canonical form `Memory.wf` (Sys2Proof/Machine/Ops.lean); an address that
is not listed reads as `Memory.unlisted`. -/
abbrev Memory := List Host.Cell

/-- The architectural state of 10_state.md R20, the parameters it is read under (00_scope.md R5), and two fields of the
model's own that stand for the host: `pending` and `reads`. -/
structure State where
  /-- The `OPEN` parameters, constant through every run (log entry 1). -/
  params : Params
  /-- `r0` .. `r15`: `none` is *unwritten* (10_state.md R24). -/
  regs : Vector (Option Int) 16
  /-- `c0` .. `c3`: `none` is *invalid* (10_state.md R28). -/
  ctxs : Vector (Option Context) 4
  /-- `CMDSEQ` (10_state.md R31). -/
  cmdseq : Word32
  /-- `STATUS` (10_state.md R32). -/
  status : Word32
  /-- `FAULTCMD` (10_state.md R33). -/
  faultcmd : Word32
  /-- `OPMEM` (20_memory.md R50). -/
  opmem : Memory
  /-- The host's accesses not performed yet, oldest first (00_scope.md R16). DESIGN CHOICE (log entry 3). -/
  pending : List HostAccess
  /-- The values returned by the host's reads so far, newest first. DESIGN CHOICE (log entry 4). -/
  reads : List Word32
  deriving DecidableEq, Repr

/-- A stop of the machine that is no error of a command: errors of commands are next states (60_exceptions.md R204). -/
inductive Fault where
  /-- Raised by a 32-bit host access at or above `0x1000 + MEM_BYTES`, an address that is not part of the block
  (20_memory.md R51, R63: the model gives it no step). Safe: no claim can be proved about what follows (log entry 5). -/
  | noSuchOffset (off : Nat)
  deriving DecidableEq, Repr

/-- A step that has no meaning. -/
inductive Refusal where
  /-- Raised by an arm of `exec` whose instruction has no meaning yet. Safe. -/
  | notModelled (mnemonic : String)
  /-- Raised by a host access that is not 32 bits wide (20_memory.md R57, R63). Safe (log entry 5). -/
  | accessWidth (widthBits : Nat)
  /-- Raised by a host access whose offset is not a multiple of 4 (20_memory.md R57, R63). Safe (log entry 5). -/
  | misaligned (off : Nat)
  /-- Raised by a host access to the reserved offsets 0x020 .. 0xFFF (20_memory.md R51, R63). Safe (log entry 5). -/
  | reservedOffset (off : Nat)
  /-- Raised by a host write to a read-only register (20_memory.md R63). Safe (log entry 5). -/
  | readOnlyRegister (off : Nat)
  /-- Raised by a host write of `CTRL` with a bit of 31:2 set (10_state.md R36, 20_memory.md R63). Safe (log entry 5). -/
  | ctrlReservedBits (v : Word32)
  deriving DecidableEq, Repr

/-- The state after hardware reset of a block with the parameters `p` whose OPMEM holds `m`: the spec fixes neither
(10_state.md R39, 70_reset_and_hazards.md R230, R232). It is the initial state of a run, not a step (log entry 9). -/
def State.resetWith (p : Params) (m : Memory) : State where
  params := p
  regs := Vector.replicate 16 none
  ctxs := Vector.replicate 4 none
  cmdseq := 0
  status := 0
  faultcmd := 0
  opmem := m
  pending := []
  reads := []

/-- One state after hardware reset. Its parameters and OPMEM content are DESIGN CHOICES (log entries 1 and 2, unsafe). -/
def State.reset : State := State.resetWith resetParams []

end Sys2Proof.Machine
end

