-- ==== Sys2Proof/Machine/Arith.lean ====
section
/-! DEFINITION. The functions on integers every rule uses (00_scope.md R8), with the word width `w` = W as an argument. -/

namespace Sys2Proof.Machine

/-- `bitlen(v)` (00_scope.md R8). -/
def bitlen (v : Int) : Nat := if v = 0 then 0 else Nat.log2 v.natAbs + 1

/-- `nwords(v)` = `ceil(bitlen(v) / W)` (00_scope.md R8). -/
def nwords (w : Nat) (v : Int) : Nat := (bitlen v + (w - 1)) / w

/-- `word(v, i)`, word `i` of the magnitude (00_scope.md R8). -/
def word (w : Nat) (v : Int) (i : Nat) : Nat := v.natAbs / 2 ^ (i * w) % 2 ^ w

/-- `sgn(v)`: 1 if v < 0, else 0 (00_scope.md R8). -/
def sgn (v : Int) : Nat := if v < 0 then 1 else 0

/-- `even(v)` (00_scope.md R8). -/
def even (v : Int) : Bool := decide (v % 2 = 0)

/-- The integer `2^k`. -/
def pow2 (k : Nat) : Int := ((2 ^ k : Nat) : Int)

/-- `tdiv(a, b)`, division truncating toward zero, for b ≠ 0 (00_scope.md R8). -/
def tdiv (a b : Int) : Int :=
  let k : Int := ((a.natAbs / b.natAbs : Nat) : Int)
  if decide (a < 0) = decide (b < 0) then k else -k

/-- `trem(a, b)`, the remainder with the sign of the dividend, for b ≠ 0 (00_scope.md R8). -/
def trem (a b : Int) : Int := a - b * tdiv a b

/-- `fmod(a, n)`, the residue in [0, n), for n > 0 (00_scope.md R8). -/
def fmod (a n : Int) : Int := if 0 ≤ trem a n then trem a n else trem a n + n

end Sys2Proof.Machine
end

