-- ==== Sys2Proof/Machine/Flags.lean ====
section
/-! DEFINITION. The error codes and the fields of `STATUS`. The block has no condition codes (10_state.md R37): `STATUS.ERR`
and `STATUS.FAULT` are its only status bits. -/

namespace Sys2Proof.Machine

/-- The value of `STATUS.ERR` for an error kind (60_exceptions.md R201). -/
def ErrorKind.code : ErrorKind → Nat
  | .invalidInput => 1
  | .notInvertible => 2
  | .divisionByZero => 3
  | .illegalCommand => 4
  | .invalidOperand => 5
  | .contractViolation => 6
  | .memoryFault => 7
  | .capacityExceeded => 8
  | .badFormat => 9

/-- `STATUS.ERR`, bits 3:0 (10_state.md R32). -/
def State.err (s : State) : Nat := s.status.toNat % 2 ^ 4

/-- `STATUS.FAULT`, bit 4: the engine is halted (10_state.md R32). -/
def State.halted (s : State) : Bool := decide (s.status.toNat / 2 ^ 4 % 2 = 1)

/-- `STATUS` with `ERR` = code(E) and `FAULT` = 1 (60_exceptions.md R204). -/
def statusOf (e : ErrorKind) : Word32 := BitVec.ofNat 32 (2 ^ 4 + e.code)

/-- `STATUS` with `ERR` = 0 and `FAULT` = 0 (10_state.md R36). -/
def statusClear : Word32 := 0

end Sys2Proof.Machine
end

