-- ==== Sys2Proof/Machine/Ops.lean ====
section
/-! DEFINITION. The named operations over OPMEM and the registers, taking a fault and returning from one. -/

namespace Sys2Proof.Machine

/-! ### OPMEM, byte by byte -/

/-- What an OPMEM address that is not listed reads as. DESIGN CHOICE (log entry 2, unsafe): the spec says the content after
reset is any value; a state's `opmem` can list every other content. -/
def Memory.unlisted : Byte := 0

/-- The byte at an OPMEM address. -/
def Memory.read : Memory → Nat → Byte
  | [], _ => Memory.unlisted
  | (b, v) :: m, a => if a = b then v else Memory.read m a

/-- OPMEM with the byte at `a` set to `v`, in canonical form. -/
def Memory.write : Memory → Nat → Byte → Memory
  | [], a, v => if v = Memory.unlisted then [] else [(a, v)]
  | (b, x) :: m, a, v =>
    if a < b then (if v = Memory.unlisted then (b, x) :: m else (a, v) :: (b, x) :: m)
    else if a = b then (if v = Memory.unlisted then m else (a, v) :: m)
    else (b, x) :: Memory.write m a v

/-- Every listed address lies above `lo`. -/
def Memory.above (lo : Nat) : Memory → Bool
  | [] => true
  | (b, _) :: _ => decide (lo < b)

/-- The canonical form: addresses strictly rising, no entry equal to what an unlisted address reads as. -/
def Memory.wf : Memory → Bool
  | [] => true
  | (b, v) :: m => decide (v ≠ Memory.unlisted) && Memory.above b m && Memory.wf m

/-- Every listed address is an address of an OPMEM of `n` bytes (20_memory.md R50). -/
def Memory.within (n : Nat) (m : Memory) : Bool := m.all fun c => decide (c.1 < n)

/-- The `n` bytes from `a` as one little-endian number (20_memory.md R52, R54). -/
def Memory.readLE (m : Memory) (a : Nat) : Nat → Nat
  | 0 => 0
  | n + 1 => (Memory.read m a).toNat + 2 ^ 8 * Memory.readLE m (a + 1) n

/-- OPMEM with the number `v` stored little-endian in the `n` bytes from `a` (20_memory.md R52, R54). -/
def Memory.writeLE (m : Memory) (a : Nat) : Nat → Nat → Memory
  | 0, _ => m
  | n + 1, v => Memory.writeLE (Memory.write m a (BitVec.ofNat 8 v)) (a + 1) n (v / 2 ^ 8)

/-! ### Word and range accesses -/

/-- `MemRead(addr, n)` (00_scope.md R9, 20_memory.md R54). -/
def memRead (s : State) (addr n : Nat) : Except ErrorKind Nat :=
  if s.params.memBytes < addr + n then .error .memoryFault else .ok (Memory.readLE s.opmem addr n)

/-- `MemWrite(addr, n, v)` (00_scope.md R9, 20_memory.md R54). -/
def memWrite (s : State) (addr n v : Nat) : Except ErrorKind State :=
  if s.params.memBytes < addr + n then .error .memoryFault
  else .ok { s with opmem := Memory.writeLE s.opmem addr n v }

/-! ### Registers -/

/-- BigInt register `i`, `none` when unwritten (10_state.md R24). -/
def State.reg (s : State) (i : RegIdx) : Option Int := s.regs.get i

/-- Context register `k`, `none` when invalid (10_state.md R28). -/
def State.ctx (s : State) (k : CtxIdx) : Option Context := s.ctxs.get k

/-- BigInt register `i` set to `v`. -/
def State.setReg (s : State) (i : RegIdx) (v : Int) : State := { s with regs := s.regs.set i.val (some v) i.isLt }

/-- Context register `k` set to `c`: a Context, or `none` for *invalid*. -/
def State.setCtx (s : State) (k : CtxIdx) (c : Option Context) : State :=
  { s with ctxs := s.ctxs.set k.val c k.isLt }

/-- The value fits a BigInt register: `nwords(v) ≤ CAP_WORDS` (10_state.md R25). -/
def fits (p : Params) (v : Int) : Bool := decide (nwords p.w v ≤ p.capWords)

/-- `r[i] <- v` (00_scope.md R9, 10_state.md R25; DEDUCED for the commands R211 exempts, log entry 13). -/
def writeReg (s : State) (i : RegIdx) (v : Int) : Except ErrorKind State :=
  if fits s.params v then .ok (s.setReg i v) else .error .capacityExceeded

/-! ### The end of a command: retiring, faulting; and the return from a fault -/

/-- `retire`: the command completes and `CMDSEQ <- (CMDSEQ + 1) mod 2^32` (00_scope.md R9, 10_state.md R31). -/
def retire (s : State) : State := { s with cmdseq := s.cmdseq + 1 }

/-- Fault entry: the command word `cw` raised `e` (60_exceptions.md R204). -/
def takeFault (cw : Word32) (e : ErrorKind) (s : State) : State := { s with status := statusOf e, faultcmd := cw }

/-- The return from a fault, `CTRL.CLRF` (10_state.md R36, 60_exceptions.md R215). -/
def clearFault (s : State) : State := { s with status := statusClear }

/-- Soft reset, `CTRL.SRST`: the reset values, OPMEM kept (10_state.md R36, 70_reset_and_hazards.md R231). The parameters
are constants of the block; `pending` and `reads` belong to the host (log entry 11). -/
def softReset (s : State) : State :=
  { State.resetWith s.params s.opmem with pending := s.pending, reads := s.reads }

/-- How the command with the word `cw` ends: it retires in the state its writes give, or it raises and has written nothing
(20_memory.md R60, 30_encoding.md R96). The meanings give `encode i` as the word: DEDUCED (log entry 6). -/
def complete (cw : Word32) (s : State) : Except ErrorKind State → Host.Outcome State Fault Refusal
  | .ok t => .next (retire t)
  | .error e => .next (takeFault cw e s)

end Sys2Proof.Machine
end

