-- ==== Sys2Proof/Machine/Operands.lean ====
section
/-! DEFINITION. The operand forms of the commands (30_encoding.md R84 to R88): source registers, immediates, and the BigInt
images in OPMEM that LD and ST name by a word index. -/

namespace Sys2Proof.Machine

/-- A BigInt source: `InvalidOperand` when the register is unwritten (00_scope.md R9, 10_state.md R24). -/
def readReg (s : State) (i : RegIdx) : Except ErrorKind Int :=
  match s.reg i with
  | some v => .ok v
  | none => .error .invalidOperand

/-- A context source: `InvalidOperand` when the register is invalid (00_scope.md R9, 10_state.md R29). -/
def readCtx (s : State) (k : CtxIdx) : Except ErrorKind Context :=
  match s.ctx k with
  | some c => .ok c
  | none => .error .invalidOperand

/-- `imm20` as the integer LI loads (30_encoding.md R86). -/
def immValue (imm20 : BitVec 20) : Int := (imm20.toNat : Int)

/-- The byte address of OPMEM word index `i` (20_memory.md R50, 30_encoding.md R86). -/
def wordAddress (p : Params) (i : Nat) : Nat := i * p.wb

/-- The W-bit word at word index `i`, bounds checked before (20_memory.md R52). -/
def wordAt (s : State) (i : Nat) : Nat := Memory.readLE s.opmem (wordAddress s.params i) s.params.wb

/-- `Σ_i w_i · 2^(i·W)` over the `k` words from word index `i`, least significant first (20_memory.md R53). -/
def magnitudeAt (s : State) (i : Nat) : Nat → Nat
  | 0 => 0
  | k + 1 => wordAt s i + 2 ^ s.params.w * magnitudeAt s (i + 1) k

/-- The end of an image of `k` magnitude words at word index `a`: the byte address after its last byte (20_memory.md R55). -/
def imageEnd (p : Params) (a k : Nat) : Nat := (a + 1 + k) * p.wb

/-- The BigInt image at word index `a` (40_data_movement.md R112, 20_memory.md R55, R56). -/
def loadImage (s : State) (a : Nat) : Except ErrorKind Int :=
  match memRead s (wordAddress s.params a) s.params.wb with
  | .error e => .error e
  | .ok h =>
    let sign := h / 2 ^ (s.params.w - 1) % 2
    let k := h % 2 ^ (s.params.w - 1)
    if s.params.memBytes < imageEnd s.params a k then .error .memoryFault
    else if k = 0 ∧ sign = 1 then .error .badFormat
    else if 0 < k ∧ wordAt s (a + k) = 0 then .error .badFormat
    else if sign = 1 then .ok (-(magnitudeAt s (a + 1) k : Int))
    else .ok (magnitudeAt s (a + 1) k : Int)

/-- The words of the image of `v`: the header, then the magnitude words, least significant first (20_memory.md R55). -/
def imageWords (p : Params) (v : Int) : List Nat :=
  (sgn v * 2 ^ (p.w - 1) + nwords p.w v) :: (List.range (nwords p.w v)).map (word p.w v)

/-- OPMEM with the given words stored from word index `a` upward (20_memory.md R52). -/
def writeWords (p : Params) (m : Memory) (a : Nat) : List Nat → Memory
  | [] => m
  | x :: xs => writeWords p (Memory.writeLE m (wordAddress p a) p.wb x) (a + 1) xs

/-- The image of `v` stored at word index `a`, or no byte at all (40_data_movement.md R113). -/
def storeImage (s : State) (a : Nat) (v : Int) : Except ErrorKind State :=
  if s.params.memBytes < imageEnd s.params a (nwords s.params.w v) then .error .memoryFault
  else .ok { s with opmem := writeWords s.params s.opmem a (imageWords s.params v) }

end Sys2Proof.Machine
end

