-- ==== Sys2Proof/Machine/BigInt.lean ====
section
/-! DEFINITION. The BigInt primitives, unit BIGINT (41_bigint_primitives.md R120 to R129): exact integer results. -/

namespace Sys2Proof.Machine

/-- The value `v` unless the divisor or modulus `b` is 0 (41_bigint_primitives.md R125, R126, R129). -/
def unlessZero (b v : Int) : Except ErrorKind Int := if b = 0 then .error .divisionByZero else .ok v

/-- ADD rd, ra, rb (41_bigint_primitives.md R121). -/
def execAdd (rd ra rb : RegIdx) (s : State) : Host.Outcome State Fault Refusal :=
  complete (encode (.add rd ra rb)) s do
    let a ← readReg s ra
    let b ← readReg s rb
    writeReg s rd (a + b)

/-- SUB rd, ra, rb (41_bigint_primitives.md R122). -/
def execSub (rd ra rb : RegIdx) (s : State) : Host.Outcome State Fault Refusal :=
  complete (encode (.sub rd ra rb)) s do
    let a ← readReg s ra
    let b ← readReg s rb
    writeReg s rd (a - b)

/-- MUL rd, ra, rb (41_bigint_primitives.md R123). -/
def execMul (rd ra rb : RegIdx) (s : State) : Host.Outcome State Fault Refusal :=
  complete (encode (.mul rd ra rb)) s do
    let a ← readReg s ra
    let b ← readReg s rb
    writeReg s rd (a * b)

/-- SQR rd, ra (41_bigint_primitives.md R124). -/
def execSqr (rd ra : RegIdx) (s : State) : Host.Outcome State Fault Refusal :=
  complete (encode (.sqr rd ra)) s do
    let a ← readReg s ra
    writeReg s rd (a * a)

/-- DIV rd, ra, rb (41_bigint_primitives.md R125). -/
def execDiv (rd ra rb : RegIdx) (s : State) : Host.Outcome State Fault Refusal :=
  complete (encode (.div rd ra rb)) s do
    let a ← readReg s ra
    let b ← readReg s rb
    let q ← unlessZero b (tdiv a b)
    writeReg s rd q

/-- MOD rd, ra, rb (41_bigint_primitives.md R126). -/
def execMod (rd ra rb : RegIdx) (s : State) : Host.Outcome State Fault Refusal :=
  complete (encode (.mod rd ra rb)) s do
    let a ← readReg s ra
    let b ← readReg s rb
    let t ← unlessZero b (trem a b)
    writeReg s rd t

/-- SHL rd, ra, imm16 (41_bigint_primitives.md R127). -/
def execShl (rd ra : RegIdx) (imm16 : BitVec 16) (s : State) : Host.Outcome State Fault Refusal :=
  complete (encode (.shl rd ra imm16)) s do
    let a ← readReg s ra
    writeReg s rd (a * pow2 imm16.toNat)

/-- SHR rd, ra, imm16 (41_bigint_primitives.md R128). -/
def execShr (rd ra : RegIdx) (imm16 : BitVec 16) (s : State) : Host.Outcome State Fault Refusal :=
  complete (encode (.shr rd ra imm16)) s do
    let a ← readReg s ra
    writeReg s rd (tdiv a (pow2 imm16.toNat))

/-- MODMUL rd, ra, rb, rm (41_bigint_primitives.md R129). -/
def execModmul (rd ra rb rm : RegIdx) (s : State) : Host.Outcome State Fault Refusal :=
  complete (encode (.modmul rd ra rb rm)) s do
    let a ← readReg s ra
    let b ← readReg s rb
    let m ← readReg s rm
    let t ← unlessZero m (trem (a * b) m)
    writeReg s rd t

end Sys2Proof.Machine
end

