-- ==== Sys2Proof/Machine/DataMovement.lean ====
section
/-! DEFINITION. The data movement commands NOP, LI, LD, ST (40_data_movement.md R110 to R113). -/

namespace Sys2Proof.Machine

/-- NOP (40_data_movement.md R110). -/
def execNop (s : State) : Host.Outcome State Fault Refusal := complete (encode .nop) s (.ok s)

/-- LI rd, imm20 (40_data_movement.md R111). -/
def execLi (rd : RegIdx) (imm20 : BitVec 20) (s : State) : Host.Outcome State Fault Refusal :=
  complete (encode (.li rd imm20)) s (writeReg s rd (immValue imm20))

/-- LD rd, imm20 (40_data_movement.md R112). -/
def execLd (rd : RegIdx) (imm20 : BitVec 20) (s : State) : Host.Outcome State Fault Refusal :=
  complete (encode (.ld rd imm20)) s do
    let v ← loadImage s imm20.toNat
    writeReg s rd v

/-- ST rs, imm20 (40_data_movement.md R113). -/
def execSt (rs : RegIdx) (imm20 : BitVec 20) (s : State) : Host.Outcome State Fault Refusal :=
  complete (encode (.st rs imm20)) s do
    let v ← readReg s rs
    storeImage s imm20.toNat v

end Sys2Proof.Machine
end

