-- ==== Sys2Proof/Machine/Begcd.lean ====
section
/-! DEFINITION. The binary extended GCD, unit BEGCD (42_binary_extended_gcd.md R140 to R146).
The loops of R142 recurse on a count of passes that R144's argument shows to be enough (log entry 7);
the divisions by 2 are exact (R143, log entry 8). -/

namespace Sys2Proof.Machine

/-- The working values of R142: `u = A·xs + B·ys`, `v = C·xs + D·ys` (R143 I1). -/
structure GcdState where
  u : Int
  v : Int
  a : Int
  b : Int
  c : Int
  d : Int
  deriving DecidableEq, Repr

/-- Phase 1: strip the common factors of two of `x` and `y` into `g`. -/
def gcdStrip : Nat → Int → Int → Int → Int × Int × Int
  | 0, x, y, g => (x, y, g)
  | k + 1, x, y, g => if even x && even y then gcdStrip k (x / 2) (y / 2) (2 * g) else (x, y, g)

/-- `while even(u)`: halve `u` with its coefficient pair `(a, b)`; the same rule serves `v` with `(C, D)`. -/
def gcdHalve (xs ys : Int) : Nat → Int → Int → Int → Int × Int × Int
  | 0, u, a, b => (u, a, b)
  | k + 1, u, a, b =>
    if even u then
      if even a && even b then gcdHalve xs ys k (u / 2) (a / 2) (b / 2)
      else gcdHalve xs ys k (u / 2) ((a + ys) / 2) ((b - xs) / 2)
    else (u, a, b)

/-- The two `while`s of one pass of `loop`. -/
def gcdHalveBoth (xs ys : Int) (t : GcdState) : GcdState :=
  let p := gcdHalve xs ys (bitlen t.u) t.u t.a t.b
  let q := gcdHalve xs ys (bitlen t.v) t.v t.c t.d
  ⟨p.1, q.1, p.2.1, p.2.2, q.2.1, q.2.2⟩

/-- Subtract the smaller from the larger, a tie going to `u` (R142 point 3). -/
def gcdSubtract (t : GcdState) : GcdState :=
  if t.v ≤ t.u then { t with u := t.u - t.v, a := t.a - t.c, b := t.b - t.d }
  else { t with v := t.v - t.u, c := t.c - t.a, d := t.d - t.b }

/-- One pass of `loop`. -/
def gcdPass (xs ys : Int) (t : GcdState) : GcdState := gcdSubtract (gcdHalveBoth xs ys t)

/-- `loop`, until `u = 0`. -/
def gcdLoop (xs ys : Int) : Nat → GcdState → GcdState
  | 0, t => t
  | k + 1, t => if (gcdPass xs ys t).u = 0 then gcdPass xs ys t else gcdLoop xs ys k (gcdPass xs ys t)

/-- The state at the start of phase 2 (R142 point 2). -/
def gcdStart (xs ys : Int) : GcdState := ⟨xs, ys, 1, 0, 0, 1⟩

/-- Phase 2 on the stripped values: the state at `u = 0`. Each pass but the first halves `u·v` at least. -/
def gcdRun (xs ys : Int) : GcdState := gcdLoop xs ys (bitlen xs + bitlen ys + 1) (gcdStart xs ys)

/-- `egcd(x, y)` (42_binary_extended_gcd.md R142): `(g, a, b)`, or `InvalidInput` when an argument is ≤ 0. -/
def egcd (x y : Int) : Except ErrorKind (Int × Int × Int) :=
  if x ≤ 0 ∨ y ≤ 0 then .error .invalidInput
  else
    let p := gcdStrip (bitlen x) x y 1
    let t := gcdRun p.1 p.2.1
    .ok (p.2.2 * t.v, t.c, t.d)

/-- All three destinations, or none (42_binary_extended_gcd.md R141). -/
def writeRegs3 (s : State) (i j k : RegIdx) (u v w : Int) : Except ErrorKind State :=
  if fits s.params u && fits s.params v && fits s.params w then .ok (((s.setReg i u).setReg j v).setReg k w)
  else .error .capacityExceeded

/-- EGCD rg, rp, rq, rx, ry (42_binary_extended_gcd.md R141; repeated destinations: log entry 14). -/
def execEgcd (rg rp rq rx ry : RegIdx) (s : State) : Host.Outcome State Fault Refusal :=
  complete (encode (.egcd rg rp rq rx ry)) s
    (if distinctDestinations rg rp rq then do
      let x ← readReg s rx
      let y ← readReg s ry
      let t ← egcd x y
      writeRegs3 s rg rp rq t.1 t.2.1 t.2.2
    else .error .illegalCommand)

end Sys2Proof.Machine
end

