-- ==== Sys2Proof/Machine/Mctx.lean ====
section
/-! DEFINITION. Montgomery context setup, unit MCTX: CTXSETUP, CTXGET, CTXCLR (43_montgomery_context.md R150 to R158). -/

namespace Sys2Proof.Machine

/-- The radix `R = 2^(n_words·W)` of a modulus (10_state.md R27). -/
def radix (w : Nat) (n : Int) : Int := pow2 (nwords w n * w)

/-- The Context of `n` with the Bézout coefficient `a` of `n` (43_montgomery_context.md R150). -/
def contextOf (w : Nat) (n a : Int) : Context where
  n := n
  nWords := nwords w n
  r := radix w n
  rModN := fmod (radix w n) n
  r2ModN := fmod (radix w n * radix w n) n
  nInv := fmod (-a) (radix w n)

/-- `ctx_derive(N)` (43_montgomery_context.md R150). -/
def ctxDerive (w : Nat) (n : Int) : Except ErrorKind Context :=
  match egcd n (radix w n) with
  | .error e => .error e
  | .ok t => if t.1 ≠ 1 then .error .notInvertible else .ok (contextOf w n t.2.1)

/-- CTXSETUP cd, rn (43_montgomery_context.md R151). -/
def execCtxsetup (cd : CtxIdx) (rn : RegIdx) (s : State) : Host.Outcome State Fault Refusal :=
  complete (encode (.ctxsetup cd rn)) s do
    let n ← readReg s rn
    let c ← ctxDerive s.params.w n
    .ok (s.setCtx cd (some c))

/-- One attribute of a context to a BigInt register (43_montgomery_context.md R154). -/
def ctxAttribute (s : State) (rd : RegIdx) (cs : CtxIdx) (pick : Context → Int) : Except ErrorKind State := do
  let c ← readCtx s cs
  writeReg s rd (pick c)

/-- CTXGET.N rd, cs (43_montgomery_context.md R154, sel 0). -/
def execCtxgetN (rd : RegIdx) (cs : CtxIdx) (s : State) : Host.Outcome State Fault Refusal :=
  complete (encode (.ctxgetN rd cs)) s (ctxAttribute s rd cs fun c => c.n)

/-- CTXGET.NWORDS rd, cs (43_montgomery_context.md R154, sel 1). -/
def execCtxgetNwords (rd : RegIdx) (cs : CtxIdx) (s : State) : Host.Outcome State Fault Refusal :=
  complete (encode (.ctxgetNwords rd cs)) s (ctxAttribute s rd cs fun c => (c.nWords : Int))

/-- CTXGET.R rd, cs (43_montgomery_context.md R154, sel 2). -/
def execCtxgetR (rd : RegIdx) (cs : CtxIdx) (s : State) : Host.Outcome State Fault Refusal :=
  complete (encode (.ctxgetR rd cs)) s (ctxAttribute s rd cs fun c => c.r)

/-- CTXGET.RMODN rd, cs (43_montgomery_context.md R154, sel 3). -/
def execCtxgetRmodn (rd : RegIdx) (cs : CtxIdx) (s : State) : Host.Outcome State Fault Refusal :=
  complete (encode (.ctxgetRmodn rd cs)) s (ctxAttribute s rd cs fun c => c.rModN)

/-- CTXGET.R2MODN rd, cs (43_montgomery_context.md R154, sel 4). -/
def execCtxgetR2modn (rd : RegIdx) (cs : CtxIdx) (s : State) : Host.Outcome State Fault Refusal :=
  complete (encode (.ctxgetR2modn rd cs)) s (ctxAttribute s rd cs fun c => c.r2ModN)

/-- CTXGET.NINV rd, cs (43_montgomery_context.md R154, sel 5). -/
def execCtxgetNinv (rd : RegIdx) (cs : CtxIdx) (s : State) : Host.Outcome State Fault Refusal :=
  complete (encode (.ctxgetNinv rd cs)) s (ctxAttribute s rd cs fun c => c.nInv)

/-- CTXCLR cd (43_montgomery_context.md R155). -/
def execCtxclr (cd : CtxIdx) (s : State) : Host.Outcome State Fault Refusal :=
  complete (encode (.ctxclr cd)) s (.ok (s.setCtx cd none))

end Sys2Proof.Machine
end

