-- ==== Sys2Proof/Machine/Mmul.lean ====
section
/-! DEFINITION. The Montgomery multiplier, unit MMUL: MONTMUL, TOMONT, FROMMONT (44_montgomery_multiplier.md R165 to R173). -/

namespace Sys2Proof.Machine

/-- `u_i` of iteration `i` with the accumulator `acc` (44_montgomery_multiplier.md R166). -/
def mmDigit (w : Nat) (x y nInv acc : Int) (i : Nat) : Nat :=
  (word w acc 0 + word w x i * word w y 0) * word w nInv 0 % 2 ^ w

/-- `T` of iteration `i` (44_montgomery_multiplier.md R166). -/
def mmSum (w : Nat) (x y : Int) (c : Context) (acc : Int) (i : Nat) : Int :=
  acc + (word w x i : Int) * y + (mmDigit w x y c.nInv acc i : Int) * c.n

/-- The accumulator after the first `i` iterations (44_montgomery_multiplier.md R166); the shift is exact (R170;
log entry 8). -/
def mmAcc (w : Nat) (x y : Int) (c : Context) : Nat → Int
  | 0 => 0
  | i + 1 => mmSum w x y c (mmAcc w x y c i) i / pow2 w

/-- `mm(x, y, ctx)` (44_montgomery_multiplier.md R166). -/
def mm (w : Nat) (x y : Int) (c : Context) : Int :=
  let acc := mmAcc w x y c c.nWords
  if c.n ≤ acc then acc - c.n else acc

/-- The operand must be a residue, 0 ≤ v < N (44_montgomery_multiplier.md R167 to R169, 60_exceptions.md R207). -/
def residue (v n : Int) : Except ErrorKind Int :=
  if v < 0 ∨ n ≤ v then .error .contractViolation else .ok v

/-- MONTMUL rd, rx, ry, cs (44_montgomery_multiplier.md R167). -/
def execMontmul (rd rx ry : RegIdx) (cs : CtxIdx) (s : State) : Host.Outcome State Fault Refusal :=
  complete (encode (.montmul rd rx ry cs)) s do
    let x ← readReg s rx
    let y ← readReg s ry
    let c ← readCtx s cs
    let x ← residue x c.n
    let y ← residue y c.n
    writeReg s rd (mm s.params.w x y c)

/-- TOMONT rd, ra, cs (44_montgomery_multiplier.md R168). -/
def execTomont (rd ra : RegIdx) (cs : CtxIdx) (s : State) : Host.Outcome State Fault Refusal :=
  complete (encode (.tomont rd ra cs)) s do
    let a ← readReg s ra
    let c ← readCtx s cs
    let a ← residue a c.n
    writeReg s rd (mm s.params.w a c.r2ModN c)

/-- FROMMONT rd, ra, cs (44_montgomery_multiplier.md R169). -/
def execFrommont (rd ra : RegIdx) (cs : CtxIdx) (s : State) : Host.Outcome State Fault Refusal :=
  complete (encode (.frommont rd ra cs)) s do
    let a ← readReg s ra
    let c ← readCtx s cs
    let a ← residue a c.n
    writeReg s rd (mm s.params.w a 1 c)

end Sys2Proof.Machine
end

