-- ==== Sys2Proof/Machine/Mexp.lean ====
section
/-! DEFINITION. The modular exponentiation engine, unit MEXP: MODEXP (45_modular_exponentiation.md R180 to R187). -/

namespace Sys2Proof.Machine

/-- `e[i]`, bit `i` of a non-negative integer (00_scope.md R7). -/
def bitOf (e : Int) (i : Nat) : Bool := decide (e.natAbs / 2 ^ i % 2 = 1)

/-- One bit of the scan: square, and multiply by `xt` when bit `i` of `e` is 1 (45_modular_exponentiation.md R182). -/
def expBit (w : Nat) (c : Context) (xt e : Int) (i : Nat) (acc : Int) : Int :=
  let sq := mm w acc acc c
  if bitOf e i then mm w sq xt c else sq

/-- SQUARE-MULTIPLY over the bits `l-1` down to 0 (45_modular_exponentiation.md R182). -/
def expScan (w : Nat) (c : Context) (xt e : Int) : Nat → Int → Int
  | 0, acc => acc
  | i + 1, acc => expScan w c xt e i (expBit w c xt e i acc)

/-- The base brought into [0, N): the truncating remainder corrected when negative (45_modular_exponentiation.md R182). -/
def reduceBase (m n : Int) : Int := if trem m n < 0 then trem m n + n else trem m n

/-- CONVERT, SQUARE-MULTIPLY and FINALIZE with the context of the modulus (45_modular_exponentiation.md R182). -/
def expWith (w : Nat) (m e : Int) (c : Context) : Int :=
  let xt := mm w (reduceBase m c.n) c.r2ModN c
  mm w (expScan w c xt e (bitlen e) c.rModN) 1 c

/-- `modexp(m, e, N)` (45_modular_exponentiation.md R182). -/
def modexp (w : Nat) (m e n : Int) : Except ErrorKind Int :=
  if e < 0 then .error .contractViolation
  else if n = 0 then .error .divisionByZero
  else
    match ctxDerive w n with
    | .error k => .error k
    | .ok c => .ok (expWith w m e c)

/-- MODEXP rd, rm, re, rn (45_modular_exponentiation.md R181). -/
def execModexp (rd rm re rn : RegIdx) (s : State) : Host.Outcome State Fault Refusal :=
  complete (encode (.modexp rd rm re rn)) s do
    let m ← readReg s rm
    let e ← readReg s re
    let n ← readReg s rn
    let v ← modexp s.params.w m e n
    writeReg s rd v

end Sys2Proof.Machine
end

