-- ==== Sys2Proof/Machine/Dispatch.lean ====
section
/-! DEFINITION. The dispatch of a decoded command to its meaning, one arm per constructor of Instr (30_encoding.md R91). -/

namespace Sys2Proof.Machine

def exec (i : Instr) (s : State) : Host.Outcome State Fault Refusal :=
  match i with
  | .nop => Sys2Proof.Machine.execNop s
  | .li rd imm20 => Sys2Proof.Machine.execLi rd imm20 s
  | .ld rd imm20 => Sys2Proof.Machine.execLd rd imm20 s
  | .st rs imm20 => Sys2Proof.Machine.execSt rs imm20 s
  | .add rd ra rb => Sys2Proof.Machine.execAdd rd ra rb s
  | .sub rd ra rb => Sys2Proof.Machine.execSub rd ra rb s
  | .mul rd ra rb => Sys2Proof.Machine.execMul rd ra rb s
  | .sqr rd ra => Sys2Proof.Machine.execSqr rd ra s
  | .div rd ra rb => Sys2Proof.Machine.execDiv rd ra rb s
  | .mod rd ra rb => Sys2Proof.Machine.execMod rd ra rb s
  | .shl rd ra imm16 => Sys2Proof.Machine.execShl rd ra imm16 s
  | .shr rd ra imm16 => Sys2Proof.Machine.execShr rd ra imm16 s
  | .modmul rd ra rb rm => Sys2Proof.Machine.execModmul rd ra rb rm s
  | .egcd rg rp rq rx ry => Sys2Proof.Machine.execEgcd rg rp rq rx ry s
  | .ctxsetup cd rn => Sys2Proof.Machine.execCtxsetup cd rn s
  | .ctxgetN rd cs => Sys2Proof.Machine.execCtxgetN rd cs s
  | .ctxgetNwords rd cs => Sys2Proof.Machine.execCtxgetNwords rd cs s
  | .ctxgetR rd cs => Sys2Proof.Machine.execCtxgetR rd cs s
  | .ctxgetRmodn rd cs => Sys2Proof.Machine.execCtxgetRmodn rd cs s
  | .ctxgetR2modn rd cs => Sys2Proof.Machine.execCtxgetR2modn rd cs s
  | .ctxgetNinv rd cs => Sys2Proof.Machine.execCtxgetNinv rd cs s
  | .ctxclr cd => Sys2Proof.Machine.execCtxclr cd s
  | .montmul rd rx ry cs => Sys2Proof.Machine.execMontmul rd rx ry cs s
  | .tomont rd ra cs => Sys2Proof.Machine.execTomont rd ra cs s
  | .frommont rd ra cs => Sys2Proof.Machine.execFrommont rd ra cs s
  | .modexp rd rm re rn => Sys2Proof.Machine.execModexp rd rm re rn s

end Sys2Proof.Machine
end

