-- ==== Sys2Proof/Machine/HostPort.lean ====
section
/-! DEFINITION. The host's accesses to the window: the control registers, command issue, and the OPMEM image
(20_memory.md R50, R51, R58 to R63; 10_state.md R34 to R36). -/

namespace Sys2Proof.Machine

/-- The value of `CFG`: `WBITS` 7:0, `NREGM1` 11:8, `NCTXM1` 13:12, `ISAVER` 23:16 (10_state.md R34). -/
def cfgValue (p : Params) : Word32 := BitVec.ofNat 32 (p.w + 15 * 2 ^ 8 + 3 * 2 ^ 12 + 1 * 2 ^ 16)

/-- What a read of the control register at `off` returns; `none` where the map has no register (20_memory.md R51, R58, R59). -/
def registerValue (s : State) (off : Nat) : Option Word32 :=
  match off with
  | 0x000 => some (cfgValue s.params)
  | 0x004 => some 0
  | 0x008 => some s.status
  | 0x00C => some 0
  | 0x010 => some s.cmdseq
  | 0x014 => some s.faultcmd
  | 0x018 => some (BitVec.ofNat 32 s.params.capWords)
  | 0x01C => some (BitVec.ofNat 32 s.params.memBytes)
  | _ => none

/-- A read returns `v` to the host and changes no other state (20_memory.md R58, R61). -/
def reply (s : State) (v : Word32) : State := { s with reads := v :: s.reads }

/-- The first window offset of the OPMEM image (20_memory.md R51). -/
def imageBase : Nat := 0x1000

/-- `HostRead32(off)` (20_memory.md R58, R59, R61, R63). -/
def hostRead (off : Nat) (s : State) : Host.Outcome State Fault Refusal :=
  if off % 4 ≠ 0 then .refused (.misaligned off)
  else if off < imageBase then
    match registerValue s off with
    | some v => .next (reply s v)
    | none => .refused (.reservedOffset off)
  else
    match memRead s (off - imageBase) 4 with
    | .ok v => .next (reply s (BitVec.ofNat 32 v))
    | .error _ => .fault (.noSuchOffset off)

/-- Command issue: the effect of a host write of `cw` to `CMD` (20_memory.md R60, 30_encoding.md R91, R92;
the drop is decided here, log entry 10). -/
def issue (cw : Word32) (s : State) : Host.Outcome State Fault Refusal :=
  if s.halted then .next s
  else
    match decode cw with
    | .ok i => exec i s
    | .error _ => complete cw s (.error .illegalCommand)

/-- A host write of `v` to `CTRL` (10_state.md R36): `SRST` bit 1 prevails over `CLRF` bit 0. -/
def writeCtrl (v : Word32) (s : State) : Host.Outcome State Fault Refusal :=
  if bits v 31 2 ≠ 0 then .refused (.ctrlReservedBits v)
  else if bits v 1 1 = 1 then .next (softReset s)
  else if bits v 0 0 = 1 then .next (clearFault s)
  else .next s

/-- `HostWrite32(off, v)` (20_memory.md R59, R60, R62, R63). -/
def hostWrite (off : Nat) (v : Word32) (s : State) : Host.Outcome State Fault Refusal :=
  if off % 4 ≠ 0 then .refused (.misaligned off)
  else if off = 0x004 then issue v s
  else if off = 0x00C then writeCtrl v s
  else if off < 0x020 then .refused (.readOnlyRegister off)
  else if off < imageBase then .refused (.reservedOffset off)
  else
    match memWrite s (off - imageBase) 4 v.toNat with
    | .ok t => .next t
    | .error _ => .fault (.noSuchOffset off)

/-- One access of the host (00_scope.md R15). -/
def hostAccess (a : HostAccess) (s : State) : Host.Outcome State Fault Refusal :=
  match a with
  | .read32 off => hostRead off s
  | .write32 off v => hostWrite off v s
  | .otherWidth widthBits _ => .refused (.accessWidth widthBits)

/-- The host performs its oldest pending access; with none pending the engine is idle and keeps all state
(00_scope.md R14 to R16, 60_exceptions.md R222). -/
def hostStep (s : State) : Host.Outcome State Fault Refusal :=
  match s.pending with
  | [] => .next s
  | a :: rest => hostAccess a { s with pending := rest }

/-- The access that writes the command word `cw` to `CMD` (30_encoding.md R98). -/
def issueAccess (cw : Word32) : HostAccess := .write32 0x004 cw

/-- The window offset of a bus address: an offset from `BASE` (20_memory.md R50); `none` below the window
(log entry 15). -/
def windowOffset (p : Params) (busAddress : Nat) : Option Nat :=
  if busAddress < p.base then none else some (busAddress - p.base)

end Sys2Proof.Machine
end

