-- ==== Sys2Proof/Machine/Step.lean ====
section
/-! DEFINITION. One step of the machine: one host access (00_scope.md R15). -/

namespace Sys2Proof.Machine

/-- One step: the host's oldest pending access is performed to completion. -/
def step (s : State) : Host.Outcome State Fault Refusal := hostStep s

/-- `s` with the host about to write the command word with the bits `w` (those from `nbits` up are 0) to `CMD`, before every
other pending access: commands are pushed, not fetched (10_state.md R31, log entry 3). -/
def State.withFetchWord (s : State) (nbits w : Nat) : State :=
  { s with pending := issueAccess (BitVec.ofNat 32 (w % 2 ^ nbits)) :: s.pending }

end Sys2Proof.Machine
end

