-- ==== Sys2Proof/Safety.lean ====
section
/-! DEFINITION. What a legal state is (the invariants the rules state) and what a clean run is (00_scope.md R16). -/

namespace Sys2Proof.Machine

/-- A record a context register may hold: every line of 10_state.md R27, and a modulus that fits a BigInt register, from
which it was copied (43_montgomery_context.md R151). -/
abbrev Context.valid (p : Params) (c : Context) : Prop :=
  1 ≤ c.n ∧ c.n % 2 = 1 ∧ nwords p.w c.n ≤ p.capWords ∧ c.nWords = nwords p.w c.n ∧ c.r = pow2 (c.nWords * p.w) ∧
  c.rModN = c.r % c.n ∧ c.r2ModN = c.r * c.r % c.n ∧ 0 < c.nInv ∧ c.nInv < c.r ∧ (c.n * c.nInv + 1) % c.r = 0

/-- Every BigInt register is unwritten or holds at most CAP_WORDS words (10_state.md R25). -/
abbrev State.regsFit (s : State) : Prop := ∀ i : RegIdx, (s.regs.get i).all (fits s.params) = true

/-- Every context register is invalid or holds a Context that satisfies 10_state.md R27 (R28). -/
abbrev State.ctxsValid (s : State) : Prop :=
  ∀ k : CtxIdx, (s.ctxs.get k).all (fun c => decide (c.valid s.params)) = true

/-- `STATUS`: reserved bits 0, `FAULT = 1` exactly when `ERR ≠ 0`, `ERR` 10 to 15 never produced (10_state.md R32,
60_exceptions.md R201). -/
abbrev State.statusLegal (s : State) : Prop :=
  s.status.toNat < 2 ^ 5 ∧ (s.halted = true ↔ s.err ≠ 0) ∧ s.err ≤ 9

/-- OPMEM is in canonical form and lists only addresses below MEM_BYTES. -/
abbrev State.opmemLegal (s : State) : Prop :=
  Memory.wf s.opmem = true ∧ Memory.within s.params.memBytes s.opmem = true

/-- A legal state. -/
abbrev State.Inv (s : State) : Prop :=
  s.params.wf = true ∧ s.regsFit ∧ s.ctxsValid ∧ s.statusLegal ∧ s.opmemLegal

/-- The access is a `CMD` write that the halted engine drops (20_memory.md R60, 60_exceptions.md R202). -/
def dropped (a : HostAccess) (s : State) : Bool :=
  match a with
  | .write32 off _ => decide (off = 0x004) && s.halted
  | .read32 _ => false
  | .otherWidth _ _ => false

/-- The run of a program, a finite list of host accesses, from a state (00_scope.md R16). -/
def runProgram : List HostAccess → State → Host.Outcome State Fault Refusal
  | [], s => .next s
  | a :: as, s =>
    match hostAccess a s with
    | .next t => runProgram as t
    | .fault f => .fault f
    | .refused r => .refused r

/-- The run is clean: it ends with `STATUS.FAULT = 0` and no `CMD` write of the program was dropped (00_scope.md R16). -/
def cleanRun : List HostAccess → State → Bool
  | [], s => !s.halted
  | a :: as, s =>
    !dropped a s &&
    match hostAccess a s with
    | .next t => cleanRun as t
    | .fault _ => false
    | .refused _ => false

end Sys2Proof.Machine
end

