-- ==== Sys2Proof/Certificates/Slice0/Obligations.lean ====
section
/-! DEFINITION. The statements for the provers. Each `Obligations.<Name>` formalises numbered rules of spec/, named in its
docstring. The words of a rule are written out here afresh (word numbers, sums of bytes, the library's integer division)
wherever the model has a function of its own for them. -/

/-! ### Words the statements share -/

namespace Sys2Proof.Claims

open Sys2Proof.Machine

/-- The command `i` is encoded by the word `w`, and `w` decodes to it. -/
def HasWord (i : Instr) (w : Nat) : Prop := encode i = BitVec.ofNat 32 w ∧ decode (BitVec.ofNat 32 w) = .ok i

/-- The command retires, writing `v` to `r<rd>` and advancing `CMDSEQ`; nothing else changes. -/
def RetiresToReg (i : Instr) (s : State) (rd : RegIdx) (v : Int) : Prop :=
  exec i s = .next { s with regs := s.regs.set rd.val (some v) rd.isLt, cmdseq := s.cmdseq + 1 }

/-- The command retires, setting `c<cd>` to `c` and advancing `CMDSEQ`; nothing else changes. -/
def RetiresToCtx (i : Instr) (s : State) (cd : CtxIdx) (c : Option Context) : Prop :=
  exec i s = .next { s with ctxs := s.ctxs.set cd.val c cd.isLt, cmdseq := s.cmdseq + 1 }

/-- The command raises the error with this code: `STATUS.ERR`, `STATUS.FAULT` and `FAULTCMD` are set, nothing else changes
(60_exceptions.md R204). -/
def Raises (i : Instr) (s : State) (code : Nat) : Prop :=
  exec i s = .next { s with status := BitVec.ofNat 32 (2 ^ 4 + code), faultcmd := encode i }

/-- The magnitude is below 2^(CAP_WORDS·W) (10_state.md R25). -/
def FitsReg (s : State) (v : Int) : Prop := v.natAbs < 2 ^ (s.params.capWords * s.params.w)

/-- The command writes `v` to `r<rd>`, or raises `CapacityExceeded` when `v` does not fit (10_state.md R25). -/
def WritesOrExceeds (i : Instr) (s : State) (rd : RegIdx) (v : Int) : Prop :=
  (FitsReg s v → RetiresToReg i s rd v) ∧ (¬ FitsReg s v → Raises i s 8)

/-- `r<j>` is unwritten for one of these (10_state.md R24). -/
def SomeUnwritten (s : State) (js : List RegIdx) : Prop := ∃ j ∈ js, s.regs.get j = none

/-- `k` is the number of W-bit words of the magnitude of `v` (10_state.md R21, 00_scope.md R8). -/
def WordCount (w : Nat) (v : Int) (k : Nat) : Prop := v.natAbs < 2 ^ (k * w) ∧ ∀ j < k, 2 ^ (j * w) ≤ v.natAbs

/-- The little-endian sum of `n` bytes of OPMEM (20_memory.md R54). -/
def byteSum (m : Memory) (a n : Nat) : Nat := ∑ j ∈ Finset.range n, (Memory.read m (a + j)).toNat * 2 ^ (8 * j)

/-- The W-bit word at word index `i` (20_memory.md R50, R52). -/
def opWord (p : Params) (m : Memory) (i : Nat) : Nat := byteSum m (i * p.wb) p.wb

/-- The host accesses that are part of the interface (20_memory.md R58 to R62), by R63's list of those that are not. -/
def Admitted (p : Params) : HostAccess → Prop
  | .read32 off => off % 4 = 0 ∧ (off < 0x020 ∨ 0x1000 ≤ off ∧ off < 0x1000 + p.memBytes)
  | .write32 off v =>
    off % 4 = 0 ∧ (off = 0x004 ∨ (off = 0x00C ∧ v.toNat < 4) ∨ 0x1000 ≤ off ∧ off < 0x1000 + p.memBytes)
  | .otherWidth _ _ => False

/-- The access writes `CMD` (20_memory.md R60). -/
def isCommand : HostAccess → Bool
  | .read32 _ => false
  | .write32 off _ => decide (off = 0x004)
  | .otherWidth _ _ => false

/-- The BigInt registers a command reads (10_state.md R41). -/
def regSources : Instr → List RegIdx
  | .nop => []
  | .li _ _ => []
  | .ld _ _ => []
  | .st rs _ => [rs]
  | .add _ ra rb => [ra, rb]
  | .sub _ ra rb => [ra, rb]
  | .mul _ ra rb => [ra, rb]
  | .sqr _ ra => [ra]
  | .div _ ra rb => [ra, rb]
  | .mod _ ra rb => [ra, rb]
  | .shl _ ra _ => [ra]
  | .shr _ ra _ => [ra]
  | .modmul _ ra rb rm => [ra, rb, rm]
  | .egcd _ _ _ rx ry => [rx, ry]
  | .ctxsetup _ rn => [rn]
  | .ctxgetN _ _ => []
  | .ctxgetNwords _ _ => []
  | .ctxgetR _ _ => []
  | .ctxgetRmodn _ _ => []
  | .ctxgetR2modn _ _ => []
  | .ctxgetNinv _ _ => []
  | .ctxclr _ => []
  | .montmul _ rx ry _ => [rx, ry]
  | .tomont _ ra _ => [ra]
  | .frommont _ ra _ => [ra]
  | .modexp _ rm re rn => [rm, re, rn]

/-- The context registers a command reads (10_state.md R41). -/
def ctxSources : Instr → List CtxIdx
  | .nop => []
  | .li _ _ => []
  | .ld _ _ => []
  | .st _ _ => []
  | .add _ _ _ => []
  | .sub _ _ _ => []
  | .mul _ _ _ => []
  | .sqr _ _ => []
  | .div _ _ _ => []
  | .mod _ _ _ => []
  | .shl _ _ _ => []
  | .shr _ _ _ => []
  | .modmul _ _ _ _ => []
  | .egcd _ _ _ _ _ => []
  | .ctxsetup _ _ => []
  | .ctxgetN _ cs => [cs]
  | .ctxgetNwords _ cs => [cs]
  | .ctxgetR _ cs => [cs]
  | .ctxgetRmodn _ cs => [cs]
  | .ctxgetR2modn _ cs => [cs]
  | .ctxgetNinv _ cs => [cs]
  | .ctxclr _ => []
  | .montmul _ _ _ cs => [cs]
  | .tomont _ _ cs => [cs]
  | .frommont _ _ cs => [cs]
  | .modexp _ _ _ _ => []

/-- The BigInt registers a command writes when it retires (10_state.md R41). -/
def regDests : Instr → List RegIdx
  | .nop => []
  | .li rd _ => [rd]
  | .ld rd _ => [rd]
  | .st _ _ => []
  | .add rd _ _ => [rd]
  | .sub rd _ _ => [rd]
  | .mul rd _ _ => [rd]
  | .sqr rd _ => [rd]
  | .div rd _ _ => [rd]
  | .mod rd _ _ => [rd]
  | .shl rd _ _ => [rd]
  | .shr rd _ _ => [rd]
  | .modmul rd _ _ _ => [rd]
  | .egcd rg rp rq _ _ => [rg, rp, rq]
  | .ctxsetup _ _ => []
  | .ctxgetN rd _ => [rd]
  | .ctxgetNwords rd _ => [rd]
  | .ctxgetR rd _ => [rd]
  | .ctxgetRmodn rd _ => [rd]
  | .ctxgetR2modn rd _ => [rd]
  | .ctxgetNinv rd _ => [rd]
  | .ctxclr _ => []
  | .montmul rd _ _ _ => [rd]
  | .tomont rd _ _ => [rd]
  | .frommont rd _ _ => [rd]
  | .modexp rd _ _ _ => [rd]

/-- The context registers a command writes when it retires (10_state.md R41). -/
def ctxDests : Instr → List CtxIdx
  | .nop => []
  | .li _ _ => []
  | .ld _ _ => []
  | .st _ _ => []
  | .add _ _ _ => []
  | .sub _ _ _ => []
  | .mul _ _ _ => []
  | .sqr _ _ => []
  | .div _ _ _ => []
  | .mod _ _ _ => []
  | .shl _ _ _ => []
  | .shr _ _ _ => []
  | .modmul _ _ _ _ => []
  | .egcd _ _ _ _ _ => []
  | .ctxsetup cd _ => [cd]
  | .ctxgetN _ _ => []
  | .ctxgetNwords _ _ => []
  | .ctxgetR _ _ => []
  | .ctxgetRmodn _ _ => []
  | .ctxgetR2modn _ _ => []
  | .ctxgetNinv _ _ => []
  | .ctxclr cd => [cd]
  | .montmul _ _ _ _ => []
  | .tomont _ _ _ => []
  | .frommont _ _ _ => []
  | .modexp _ _ _ _ => []

/-- ST is the one command that writes OPMEM (10_state.md R41). -/
def storesTo (p : Params) (s : State) (i : Instr) (b : Nat) : Prop :=
  ∃ rs imm20 v, i = .st rs imm20 ∧ s.regs.get rs = some v ∧
    wordAddress p imm20.toNat ≤ b ∧ b < imageEnd p imm20.toNat (nwords p.w v)

/-- LD is the one command that reads OPMEM (10_state.md R41). -/
def readsOpmem : Instr → Bool
  | .nop => false
  | .li _ _ => false
  | .ld _ _ => true
  | .st _ _ => false
  | .add _ _ _ => false
  | .sub _ _ _ => false
  | .mul _ _ _ => false
  | .sqr _ _ => false
  | .div _ _ _ => false
  | .mod _ _ _ => false
  | .shl _ _ _ => false
  | .shr _ _ _ => false
  | .modmul _ _ _ _ => false
  | .egcd _ _ _ _ _ => false
  | .ctxsetup _ _ => false
  | .ctxgetN _ _ => false
  | .ctxgetNwords _ _ => false
  | .ctxgetR _ _ => false
  | .ctxgetRmodn _ _ => false
  | .ctxgetR2modn _ _ => false
  | .ctxgetNinv _ _ => false
  | .ctxclr _ => false
  | .montmul _ _ _ _ => false
  | .tomont _ _ _ => false
  | .frommont _ _ _ => false
  | .modexp _ _ _ _ => false

/-- The error codes a command can raise (60_exceptions.md R211). -/
def possibleCodes : Instr → List Nat
  | .nop => []
  | .li _ _ => [8]
  | .ld _ _ => [7, 8, 9]
  | .st _ _ => [5, 7]
  | .add _ _ _ => [5, 8]
  | .sub _ _ _ => [5, 8]
  | .mul _ _ _ => [5, 8]
  | .sqr _ _ => [5, 8]
  | .div _ _ _ => [3, 5]
  | .mod _ _ _ => [3, 5]
  | .shl _ _ _ => [5, 8]
  | .shr _ _ _ => [5]
  | .modmul _ _ _ _ => [3, 5]
  | .egcd _ _ _ _ _ => [1, 5, 8]
  | .ctxsetup _ _ => [1, 2, 5]
  | .ctxgetN _ _ => [5]
  | .ctxgetNwords _ _ => [5]
  | .ctxgetR _ _ => [5, 8]
  | .ctxgetRmodn _ _ => [5]
  | .ctxgetR2modn _ _ => [5]
  | .ctxgetNinv _ _ => [5]
  | .ctxclr _ => []
  | .montmul _ _ _ _ => [5, 6]
  | .tomont _ _ _ => [5, 6]
  | .frommont _ _ _ => [5, 6]
  | .modexp _ _ _ _ => [1, 2, 3, 5, 6]

end Sys2Proof.Claims

open Sys2Proof Sys2Proof.Machine Sys2Proof.Claims

/-! ### Encoding and decoding (30_encoding.md) -/

/-- 30_encoding.md R91: decoding the word of a well-formed command gives it back, with every operand at every value. -/
def Obligations.EncodeDecodeRoundTrip : Prop :=
  ∀ i : Instr, i.wellFormed = true → decode (encode i) = .ok i

/-- 30_encoding.md R89 to R91: a word that decodes is the encoding of the command it decodes to, which is well formed. The
word a faulting command leaves in `FAULTCMD`, `encode i`, is therefore the word issued. -/
def Obligations.DecodedWordIsItsEncoding : Prop :=
  ∀ (cw : Word32) (i : Instr), decode cw = .ok i → encode i = cw ∧ i.wellFormed = true

/-- 30_encoding.md R89 to R91: a word decodes exactly when a row of the opcode map matches it and, on the EGCD row, its three
destination fields are pairwise different; and the command it decodes to is one of that row. -/
def Obligations.DecodeIsMatchAndMask : Prop :=
  (∀ (cw : Word32) (i : Instr), decode cw = .ok i →
    i.row ∈ opcodeTable ∧ cw &&& i.row.mask = i.row.pattern ∧
    (i.row.pattern = 0x20000000 →
      bits cw 23 20 ≠ bits cw 19 16 ∧ bits cw 23 20 ≠ bits cw 15 12 ∧ bits cw 19 16 ≠ bits cw 15 12)) ∧
  (∀ (cw : Word32) (r : TableRow), r ∈ opcodeTable → cw &&& r.mask = r.pattern →
    (r.pattern = 0x20000000 →
      bits cw 23 20 ≠ bits cw 19 16 ∧ bits cw 23 20 ≠ bits cw 15 12 ∧ bits cw 19 16 ≠ bits cw 15 12) →
    ∃ i, decode cw = .ok i ∧ i.row = r)

/-- 30_encoding.md R89: no two rows match the same word. -/
def Obligations.OpcodeRowsMatchDisjointWords : Prop :=
  ∀ (r r' : TableRow) (cw : Word32), r ∈ opcodeTable → r' ∈ opcodeTable →
    cw &&& r.mask = r.pattern → cw &&& r'.mask = r'.pattern → r = r'

/-- 30_encoding.md R93: the worked encodings and the illegal examples; the reasons' names are the model's (log entry 12). -/
def Obligations.WorkedEncodingsDecode : Prop :=
  (decode 0x00000000 = .ok .nop ∧ decode 0x0100E2E9 = .ok (.li 0 0xe2e9) ∧ decode 0x02200010 = .ok (.ld 2 16) ∧
    decode 0x03500040 = .ok (.st 5 0x40) ∧ decode 0x10312000 = .ok (.add 3 1 2) ∧ decode 0x13220000 = .ok (.sqr 2 2) ∧
    decode 0x16100008 = .ok (.shl 1 0 8) ∧ decode 0x18412300 = .ok (.modmul 4 1 2 3) ∧
    decode 0x20234010 = .ok (.egcd 2 3 4 0 1) ∧ decode 0x21120000 = .ok (.ctxsetup 1 2) ∧
    decode 0x22715000 = .ok (.ctxgetNinv 7 1) ∧ decode 0x23300000 = .ok (.ctxclr 3) ∧
    decode 0x24534100 = .ok (.montmul 5 3 4 1) ∧ decode 0x25301000 = .ok (.tomont 3 0 1) ∧
    decode 0x26651000 = .ok (.frommont 6 5 1) ∧ decode 0x27301200 = .ok (.modexp 3 0 1 2)) ∧
  (decode 0x10312001 = .error .nonZeroField ∧ decode 0x22716000 = .error .reservedSelector ∧
    decode 0x21420000 = .error .nonZeroField ∧ decode 0x20224010 = .error .repeatedDestination ∧
    decode 0x04000000 = .error .undefinedOpcode ∧ decode 0x00000001 = .error .nonZeroField)

/-- 30_encoding.md R92, 60_exceptions.md R205: a word that no row matches, or an EGCD word with repeated destinations,
raises `IllegalCommand` (4) when issued to an engine that is not halted, whatever the registers hold. -/
def Obligations.IllegalWordRaisesIllegalCommand : Prop :=
  ∀ (s : State) (cw : Word32) (rest : List HostAccess),
    s.pending = .write32 0x004 cw :: rest → s.halted = false →
    ((∀ r ∈ opcodeTable, cw &&& r.mask ≠ r.pattern) ∨
      (bits cw 31 24 = 0x20 ∧
        (bits cw 23 20 = bits cw 19 16 ∨ bits cw 23 20 = bits cw 15 12 ∨ bits cw 19 16 = bits cw 15 12))) →
    step s = .next { s with pending := rest, status := 0x14, faultcmd := cw }

/-! ### Steps: host accesses (20_memory.md, 60_exceptions.md) -/

/-- 20_memory.md R60, 30_encoding.md R91, 60_exceptions.md R202: a `CMD` write is dropped while the engine is halted;
otherwise the step is the decoded command's, or `IllegalCommand`. The access leaves the list of pending ones first (the
model's own field, log entry 3). -/
def Obligations.StepIssuesTheDecodedCommand : Prop :=
  ∀ (s : State) (cw : Word32) (rest : List HostAccess), s.pending = .write32 0x004 cw :: rest →
    (s.halted = true → step s = .next { s with pending := rest }) ∧
    (s.halted = false → ∀ i, decode cw = .ok i → step s = exec i { s with pending := rest }) ∧
    (s.halted = false → ∀ d, decode cw = .error d →
      step s = .next { s with pending := rest, status := 0x14, faultcmd := cw })

/-- The model's `withFetchWord` (log entry 3): the very next step runs the instruction the table's word decodes to. -/
def Obligations.PlacedWordRunsNext : Prop :=
  ∀ (s : State) (w : Nat) (i : Instr), s.halted = false → decodeTableWord 32 w = some i →
    step (s.withFetchWord 32 w) = exec i s

/-- The model's choice of log entry 3: with no access pending a step changes nothing (60_exceptions.md R222: between
commands the engine is idle and keeps all state). -/
def Obligations.IdleEngineKeepsState : Prop :=
  ∀ s : State, s.pending = [] → step s = .next s

/-- 20_memory.md R63: an access has a step exactly when it is part of the interface. -/
def Obligations.AccessHasStepExactlyWhenAdmitted : Prop :=
  ∀ (s : State) (a : HostAccess) (rest : List HostAccess), s.params.wf = true → s.pending = a :: rest →
    ((∃ t, step s = .next t) ↔ Admitted s.params a)

/-- 20_memory.md R58, R59, 10_state.md R34: a read of each register returns its value and changes nothing else
of the block; `pending` and `reads` are the model's own (log entries 3 and 4). -/
def Obligations.HostReadsReturnRegisters : Prop :=
  ∀ (s : State) (off : Nat) (v : Word32) (rest : List HostAccess), s.pending = .read32 off :: rest →
    (off, v) ∈ [(0x000, BitVec.ofNat 32 (s.params.w + 15 * 2 ^ 8 + 3 * 2 ^ 12 + 1 * 2 ^ 16)), (0x004, 0),
      (0x008, s.status), (0x00C, 0), (0x010, s.cmdseq), (0x014, s.faultcmd),
      (0x018, BitVec.ofNat 32 s.params.capWords), (0x01C, BitVec.ofNat 32 s.params.memBytes)] →
    step s = .next { s with pending := rest, reads := v :: s.reads }

/-- 20_memory.md R61: a read of the OPMEM image returns the four bytes, little-endian, and changes nothing else of the
block; `pending` and `reads` are the model's own (log entries 3 and 4). -/
def Obligations.HostReadOfOpmemReturnsBytes : Prop :=
  ∀ (s : State) (q : Nat) (rest : List HostAccess), s.pending = .read32 (0x1000 + q) :: rest →
    q % 4 = 0 → q + 4 ≤ s.params.memBytes →
    step s = .next { s with pending := rest, reads := BitVec.ofNat 32 (byteSum s.opmem q 4) :: s.reads }

/-- 20_memory.md R62: a write of the OPMEM image stores the four bytes, little-endian, whatever `STATUS.FAULT` is; every
other byte and all other state is unchanged; `pending` is the model's own (log entry 3). -/
def Obligations.HostWriteOfOpmemStoresBytes : Prop :=
  ∀ (s : State) (q : Nat) (v : Word32) (rest : List HostAccess), s.pending = .write32 (0x1000 + q) v :: rest →
    q % 4 = 0 → q + 4 ≤ s.params.memBytes → Memory.wf s.opmem = true →
    ∃ m, step s = .next { s with pending := rest, opmem := m } ∧
      (∀ j < 4, Memory.read m (q + j) = BitVec.ofNat 8 (v.toNat / 2 ^ (8 * j))) ∧
      (∀ b, b < q ∨ q + 4 ≤ b → Memory.read m b = Memory.read s.opmem b)

/-- 10_state.md R36, 70_reset_and_hazards.md R231: a write of `CTRL` with a reserved bit is refused, 0 does nothing, `CLRF`
clears the fault alone, `SRST` (alone or with `CLRF`) gives the reset values and keeps OPMEM; a read returns 0.
The model's own: the refusal's name (log entry 5), that a soft reset keeps `params`, `pending` and `reads` (log entry 11),
that the access leaves `pending` (log entry 3) and that the value read is put into `reads` (log entry 4). -/
def Obligations.CtrlWriteClearsOrResets : Prop :=
  ∀ (s : State) (v : Word32) (rest : List HostAccess),
    (s.pending = .write32 0x00C v :: rest →
      (4 ≤ v.toNat → step s = .refused (.ctrlReservedBits v)) ∧
      (v = 0 → step s = .next { s with pending := rest }) ∧
      (v = 1 → step s = .next { s with pending := rest, status := 0 }) ∧
      (v = 2 ∨ v = 3 →
        step s = .next { s with
          pending := rest, regs := Vector.replicate 16 none, ctxs := Vector.replicate 4 none,
          cmdseq := 0, status := 0, faultcmd := 0 })) ∧
    (s.pending = .read32 0x00C :: rest → step s = .next { s with pending := rest, reads := 0 :: s.reads })

/-- 60_exceptions.md R202, R215: a halted engine stays halted, with its registers, contexts, counter, status and fault word
as they were, until a `CTRL` write that clears the fault or resets. -/
def Obligations.HaltedUntilCtrlWrite : Prop :=
  ∀ s t : State, s.halted = true → step s = .next t →
    (t.halted = true ∧ t.regs = s.regs ∧ t.ctxs = s.ctxs ∧ t.cmdseq = s.cmdseq ∧ t.status = s.status ∧
      t.faultcmd = s.faultcmd) ∨
    ∃ v rest, s.pending = .write32 0x00C v :: rest ∧ (v = 1 ∨ v = 2 ∨ v = 3)

/-- 10_state.md R31: `CMDSEQ` changes only when a command retires, then by 1 modulo 2^32, or by a soft reset, then to 0. -/
def Obligations.CmdseqCountsRetirements : Prop :=
  ∀ s t : State, step s = .next t →
    t.cmdseq = s.cmdseq ∨
    (∃ cw rest, s.pending = .write32 0x004 cw :: rest ∧ s.halted = false ∧ t.status = s.status ∧
      t.cmdseq = BitVec.ofNat 32 ((s.cmdseq.toNat + 1) % 2 ^ 32)) ∨
    (∃ v rest, s.pending = .write32 0x00C v :: rest ∧ (v = 2 ∨ v = 3) ∧ t.cmdseq = 0)

/-- 00_scope.md R16: a run is clean exactly when it reaches its end with `FAULT = 0` there and no `CMD` write of the program
meets a halted engine (which would drop it, 20_memory.md R60). -/
def Obligations.CleanRunIsUnhaltedAndDropsNothing : Prop :=
  ∀ (as : List HostAccess) (s : State),
    cleanRun as s = true ↔
      (∃ t, runProgram as s = .next t ∧ t.halted = false) ∧
      ∀ (k : Nat) (cw : Word32) (t : State), as[k]? = some (.write32 0x004 cw) → runProgram (as.take k) s = .next t →
        t.halted = false

/-- 00_scope.md R16 with 60_exceptions.md R202, R204 and 10_state.md R31: in a clean run of a program that never writes
`CTRL`, every command issued retires: `CMDSEQ` advances by their number, and `STATUS` and `FAULTCMD` end as they began. -/
def Obligations.CleanRunRetiresEveryCommand : Prop :=
  ∀ (as : List HostAccess) (s t : State),
    (∀ v, HostAccess.write32 0x00C v ∉ as) → cleanRun as s = true → runProgram as s = .next t →
    t.cmdseq = s.cmdseq + BitVec.ofNat 32 (as.countP isCommand) ∧ t.status = s.status ∧ t.faultcmd = s.faultcmd

/-! ### Reset and the legal states -/

/-- 10_state.md R39: the reset values, whatever the parameters and whatever OPMEM holds. -/
def Obligations.ResetLeavesNothingWritten : Prop :=
  (∀ (p : Params) (m : Memory),
    (∀ i, (State.resetWith p m).regs.get i = none) ∧ (∀ k, (State.resetWith p m).ctxs.get k = none) ∧
    (State.resetWith p m).cmdseq = 0 ∧ (State.resetWith p m).status = 0 ∧ (State.resetWith p m).faultcmd = 0 ∧
    (State.resetWith p m).opmem = m ∧ (State.resetWith p m).params = p) ∧
  State.reset = State.resetWith resetParams []

/-- The reset state is legal, for every legal choice of parameters and every content of OPMEM. -/
def Obligations.ResetIsLegal : Prop :=
  State.reset.Inv ∧
  ∀ (p : Params) (m : Memory), p.wf = true → Memory.wf m = true → Memory.within p.memBytes m = true →
    (State.resetWith p m).Inv

/-- Every step keeps a legal state legal: parameters, registers within capacity (10_state.md R25), contexts that satisfy
R27 (R28), a legal `STATUS` (R32), OPMEM in canonical form. -/
def Obligations.StepKeepsLegalState : Prop :=
  ∀ s t : State, s.Inv → step s = .next t → t.Inv

/-- 10_state.md R32: `FAULT = 1` exactly when `ERR ≠ 0`, reserved bits 0, `ERR` at most 9, kept by every step. -/
def Obligations.StepKeepsStatusLegal : Prop :=
  ∀ s t : State, s.statusLegal → step s = .next t → t.statusLegal

/-- 10_state.md R25: no step leaves more than CAP_WORDS words in a register. -/
def Obligations.StepKeepsRegistersWithinCapacity : Prop :=
  ∀ s t : State, s.regsFit → step s = .next t → t.regsFit

/-- 10_state.md R28: no step leaves a context register with a record that breaks a line of R27. -/
def Obligations.StepKeepsContextsValid : Prop :=
  ∀ s t : State, s.regsFit → s.ctxsValid → step s = .next t → t.ctxsValid

/-- OPMEM keeps its canonical form and lists no address at or above MEM_BYTES (20_memory.md R54). -/
def Obligations.StepKeepsOpmemCanonical : Prop :=
  ∀ s t : State, s.opmemLegal → step s = .next t → t.opmemLegal

/-- 10_state.md R34: the configuration is constant. -/
def Obligations.StepKeepsParameters : Prop :=
  ∀ s t : State, step s = .next t → t.params = s.params

/-! ### All commands: retiring, faulting, frames -/

/-- 00_scope.md R15, 60_exceptions.md R204, 10_state.md R31: in every state every command has exactly one next state: it
retires, `CMDSEQ` advancing and `STATUS`, `FAULTCMD`, the parameters and the host's fields unchanged, or it raises one
error and changes only `STATUS` and `FAULTCMD`. -/
def Obligations.EveryCommandRetiresOrRaises : Prop :=
  ∀ (i : Instr) (s : State),
    (∃ t, exec i s = .next t ∧ t.cmdseq = s.cmdseq + 1 ∧ t.status = s.status ∧ t.faultcmd = s.faultcmd ∧
      t.params = s.params ∧ t.pending = s.pending ∧ t.reads = s.reads) ∨
    ∃ code, 1 ≤ code ∧ code ≤ 9 ∧ Raises i s code

/-- 10_state.md R41, R30, 30_encoding.md R97: what a command leaves unchanged: every BigInt register that is not a
destination, every context register but the one CTXSETUP or CTXCLR names, every byte of OPMEM but those of the image ST
stores, at the addresses its meaning computes. -/
def Obligations.CommandWritesOnlyItsDestinations : Prop :=
  ∀ (i : Instr) (s t : State), exec i s = .next t →
    (∀ j, j ∉ regDests i → t.regs.get j = s.regs.get j) ∧
    (∀ k, k ∉ ctxDests i → t.ctxs.get k = s.ctxs.get k) ∧
    (∀ b, ¬ storesTo s.params s i b → Memory.read t.opmem b = Memory.read s.opmem b)

/-- 10_state.md R41, R38: what a command does depends on its sources alone: on two states that agree on them and on the
parameters it raises the same error, or retires in both with the same destinations and the same stored bytes. Both OPMEMs
are in canonical form, the model's representation (log entry 2). -/
def Obligations.CommandReadsOnlyItsSources : Prop :=
  ∀ (i : Instr) (s s' : State), s'.params = s.params →
    (∀ j ∈ regSources i, s'.regs.get j = s.regs.get j) → (∀ k ∈ ctxSources i, s'.ctxs.get k = s.ctxs.get k) →
    (readsOpmem i = true → s'.opmem = s.opmem) → Memory.wf s.opmem = true → Memory.wf s'.opmem = true →
    (∃ code, Raises i s code ∧ Raises i s' code) ∨
    ∃ t t', exec i s = .next t ∧ exec i s' = .next t' ∧ t.cmdseq = s.cmdseq + 1 ∧ t'.cmdseq = s'.cmdseq + 1 ∧
      (∀ j ∈ regDests i, t'.regs.get j = t.regs.get j) ∧ (∀ k ∈ ctxDests i, t'.ctxs.get k = t.ctxs.get k) ∧
      (∀ b, storesTo s.params s i b → Memory.read t'.opmem b = Memory.read t.opmem b)

/-- 60_exceptions.md R211: from a legal state that is not halted, a command raises only the errors the table marks. -/
def Obligations.CommandRaisesOnlyTableErrors : Prop :=
  ∀ (i : Instr) (s t : State), i.wellFormed = true → s.Inv → s.status = 0 → exec i s = .next t →
    t.status = 0 ∨ t.err ∈ possibleCodes i

/-! ### Data movement (40_data_movement.md) -/

/-- 40_data_movement.md R110. -/
def Obligations.NopOnlyCounts : Prop :=
  HasWord .nop 0x00000000 ∧ ∀ s : State, exec .nop s = .next { s with cmdseq := s.cmdseq + 1 }

/-- 40_data_movement.md R111. -/
def Obligations.LiLoadsImmediate : Prop :=
  ∀ (s : State) (rd : RegIdx) (imm20 : BitVec 20),
    HasWord (.li rd imm20) (0x01000000 + rd.val * 2 ^ 20 + imm20.toNat) ∧
    WritesOrExceeds (.li rd imm20) s rd (imm20.toNat : Int)

/-- 40_data_movement.md R112: LD by the header and magnitude words it finds, in the order of its checks. -/
def Obligations.LdLoadsCanonicalImage : Prop :=
  ∀ (s : State) (rd : RegIdx) (imm20 : BitVec 20) (a sign k : Nat), a = imm20.toNat →
    sign = opWord s.params s.opmem a / 2 ^ (s.params.w - 1) →
    k = opWord s.params s.opmem a % 2 ^ (s.params.w - 1) →
    HasWord (.ld rd imm20) (0x02000000 + rd.val * 2 ^ 20 + imm20.toNat) ∧
    (s.params.memBytes < (a + 1) * s.params.wb → Raises (.ld rd imm20) s 7) ∧
    ((a + 1) * s.params.wb ≤ s.params.memBytes → s.params.memBytes < (a + 1 + k) * s.params.wb →
      Raises (.ld rd imm20) s 7) ∧
    ((a + 1 + k) * s.params.wb ≤ s.params.memBytes →
      (k = 0 ∧ sign = 1 ∨ 0 < k ∧ opWord s.params s.opmem (a + k) = 0) → Raises (.ld rd imm20) s 9) ∧
    ((a + 1 + k) * s.params.wb ≤ s.params.memBytes →
      ¬ (k = 0 ∧ sign = 1 ∨ 0 < k ∧ opWord s.params s.opmem (a + k) = 0) →
      (s.params.capWords < k → Raises (.ld rd imm20) s 8) ∧
      (k ≤ s.params.capWords → RetiresToReg (.ld rd imm20) s rd
        ((-1) ^ sign * ((∑ j ∈ Finset.range k, opWord s.params s.opmem (a + 1 + j) * 2 ^ (j * s.params.w) : Nat) : Int))))

/-- 40_data_movement.md R113: ST stores the header and the magnitude words, no other byte and nothing else changes, or it
stores nothing at all. -/
def Obligations.StStoresCanonicalImage : Prop :=
  ∀ (s : State) (rs : RegIdx) (imm20 : BitVec 20), s.params.wf = true → s.regsFit → Memory.wf s.opmem = true →
    HasWord (.st rs imm20) (0x03000000 + rs.val * 2 ^ 20 + imm20.toNat) ∧
    (SomeUnwritten s [rs] → Raises (.st rs imm20) s 5) ∧
    ∀ (v : Int) (k : Nat), s.regs.get rs = some v → WordCount s.params.w v k →
      (s.params.memBytes < imageEnd s.params imm20.toNat k → Raises (.st rs imm20) s 7) ∧
      (imageEnd s.params imm20.toNat k ≤ s.params.memBytes →
        ∃ m, exec (.st rs imm20) s = .next { s with opmem := m, cmdseq := s.cmdseq + 1 } ∧
          opWord s.params m imm20.toNat = (if v < 0 then 1 else 0) * 2 ^ (s.params.w - 1) + k ∧
          (∀ j < k, opWord s.params m (imm20.toNat + 1 + j) = v.natAbs / 2 ^ (j * s.params.w) % 2 ^ s.params.w) ∧
          (∀ b, b < wordAddress s.params imm20.toNat ∨ imageEnd s.params imm20.toNat k ≤ b →
            Memory.read m b = Memory.read s.opmem b))

/-- 40_data_movement.md R113, round trip: ST and then LD at the same word index give the register's value. -/
def Obligations.StThenLdGivesValueBack : Prop :=
  ∀ (s : State) (rs rd : RegIdx) (imm20 : BitVec 20) (v : Int), s.Inv → s.regs.get rs = some v →
    imageEnd s.params imm20.toNat (nwords s.params.w v) ≤ s.params.memBytes →
    ∃ t, exec (.st rs imm20) s = .next t ∧ t.cmdseq = s.cmdseq + 1 ∧ RetiresToReg (.ld rd imm20) t rd v

/-! ### BigInt primitives (41_bigint_primitives.md) -/

/-- 41_bigint_primitives.md R121. -/
def Obligations.AddWritesExactSum : Prop :=
  ∀ (s : State) (rd ra rb : RegIdx),
    HasWord (.add rd ra rb) (0x10000000 + rd.val * 2 ^ 20 + ra.val * 2 ^ 16 + rb.val * 2 ^ 12) ∧
    (SomeUnwritten s [ra, rb] → Raises (.add rd ra rb) s 5) ∧
    ∀ a b, s.regs.get ra = some a → s.regs.get rb = some b → WritesOrExceeds (.add rd ra rb) s rd (a + b)

/-- 41_bigint_primitives.md R122. -/
def Obligations.SubWritesExactDifference : Prop :=
  ∀ (s : State) (rd ra rb : RegIdx),
    HasWord (.sub rd ra rb) (0x11000000 + rd.val * 2 ^ 20 + ra.val * 2 ^ 16 + rb.val * 2 ^ 12) ∧
    (SomeUnwritten s [ra, rb] → Raises (.sub rd ra rb) s 5) ∧
    ∀ a b, s.regs.get ra = some a → s.regs.get rb = some b → WritesOrExceeds (.sub rd ra rb) s rd (a - b)

/-- 41_bigint_primitives.md R123. -/
def Obligations.MulWritesExactProduct : Prop :=
  ∀ (s : State) (rd ra rb : RegIdx),
    HasWord (.mul rd ra rb) (0x12000000 + rd.val * 2 ^ 20 + ra.val * 2 ^ 16 + rb.val * 2 ^ 12) ∧
    (SomeUnwritten s [ra, rb] → Raises (.mul rd ra rb) s 5) ∧
    ∀ a b, s.regs.get ra = some a → s.regs.get rb = some b → WritesOrExceeds (.mul rd ra rb) s rd (a * b)

/-- 41_bigint_primitives.md R124. -/
def Obligations.SqrWritesExactSquare : Prop :=
  ∀ (s : State) (rd ra : RegIdx),
    HasWord (.sqr rd ra) (0x13000000 + rd.val * 2 ^ 20 + ra.val * 2 ^ 16) ∧
    (SomeUnwritten s [ra] → Raises (.sqr rd ra) s 5) ∧
    ∀ a, s.regs.get ra = some a → WritesOrExceeds (.sqr rd ra) s rd (a * a)

/-- 41_bigint_primitives.md R125: the quotient truncated toward zero, never too large for a register. -/
def Obligations.DivWritesTruncatedQuotient : Prop :=
  ∀ (s : State) (rd ra rb : RegIdx), s.regsFit →
    HasWord (.div rd ra rb) (0x14000000 + rd.val * 2 ^ 20 + ra.val * 2 ^ 16 + rb.val * 2 ^ 12) ∧
    (SomeUnwritten s [ra, rb] → Raises (.div rd ra rb) s 5) ∧
    ∀ a b, s.regs.get ra = some a → s.regs.get rb = some b →
      (b = 0 → Raises (.div rd ra rb) s 3) ∧ (b ≠ 0 → RetiresToReg (.div rd ra rb) s rd (Int.tdiv a b))

/-- 41_bigint_primitives.md R126: the remainder with the sign of the dividend. -/
def Obligations.ModWritesTruncatedRemainder : Prop :=
  ∀ (s : State) (rd ra rb : RegIdx), s.regsFit →
    HasWord (.mod rd ra rb) (0x15000000 + rd.val * 2 ^ 20 + ra.val * 2 ^ 16 + rb.val * 2 ^ 12) ∧
    (SomeUnwritten s [ra, rb] → Raises (.mod rd ra rb) s 5) ∧
    ∀ a b, s.regs.get ra = some a → s.regs.get rb = some b →
      (b = 0 → Raises (.mod rd ra rb) s 3) ∧ (b ≠ 0 → RetiresToReg (.mod rd ra rb) s rd (Int.tmod a b))

/-- 41_bigint_primitives.md R127. -/
def Obligations.ShlMultipliesByPowerOfTwo : Prop :=
  ∀ (s : State) (rd ra : RegIdx) (imm16 : BitVec 16),
    HasWord (.shl rd ra imm16) (0x16000000 + rd.val * 2 ^ 20 + ra.val * 2 ^ 16 + imm16.toNat) ∧
    (SomeUnwritten s [ra] → Raises (.shl rd ra imm16) s 5) ∧
    ∀ a, s.regs.get ra = some a → WritesOrExceeds (.shl rd ra imm16) s rd (a * 2 ^ imm16.toNat)

/-- 41_bigint_primitives.md R128: the magnitude shifted, the sign kept; never too large for a register. -/
def Obligations.ShrShiftsMagnitude : Prop :=
  ∀ (s : State) (rd ra : RegIdx) (imm16 : BitVec 16), s.regsFit →
    HasWord (.shr rd ra imm16) (0x17000000 + rd.val * 2 ^ 20 + ra.val * 2 ^ 16 + imm16.toNat) ∧
    (SomeUnwritten s [ra] → Raises (.shr rd ra imm16) s 5) ∧
    ∀ a, s.regs.get ra = some a →
      RetiresToReg (.shr rd ra imm16) s rd (a.sign * ((a.natAbs / 2 ^ imm16.toNat : Nat) : Int))

/-- 41_bigint_primitives.md R129: MOD applied to MUL. -/
def Obligations.ModmulWritesTruncatedRemainder : Prop :=
  ∀ (s : State) (rd ra rb rm : RegIdx), s.regsFit →
    HasWord (.modmul rd ra rb rm)
      (0x18000000 + rd.val * 2 ^ 20 + ra.val * 2 ^ 16 + rb.val * 2 ^ 12 + rm.val * 2 ^ 8) ∧
    (SomeUnwritten s [ra, rb, rm] → Raises (.modmul rd ra rb rm) s 5) ∧
    ∀ a b m, s.regs.get ra = some a → s.regs.get rb = some b → s.regs.get rm = some m →
      (m = 0 → Raises (.modmul rd ra rb rm) s 3) ∧
      (m ≠ 0 → RetiresToReg (.modmul rd ra rb rm) s rd (Int.tmod (a * b) m))

/-! ### Binary extended GCD (42_binary_extended_gcd.md) -/

/-- 42_binary_extended_gcd.md R140: the contract of `egcd`. -/
def Obligations.EgcdReturnsGcdAndBezoutPair : Prop :=
  ∀ x y : Int,
    (0 < x → 0 < y → ∃ g a b, egcd x y = .ok (g, a, b) ∧ g = (Int.gcd x y : Int) ∧ a * x + b * y = g) ∧
    (x ≤ 0 ∨ y ≤ 0 → egcd x y = .error .invalidInput)

/-- 42_binary_extended_gcd.md R141: EGCD writes the triple of `egcd`, all three registers or none, in the order of its
checks. That a term of Instr with repeated destinations, which no word decodes to, raises with its own encoding in
`FAULTCMD` is the model's (log entry 14). -/
def Obligations.EgcdCommandWritesTriple : Prop :=
  ∀ (s : State) (rg rp rq rx ry : RegIdx),
    (¬ (rg ≠ rp ∧ rg ≠ rq ∧ rp ≠ rq) → Raises (.egcd rg rp rq rx ry) s 4) ∧
    (rg ≠ rp ∧ rg ≠ rq ∧ rp ≠ rq →
      HasWord (.egcd rg rp rq rx ry)
        (0x20000000 + rg.val * 2 ^ 20 + rp.val * 2 ^ 16 + rq.val * 2 ^ 12 + rx.val * 2 ^ 8 + ry.val * 2 ^ 4) ∧
      (SomeUnwritten s [rx, ry] → Raises (.egcd rg rp rq rx ry) s 5) ∧
      ∀ x y, s.regs.get rx = some x → s.regs.get ry = some y →
        (x ≤ 0 ∨ y ≤ 0 → Raises (.egcd rg rp rq rx ry) s 1) ∧
        (0 < x → 0 < y → ∃ g a b, egcd x y = .ok (g, a, b) ∧ g = (Int.gcd x y : Int) ∧ a * x + b * y = g ∧
          (FitsReg s g ∧ FitsReg s a ∧ FitsReg s b →
            exec (.egcd rg rp rq rx ry) s = .next { s with
              regs := ((s.regs.set rg.val (some g) rg.isLt).set rp.val (some a) rp.isLt).set rq.val (some b) rq.isLt
              cmdseq := s.cmdseq + 1 }) ∧
          (¬ (FitsReg s g ∧ FitsReg s a ∧ FitsReg s b) → Raises (.egcd rg rp rq rx ry) s 8)))

/-- 42_binary_extended_gcd.md R143 (I1 to I3): one pass of the loop keeps the linear combinations and the gcd. -/
def Obligations.GcdPassKeepsLinearCombinations : Prop :=
  ∀ (xs ys : Int) (t : GcdState), 0 < xs → 0 < ys → ¬ (xs % 2 = 0 ∧ ys % 2 = 0) → 0 < t.u → 0 < t.v →
    t.u = t.a * xs + t.b * ys → t.v = t.c * xs + t.d * ys → Int.gcd t.u t.v = Int.gcd xs ys →
    (gcdPass xs ys t).u = (gcdPass xs ys t).a * xs + (gcdPass xs ys t).b * ys ∧
    (gcdPass xs ys t).v = (gcdPass xs ys t).c * xs + (gcdPass xs ys t).d * ys ∧
    0 ≤ (gcdPass xs ys t).u ∧ 0 < (gcdPass xs ys t).v ∧
    Int.gcd (gcdPass xs ys t).u (gcdPass xs ys t).v = Int.gcd xs ys

/-- 42_binary_extended_gcd.md R142, R144: the passes the model counts are enough (log entry 7): phase 1 ends with an odd
value, each inner `while` ends with an odd value, and the loop ends with `u = 0`. -/
def Obligations.GcdLoopsRunToTheirEnd : Prop :=
  (∀ x y : Int, 0 < x → 0 < y →
    ¬ ((gcdStrip (bitlen x) x y 1).1 % 2 = 0 ∧ (gcdStrip (bitlen x) x y 1).2.1 % 2 = 0)) ∧
  (∀ xs ys u a b : Int, 0 < u → (gcdHalve xs ys (bitlen u) u a b).1 % 2 = 1) ∧
  ∀ xs ys : Int, 0 < xs → 0 < ys → (gcdRun xs ys).u = 0 ∧ 0 < (gcdRun xs ys).v

/-! ### Montgomery contexts (43_montgomery_context.md) -/

/-- 43_montgomery_context.md R151, R152, 10_state.md R27: CTXSETUP by the modulus it reads. -/
def Obligations.CtxsetupDerivesContext : Prop :=
  ∀ (s : State) (cd : CtxIdx) (rn : RegIdx),
    HasWord (.ctxsetup cd rn) (0x21000000 + cd.val * 2 ^ 20 + rn.val * 2 ^ 16) ∧
    (SomeUnwritten s [rn] → Raises (.ctxsetup cd rn) s 5) ∧
    ∀ n, s.regs.get rn = some n →
      (n ≤ 0 → Raises (.ctxsetup cd rn) s 1) ∧
      (0 < n → n % 2 = 0 → Raises (.ctxsetup cd rn) s 2) ∧
      (0 < n → n % 2 = 1 →
        ∃ c : Context, RetiresToCtx (.ctxsetup cd rn) s cd (some c) ∧ c.n = n ∧ WordCount s.params.w n c.nWords ∧
          c.r = 2 ^ (c.nWords * s.params.w) ∧ c.rModN = c.r % n ∧ c.r2ModN = c.r * c.r % n ∧
          0 < c.nInv ∧ c.nInv < c.r ∧ (n * c.nInv + 1) % c.r = 0)

/-- 43_montgomery_context.md R153: `N_inv` does not depend on the Bézout pair, and its low word is `−N⁻¹ mod 2^W`. -/
def Obligations.NinvIndependentOfBezoutPair : Prop :=
  ∀ (p : Params) (n a b a' b' : Int), 0 < n → n % 2 = 1 →
    a * n + b * radix p.w n = 1 → a' * n + b' * radix p.w n = 1 →
    (contextOf p.w n a).nInv = (contextOf p.w n a').nInv ∧
    (n * (word p.w (contextOf p.w n a).nInv 0 : Int) + 1) % 2 ^ p.w = 0

/-- 43_montgomery_context.md R154: each CTXGET copies its attribute; a selector of 6 or more is illegal; of a valid context
only `R` can exceed a register, and does when n_words = CAP_WORDS. -/
def Obligations.CtxgetCopiesAttribute : Prop :=
  (∀ (s : State) (rd : RegIdx) (cs : CtxIdx) (sel : Nat) (i : Instr) (pick : Context → Int),
    (sel, i, pick) ∈ [((0 : Nat), Instr.ctxgetN rd cs, fun c : Context => c.n),
      (1, .ctxgetNwords rd cs, fun c => (c.nWords : Int)), (2, .ctxgetR rd cs, fun c => c.r),
      (3, .ctxgetRmodn rd cs, fun c => c.rModN), (4, .ctxgetR2modn rd cs, fun c => c.r2ModN),
      (5, .ctxgetNinv rd cs, fun c => c.nInv)] →
    HasWord i (0x22000000 + rd.val * 2 ^ 20 + cs.val * 2 ^ 16 + sel * 2 ^ 12) ∧
    (s.ctxs.get cs = none → Raises i s 5) ∧
    ∀ c, s.ctxs.get cs = some c → WritesOrExceeds i s rd (pick c)) ∧
  (∀ cw : Word32, bits cw 31 24 = 0x22 → 6 ≤ bits cw 15 12 → ∃ d, decode cw = .error d) ∧
  (∀ (s : State) (c : Context), s.params.wf = true → c.valid s.params →
    FitsReg s c.n ∧ FitsReg s (c.nWords : Int) ∧ FitsReg s c.rModN ∧ FitsReg s c.r2ModN ∧ FitsReg s c.nInv ∧
    (FitsReg s c.r ↔ c.nWords ≠ s.params.capWords))

/-- 43_montgomery_context.md R155: CTXCLR invalidates the context register, valid or not. -/
def Obligations.CtxclrInvalidates : Prop :=
  ∀ (s : State) (cd : CtxIdx),
    HasWord (.ctxclr cd) (0x23000000 + cd.val * 2 ^ 20) ∧ RetiresToCtx (.ctxclr cd) s cd none

/-! ### Montgomery multiplier (44_montgomery_multiplier.md) -/

/-- 44_montgomery_multiplier.md R165, R167: MONTMUL writes `x·y·R⁻¹ mod N`, or faults on an operand outside [0, N). -/
def Obligations.MontmulWritesMontgomeryProduct : Prop :=
  ∀ (s : State) (rd rx ry : RegIdx) (cs : CtxIdx),
    HasWord (.montmul rd rx ry cs)
      (0x24000000 + rd.val * 2 ^ 20 + rx.val * 2 ^ 16 + ry.val * 2 ^ 12 + cs.val * 2 ^ 8) ∧
    (SomeUnwritten s [rx, ry] ∨ s.ctxs.get cs = none → Raises (.montmul rd rx ry cs) s 5) ∧
    ∀ x y c, s.regs.get rx = some x → s.regs.get ry = some y → s.ctxs.get cs = some c →
      (x < 0 ∨ c.n ≤ x ∨ y < 0 ∨ c.n ≤ y → Raises (.montmul rd rx ry cs) s 6) ∧
      (c.valid s.params → 0 ≤ x → x < c.n → 0 ≤ y → y < c.n →
        ∃ z, 0 ≤ z ∧ z < c.n ∧ z * c.r % c.n = x * y % c.n ∧ RetiresToReg (.montmul rd rx ry cs) s rd z)

/-- 44_montgomery_multiplier.md R168: TOMONT writes `a·R mod N`. -/
def Obligations.TomontWritesResidue : Prop :=
  ∀ (s : State) (rd ra : RegIdx) (cs : CtxIdx),
    HasWord (.tomont rd ra cs) (0x25000000 + rd.val * 2 ^ 20 + ra.val * 2 ^ 16 + cs.val * 2 ^ 12) ∧
    (SomeUnwritten s [ra] ∨ s.ctxs.get cs = none → Raises (.tomont rd ra cs) s 5) ∧
    ∀ a c, s.regs.get ra = some a → s.ctxs.get cs = some c →
      (a < 0 ∨ c.n ≤ a → Raises (.tomont rd ra cs) s 6) ∧
      (c.valid s.params → 0 ≤ a → a < c.n → RetiresToReg (.tomont rd ra cs) s rd (a * c.r % c.n))

/-- 44_montgomery_multiplier.md R169: FROMMONT writes `a·R⁻¹ mod N`. -/
def Obligations.FrommontWritesOrdinaryValue : Prop :=
  ∀ (s : State) (rd ra : RegIdx) (cs : CtxIdx),
    HasWord (.frommont rd ra cs) (0x26000000 + rd.val * 2 ^ 20 + ra.val * 2 ^ 16 + cs.val * 2 ^ 12) ∧
    (SomeUnwritten s [ra] ∨ s.ctxs.get cs = none → Raises (.frommont rd ra cs) s 5) ∧
    ∀ a c, s.regs.get ra = some a → s.ctxs.get cs = some c →
      (a < 0 ∨ c.n ≤ a → Raises (.frommont rd ra cs) s 6) ∧
      (c.valid s.params → 0 ≤ a → a < c.n →
        ∃ z, 0 ≤ z ∧ z < c.n ∧ z * c.r % c.n = a ∧ RetiresToReg (.frommont rd ra cs) s rd z)

/-- 44_montgomery_multiplier.md R171: the round trip, product, closure and mixed-domain laws. -/
def Obligations.MontgomeryDomainLaws : Prop :=
  ∀ (p : Params) (c : Context) (x y : Int), c.valid p → 0 ≤ x → x < c.n → 0 ≤ y → y < c.n →
    mm p.w (mm p.w x c.r2ModN c) 1 c = x ∧
    mm p.w (mm p.w x 1 c) c.r2ModN c = x ∧
    mm p.w (mm p.w (mm p.w x c.r2ModN c) (mm p.w y c.r2ModN c) c) 1 c = x * y % c.n ∧
    mm p.w (mm p.w x c.r2ModN c) (mm p.w y c.r2ModN c) c = mm p.w (x * y % c.n) c.r2ModN c ∧
    mm p.w (mm p.w x c.r2ModN c) y c = x * y % c.n

/-- 44_montgomery_multiplier.md R170: every shift of the multiplier is exact, and the accumulator stays below 2N. -/
def Obligations.MultiplierShiftsExactlyWithinBound : Prop :=
  ∀ (p : Params) (c : Context) (x y : Int), c.valid p → 0 ≤ x → x < c.n → 0 ≤ y → y < c.r →
    (∀ i < c.nWords, mmSum p.w x y c (mmAcc p.w x y c i) i % 2 ^ p.w = 0) ∧
    0 ≤ mmAcc p.w x y c c.nWords ∧ mmAcc p.w x y c c.nWords < 2 * c.n ∧
    (y < c.n → ∀ i ≤ c.nWords, mmAcc p.w x y c i < 2 * c.n)

/-! ### Modular exponentiation (45_modular_exponentiation.md) -/

/-- 45_modular_exponentiation.md R180, R181, R184: MODEXP writes `m^e mod N`, or the first error that applies. -/
def Obligations.ModexpWritesPower : Prop :=
  ∀ (s : State) (rd rm re rn : RegIdx), s.regsFit →
    HasWord (.modexp rd rm re rn)
      (0x27000000 + rd.val * 2 ^ 20 + rm.val * 2 ^ 16 + re.val * 2 ^ 12 + rn.val * 2 ^ 8) ∧
    (SomeUnwritten s [rm, re, rn] → Raises (.modexp rd rm re rn) s 5) ∧
    ∀ m e n, s.regs.get rm = some m → s.regs.get re = some e → s.regs.get rn = some n →
      (e < 0 → Raises (.modexp rd rm re rn) s 6) ∧
      (0 ≤ e → n = 0 → Raises (.modexp rd rm re rn) s 3) ∧
      (0 ≤ e → n < 0 → Raises (.modexp rd rm re rn) s 1) ∧
      (0 ≤ e → 0 < n → n % 2 = 0 → Raises (.modexp rd rm re rn) s 2) ∧
      (0 ≤ e → 0 < n → n % 2 = 1 → RetiresToReg (.modexp rd rm re rn) s rd (m ^ e.toNat % n))
end

