-- ==== Sys2Proof/Laws/Arith.lean ====
section
/-! SUPPORT. The functions of 00_scope.md R8 in terms of the library's: what each one computes, said once. -/

namespace Sys2Proof

theorem Params.w_eq (p : Params) : p.w = 8 * p.wb := by
  rw [Params.w, Params.wb]
  cases p.width <;> rfl

theorem Params.w_pos (p : Params) : 0 < p.w := by
  rw [Params.w]
  cases p.width <;> decide

theorem Params.wb_pos (p : Params) : 0 < p.wb := by
  rw [Params.wb]
  cases p.width <;> decide

namespace Machine

theorem pow2_eq (k : Nat) : pow2 k = 2 ^ k := by
  simp [pow2]

theorem pow2_pos (k : Nat) : 0 < pow2 k := by
  rw [pow2_eq]
  positivity

theorem even_iff (v : Int) : even v = true ↔ v % 2 = 0 := by
  simp [even]

/-! ### Lengths -/

theorem bitlen_le_iff (v : Int) (k : Nat) : bitlen v ≤ k ↔ v.natAbs < 2 ^ k := by
  unfold bitlen
  split_ifs with h
  · simp [h]
  · rw [← Nat.log2_lt (by omega)]
    omega

theorem natAbs_lt_two_pow_bitlen (v : Int) : v.natAbs < 2 ^ bitlen v := (bitlen_le_iff v _).1 (Nat.le_refl _)

/-- `ceil(bitlen / W) ≤ k` (00_scope.md R8). -/
theorem nwords_le_iff {w : Nat} (hw : 0 < w) (v : Int) (k : Nat) : nwords w v ≤ k ↔ v.natAbs < 2 ^ (k * w) := by
  rw [← bitlen_le_iff, nwords, ← Nat.lt_succ_iff, Nat.div_lt_iff_lt_mul hw, Nat.succ_mul]
  omega

theorem natAbs_lt_two_pow_nwords {w : Nat} (hw : 0 < w) (v : Int) : v.natAbs < 2 ^ (nwords w v * w) :=
  (nwords_le_iff hw v _).1 (Nat.le_refl _)

theorem two_pow_le_natAbs {w : Nat} (hw : 0 < w) {v : Int} {k : Nat} (h : k < nwords w v) : 2 ^ (k * w) ≤ v.natAbs := by
  by_contra hlt
  exact absurd ((nwords_le_iff hw v k).2 (by omega)) (by omega)

theorem nwords_eq_zero_iff {w : Nat} (hw : 0 < w) (v : Int) : nwords w v = 0 ↔ v = 0 := by
  rw [← Nat.le_zero, nwords_le_iff hw]
  simp

/-- 10_state.md R25: a value fits a register exactly when its magnitude is below 2^(CAP_WORDS·W). -/
theorem fits_iff (p : Params) (v : Int) : fits p v = true ↔ v.natAbs < 2 ^ (p.capWords * p.w) := by
  rw [fits, decide_eq_true_eq, nwords_le_iff p.w_pos]

theorem fits_of_natAbs_le {p : Params} {v v' : Int} (h : fits p v = true) (hle : v'.natAbs ≤ v.natAbs) :
    fits p v' = true := by
  rw [fits_iff] at h ⊢
  omega

/-! ### Words -/

theorem word_lt (w : Nat) (v : Int) (i : Nat) : word w v i < 2 ^ w := Nat.mod_lt _ (by positivity)

/-- The first `k` words of the magnitude (10_state.md R21). -/
theorem sum_word (w : Nat) (v : Int) (k : Nat) :
    ∑ i ∈ Finset.range k, word w v i * 2 ^ (i * w) = v.natAbs % 2 ^ (k * w) := by
  induction k with
  | zero => simp [Nat.mod_one]
  | succ k ih =>
    rw [Finset.sum_range_succ, ih, Nat.succ_mul, Nat.pow_add, Nat.mod_mul, word, Nat.mul_comm (_ % _)]

theorem sum_word_nwords {w : Nat} (hw : 0 < w) (v : Int) :
    ∑ i ∈ Finset.range (nwords w v), word w v i * 2 ^ (i * w) = v.natAbs := by
  rw [sum_word, Nat.mod_eq_of_lt (natAbs_lt_two_pow_nwords hw v)]

/-! ### Division -/

/-- `tdiv` is the library's division truncating toward zero. -/
theorem tdiv_eq (a b : Int) : tdiv a b = Int.tdiv a b := by
  unfold tdiv
  rcases Int.lt_or_le a 0 with ha | ha <;> rcases Int.lt_or_le b 0 with hb | hb
  · obtain ⟨m, rfl⟩ := Int.exists_eq_neg_ofNat ha.le
    obtain ⟨n, rfl⟩ := Int.exists_eq_neg_ofNat hb.le
    rw [if_pos (by rw [decide_eq_true ha, decide_eq_true hb])]
    simp [Int.neg_tdiv, Int.tdiv_neg]
  · obtain ⟨m, rfl⟩ := Int.exists_eq_neg_ofNat ha.le
    obtain ⟨n, rfl⟩ := Int.eq_ofNat_of_zero_le hb
    rw [if_neg (by rw [decide_eq_true ha, decide_eq_false (Int.not_lt.2 hb)]; decide)]
    simp [Int.neg_tdiv]
  · obtain ⟨m, rfl⟩ := Int.eq_ofNat_of_zero_le ha
    obtain ⟨n, rfl⟩ := Int.exists_eq_neg_ofNat hb.le
    rw [if_neg (by rw [decide_eq_true hb, decide_eq_false (Int.not_lt.2 ha)]; decide)]
    simp [Int.tdiv_neg]
  · obtain ⟨m, rfl⟩ := Int.eq_ofNat_of_zero_le ha
    obtain ⟨n, rfl⟩ := Int.eq_ofNat_of_zero_le hb
    rw [if_pos (by rw [decide_eq_false (Int.not_lt.2 ha), decide_eq_false (Int.not_lt.2 hb)])]
    simp

/-- `trem` is the library's remainder with the sign of the dividend. -/
theorem trem_eq (a b : Int) : trem a b = Int.tmod a b := by
  rw [trem, tdiv_eq, Int.tmod_def]

/-- `fmod` is the residue in [0, n). -/
theorem fmod_eq {n : Int} (hn : 0 < n) (a : Int) : fmod a n = a % n := by
  rw [fmod, trem_eq]
  have h1 : Int.tmod a n % n = a % n := by
    rw [Int.tmod_def, sub_eq_add_neg, ← mul_neg, Int.add_mul_emod_self_left]
  have h2 : Int.tmod a n < n := Int.tmod_lt_of_pos a hn
  have h3 : -n < Int.tmod a n := by
    have := Int.tmod_lt_of_pos (-a) hn
    rw [Int.neg_tmod] at this
    omega
  split_ifs with h
  · rw [← h1, Int.emod_eq_of_lt h h2]
  · rw [← h1, ← Int.add_emod_right, Int.emod_eq_of_lt (by omega) (by omega)]

theorem reduceBase_eq {n : Int} (hn : 0 < n) (m : Int) : reduceBase m n = m % n := by
  rw [← fmod_eq hn, fmod, reduceBase]
  split_ifs <;> omega

end Machine

end Sys2Proof
end

