-- ==== Sys2Proof/Laws/Decode.lean ====
section
/-! SUPPORT. The fields of a command word: what each one is in an encoded word, and when a word matches a mask. -/

namespace Sys2Proof

/-- Bit `i` of a word inside the field `cw[hi:lo]`. -/
theorem getLsbD_eq_testBit_bits (cw : Word32) {hi lo i : Nat} (h1 : lo ≤ i) (h2 : i ≤ hi) :
    cw.getLsbD i = (bits cw hi lo).testBit (i - lo) := by
  rw [bits, Nat.testBit_mod_two_pow, Nat.testBit_div_two_pow, BitVec.getLsbD]
  have h3 : i - lo < hi - lo + 1 := by omega
  simp [h3, Nat.sub_add_cancel h1]

theorem bits_lt (cw : Word32) (hi lo : Nat) : bits cw hi lo < 2 ^ (hi - lo + 1) := Nat.mod_lt _ (by positivity)

/-- Two words agree on a field when they agree on its bits. -/
theorem bits_eq_of_getLsbD {cw cw' : Word32} {hi lo : Nat} (hle : lo ≤ hi)
    (h : ∀ i, lo ≤ i → i ≤ hi → cw.getLsbD i = cw'.getLsbD i) : bits cw hi lo = bits cw' hi lo := by
  apply Nat.eq_of_testBit_eq
  intro j
  by_cases hj : j < hi - lo + 1
  · have := h (lo + j) (by omega) (by omega)
    rw [getLsbD_eq_testBit_bits cw (hi := hi) (lo := lo) (by omega) (by omega),
      getLsbD_eq_testBit_bits cw' (hi := hi) (lo := lo) (by omega) (by omega)] at this
    simpa using this
  · have hp : 2 ^ (hi - lo + 1) ≤ 2 ^ j := Nat.pow_le_pow_right (by decide) (by omega)
    rw [Nat.testBit_lt_two_pow (Nat.lt_of_lt_of_le (bits_lt cw hi lo) hp),
      Nat.testBit_lt_two_pow (Nat.lt_of_lt_of_le (bits_lt cw' hi lo) hp)]

/-- A word matches a pattern under a mask exactly when it agrees with the pattern on the fields the mask is made of. -/
theorem and_mask_eq_iff {mask pattern : Word32} (gs : List (Nat × Nat))
    (hm : ∀ i : Fin 32, mask.getLsbD i = gs.any fun g => decide (g.2 ≤ i.val) && decide (i.val ≤ g.1))
    (hp : pattern &&& mask = pattern) (hg : ∀ g ∈ gs, g.2 ≤ g.1 ∧ g.1 < 32) (cw : Word32) :
    cw &&& mask = pattern ↔ ∀ g ∈ gs, bits cw g.1 g.2 = bits pattern g.1 g.2 := by
  constructor
  · intro h g hmem
    obtain ⟨hle, hlt⟩ := hg g hmem
    refine bits_eq_of_getLsbD hle fun i h1 h2 => ?_
    have hmi : mask.getLsbD i = true := by
      rw [hm ⟨i, by omega⟩]
      exact List.any_eq_true.2 ⟨g, hmem, by simp [h1, h2]⟩
    rw [← h, BitVec.getLsbD_and, hmi, Bool.and_true]
  · intro h
    rw [← hp]
    apply BitVec.eq_of_getLsbD_eq
    intro i hi
    rw [BitVec.getLsbD_and, BitVec.getLsbD_and]
    cases hmi : mask.getLsbD i with
    | false => simp
    | true =>
      rw [hm ⟨i, hi⟩] at hmi
      obtain ⟨g, hmem, hgi⟩ := List.any_eq_true.1 hmi
      simp only [Bool.and_eq_true, decide_eq_true_eq] at hgi
      rw [getLsbD_eq_testBit_bits cw hgi.1 hgi.2, h g hmem, ← getLsbD_eq_testBit_bits pattern hgi.1 hgi.2]

/-! ### The fields of the three formats (30_encoding.md R82 to R84) -/

theorem bits_formatI {opcode hi lo : Nat} (r : RegIdx) (imm20 : BitVec 20) (h : opcode < 2 ^ 8) :
    bits (formatI opcode r imm20) hi lo = (opcode * 2 ^ 24 + r.val * 2 ^ 20 + imm20.toNat) / 2 ^ lo % 2 ^ (hi - lo + 1) := by
  have hn : opcode * 2 ^ 24 + r.val * 2 ^ 20 + imm20.toNat < 2 ^ 32 := by omega
  rw [bits, formatI, BitVec.toNat_ofNat, Nat.mod_eq_of_lt hn]

theorem bits_formatS {opcode hi lo : Nat} (rd ra : RegIdx) (imm16 : BitVec 16) (h : opcode < 2 ^ 8) :
    bits (formatS opcode rd ra imm16) hi lo =
      (opcode * 2 ^ 24 + rd.val * 2 ^ 20 + ra.val * 2 ^ 16 + imm16.toNat) / 2 ^ lo % 2 ^ (hi - lo + 1) := by
  have hn : opcode * 2 ^ 24 + rd.val * 2 ^ 20 + ra.val * 2 ^ 16 + imm16.toNat < 2 ^ 32 := by omega
  rw [bits, formatS, BitVec.toNat_ofNat, Nat.mod_eq_of_lt hn]

theorem bits_formatR {opcode f0 f1 f2 f3 f4 hi lo : Nat} (h : opcode < 2 ^ 8) (h0 : f0 < 16) (h1 : f1 < 16)
    (h2 : f2 < 16) (h3 : f3 < 16) (h4 : f4 < 16) :
    bits (formatR opcode f0 f1 f2 f3 f4) hi lo =
      (opcode * 2 ^ 24 + f0 * 2 ^ 20 + f1 * 2 ^ 16 + f2 * 2 ^ 12 + f3 * 2 ^ 8 + f4 * 2 ^ 4) / 2 ^ lo % 2 ^ (hi - lo + 1) := by
  have hn : opcode * 2 ^ 24 + f0 * 2 ^ 20 + f1 * 2 ^ 16 + f2 * 2 ^ 12 + f3 * 2 ^ 8 + f4 * 2 ^ 4 < 2 ^ 32 := by omega
  rw [bits, formatR, BitVec.toNat_ofNat, Nat.mod_eq_of_lt hn]

end Sys2Proof
end

