-- ==== Sys2Proof/Laws/Memory.lean ====
section
/-! SUPPORT. The laws of OPMEM: every operation keeps the canonical form, a read after a write, what a write leaves alone,
and that canonical memories are equal when they read alike. -/

namespace Sys2Proof.Machine

/-! ### One byte -/

theorem Memory.above_mono {m : Memory} {lo lo' : Nat} (h : Memory.above lo m = true) (hle : lo' ≤ lo) :
    Memory.above lo' m = true := by
  cases m with
  | nil => rfl
  | cons c m =>
    simp only [Memory.above, decide_eq_true_eq] at h ⊢
    omega

theorem Memory.wf_cons {b : Nat} {x : Byte} {m : Memory} :
    Memory.wf ((b, x) :: m) = true ↔ x ≠ Memory.unlisted ∧ Memory.above b m = true ∧ Memory.wf m = true := by
  simp [Memory.wf, and_assoc]

/-- In canonical form an address at or below the lower bound is not listed. -/
theorem Memory.read_of_above {m : Memory} {lo a : Nat} (hw : Memory.wf m = true) (h : Memory.above lo m = true)
    (ha : a ≤ lo) : Memory.read m a = Memory.unlisted := by
  induction m generalizing lo with
  | nil => rfl
  | cons c m ih =>
    obtain ⟨b, x⟩ := c
    obtain ⟨-, hab, hm⟩ := Memory.wf_cons.1 hw
    simp only [Memory.above, decide_eq_true_eq] at h
    rw [Memory.read, if_neg (by omega)]
    exact ih hm hab (by omega)

theorem Memory.above_write {m : Memory} {lo a : Nat} {v : Byte} (h : Memory.above lo m = true)
    (hw : Memory.wf m = true) (ha : lo < a) : Memory.above lo (Memory.write m a v) = true := by
  cases m with
  | nil =>
    rw [Memory.write]
    split <;> simp [Memory.above, ha]
  | cons c m =>
    obtain ⟨b, x⟩ := c
    obtain ⟨-, hab, -⟩ := Memory.wf_cons.1 hw
    have hb : lo < b := by simpa [Memory.above] using h
    simp only [Memory.write]
    split_ifs
    · simpa [Memory.above] using hb
    · simpa [Memory.above] using ha
    · exact Memory.above_mono hab (by omega)
    · simpa [Memory.above] using ha
    · simpa [Memory.above] using hb

/-- A write keeps the canonical form. -/
theorem Memory.write_wf {m : Memory} (hw : Memory.wf m = true) (a : Nat) (v : Byte) :
    Memory.wf (Memory.write m a v) = true := by
  induction m with
  | nil =>
    rw [Memory.write]
    split_ifs with hv
    · rfl
    · simp [Memory.wf, Memory.above, hv]
  | cons c m ih =>
    obtain ⟨b, x⟩ := c
    obtain ⟨hx, hab, hm⟩ := Memory.wf_cons.1 hw
    simp only [Memory.write]
    split_ifs with h1 hv h2 hv
    · exact hw
    · exact Memory.wf_cons.2 ⟨hv, by simpa [Memory.above] using h1, hw⟩
    · exact hm
    · exact Memory.wf_cons.2 ⟨hv, by rw [h2]; exact hab, hm⟩
    · exact Memory.wf_cons.2 ⟨hx, Memory.above_write hab hm (by omega), ih hm⟩

/-- A write leaves every other byte alone, whatever the form of the memory. -/
theorem Memory.read_write_other (m : Memory) {a b : Nat} (v : Byte) (h : b ≠ a) :
    Memory.read (Memory.write m a v) b = Memory.read m b := by
  induction m with
  | nil =>
    rw [Memory.write]
    split_ifs
    · rfl
    · simp [Memory.read, h]
  | cons c m ih =>
    obtain ⟨k, x⟩ := c
    simp only [Memory.write]
    split_ifs with h1 hv h2 hv
    · rfl
    · simp [Memory.read, h]
    · rw [Memory.read, if_neg (by omega)]
    · rw [Memory.read, if_neg h, Memory.read, if_neg (by omega)]
    · simp only [Memory.read, ih]

/-- A read after a write to the same address gives the byte written. -/
theorem Memory.read_write_self {m : Memory} (hw : Memory.wf m = true) (a : Nat) (v : Byte) :
    Memory.read (Memory.write m a v) a = v := by
  induction m with
  | nil =>
    rw [Memory.write]
    split_ifs with hv
    · exact hv.symm
    · simp [Memory.read]
  | cons c m ih =>
    obtain ⟨k, x⟩ := c
    obtain ⟨-, hab, hm⟩ := Memory.wf_cons.1 hw
    simp only [Memory.write]
    split_ifs with h1 hv h2 hv
    · rw [Memory.read, if_neg (by omega), hv]
      exact Memory.read_of_above hm hab (by omega)
    · simp [Memory.read]
    · rw [hv]
      exact Memory.read_of_above hm hab (by omega)
    · simp [Memory.read]
    · rw [Memory.read, if_neg h2, ih hm]

theorem Memory.read_write {m : Memory} (hw : Memory.wf m = true) (a b : Nat) (v : Byte) :
    Memory.read (Memory.write m a v) b = if b = a then v else Memory.read m b := by
  split_ifs with h
  · rw [h, Memory.read_write_self hw]
  · exact Memory.read_write_other m v h

theorem Memory.within_cons {n : Nat} {c : Host.Cell} {m : Memory} :
    Memory.within n (c :: m) = true ↔ c.1 < n ∧ Memory.within n m = true := by
  simp [Memory.within]

/-- A write inside OPMEM lists no address outside it. -/
theorem Memory.write_within {m : Memory} {n a : Nat} (h : Memory.within n m = true) (ha : a < n) (v : Byte) :
    Memory.within n (Memory.write m a v) = true := by
  induction m with
  | nil =>
    rw [Memory.write]
    split_ifs <;> simp [Memory.within, ha]
  | cons c m ih =>
    obtain ⟨k, x⟩ := c
    obtain ⟨hk, hm⟩ := Memory.within_cons.1 h
    simp only [Memory.write]
    split_ifs
    · exact h
    · exact Memory.within_cons.2 ⟨ha, h⟩
    · exact hm
    · exact Memory.within_cons.2 ⟨ha, hm⟩
    · exact Memory.within_cons.2 ⟨hk, ih hm⟩

/-- An address outside OPMEM reads as unlisted. -/
theorem Memory.read_of_within {m : Memory} {n a : Nat} (h : Memory.within n m = true) (ha : n ≤ a) :
    Memory.read m a = Memory.unlisted := by
  induction m with
  | nil => rfl
  | cons c m ih =>
    obtain ⟨k, x⟩ := c
    obtain ⟨hk, hm⟩ := Memory.within_cons.1 h
    simp only at hk
    rw [Memory.read, if_neg (by omega), ih hm]

/-- Equal memories are equal data: two canonical memories that read alike are one list. -/
theorem Memory.ext_of_wf {m m' : Memory} (hw : Memory.wf m = true) (hw' : Memory.wf m' = true)
    (h : ∀ a, Memory.read m a = Memory.read m' a) : m = m' := by
  induction m generalizing m' with
  | nil =>
    cases m' with
    | nil => rfl
    | cons c m' =>
      obtain ⟨b, x⟩ := c
      obtain ⟨hx, -, -⟩ := Memory.wf_cons.1 hw'
      have := h b
      simp only [Memory.read, if_true] at this
      exact absurd this.symm hx
  | cons c m ih =>
    obtain ⟨b, x⟩ := c
    obtain ⟨hx, hab, hm⟩ := Memory.wf_cons.1 hw
    cases m' with
    | nil =>
      have := h b
      simp only [Memory.read, if_true] at this
      exact absurd this hx
    | cons c' m' =>
      obtain ⟨b', x'⟩ := c'
      obtain ⟨hx', hab', hm'⟩ := Memory.wf_cons.1 hw'
      have hb : b = b' := by
        by_contra hne
        rcases Nat.lt_or_gt_of_ne hne with hlt | hgt
        · have := h b
          rw [Memory.read, if_pos rfl, Memory.read, if_neg hne,
            Memory.read_of_above hm' hab' (by omega)] at this
          exact hx this
        · have := h b'
          rw [Memory.read, if_neg (Ne.symm hne), Memory.read_of_above hm hab (by omega), Memory.read,
            if_pos rfl] at this
          exact hx' this.symm
      subst hb
      have hxx : x = x' := by
        have := h b
        simpa [Memory.read] using this
      subst hxx
      rw [ih hm hm']
      intro a
      by_cases ha : a = b
      · rw [ha, Memory.read_of_above hm hab (Nat.le_refl b), Memory.read_of_above hm' hab' (Nat.le_refl b)]
      · have := h a
        simpa [Memory.read, ha] using this

/-! ### Little-endian numbers of several bytes -/

theorem Memory.writeLE_wf {m : Memory} (hw : Memory.wf m = true) (a n v : Nat) :
    Memory.wf (Memory.writeLE m a n v) = true := by
  induction n generalizing m a v with
  | zero => exact hw
  | succ n ih => exact ih (Memory.write_wf hw a _) (a + 1) _

theorem Memory.writeLE_within {m : Memory} {k : Nat} (h : Memory.within k m = true) {a n : Nat} (v : Nat)
    (ha : a + n ≤ k) : Memory.within k (Memory.writeLE m a n v) = true := by
  induction n generalizing m a v with
  | zero => exact h
  | succ n ih => exact ih (Memory.write_within h (by omega) _) _ (by omega)

/-- A store leaves every byte outside its own alone. -/
theorem Memory.read_writeLE_outside (m : Memory) {a n b : Nat} (v : Nat) (hb : b < a ∨ a + n ≤ b) :
    Memory.read (Memory.writeLE m a n v) b = Memory.read m b := by
  induction n generalizing m a v with
  | zero => rfl
  | succ n ih =>
    rw [Memory.writeLE, ih _ _ (by omega), Memory.read_write_other _ _ (by omega)]

/-- Byte `j` of a store (20_memory.md R54). -/
theorem Memory.read_writeLE_inside {m : Memory} (hw : Memory.wf m = true) {n j : Nat} (a v : Nat) (hj : j < n) :
    Memory.read (Memory.writeLE m a n v) (a + j) = BitVec.ofNat 8 (v / 2 ^ (8 * j)) := by
  induction n generalizing m a v j with
  | zero => omega
  | succ n ih =>
    rw [Memory.writeLE]
    cases j with
    | zero =>
      rw [Memory.read_writeLE_outside _ _ (by omega), Nat.add_zero, Memory.read_write_self hw]
      simp
    | succ j =>
      rw [show a + (j + 1) = a + 1 + j by omega, ih (Memory.write_wf hw a _) _ _ (by omega), Nat.div_div_eq_div_mul,
        ← Nat.pow_add]
      congr 3
      omega

theorem Memory.readLE_lt (m : Memory) (a n : Nat) : Memory.readLE m a n < 2 ^ (8 * n) := by
  induction n generalizing a with
  | zero => simp [Memory.readLE]
  | succ n ih =>
    have h1 := (Memory.read m a).isLt
    have h2 := ih (a + 1)
    have h3 : 2 ^ (8 * (n + 1)) = 2 ^ 8 * 2 ^ (8 * n) := by rw [← Nat.pow_add]; congr 1; omega
    rw [Memory.readLE, h3]
    omega

/-- A number read depends on its own bytes alone. -/
theorem Memory.readLE_congr {m m' : Memory} {a n : Nat}
    (h : ∀ b, a ≤ b → b < a + n → Memory.read m b = Memory.read m' b) :
    Memory.readLE m a n = Memory.readLE m' a n := by
  induction n generalizing a with
  | zero => rfl
  | succ n ih =>
    rw [Memory.readLE, Memory.readLE, h a (Nat.le_refl a) (by omega), ih fun b h1 h2 => h b (by omega) (by omega)]

/-- `MemRead(addr, n)` as the sum of 20_memory.md R54. -/
theorem Memory.readLE_eq_sum (m : Memory) (a n : Nat) :
    Memory.readLE m a n = ∑ j ∈ Finset.range n, (Memory.read m (a + j)).toNat * 2 ^ (8 * j) := by
  induction n generalizing a with
  | zero => rfl
  | succ n ih =>
    rw [Memory.readLE, ih, Finset.sum_range_succ', Finset.mul_sum]
    simp only [Nat.mul_zero, Nat.pow_zero, Nat.mul_one, Nat.add_zero]
    rw [Nat.add_comm]
    congr 1
    refine Finset.sum_congr rfl fun j _ => ?_
    rw [show a + 1 + j = a + (j + 1) by omega, show 8 * (j + 1) = 8 + 8 * j by omega, Nat.pow_add]
    ac_rfl

/-- A number read back after it was stored. -/
theorem Memory.readLE_writeLE {m : Memory} (hw : Memory.wf m = true) (a : Nat) {n v : Nat} (hv : v < 2 ^ (8 * n)) :
    Memory.readLE (Memory.writeLE m a n v) a n = v := by
  induction n generalizing m a v with
  | zero =>
    simp only [Nat.mul_zero, Nat.pow_zero] at hv
    simp [Memory.readLE]
    omega
  | succ n ih =>
    have h3 : 2 ^ (8 * (n + 1)) = 2 ^ 8 * 2 ^ (8 * n) := by rw [← Nat.pow_add]; congr 1; omega
    have hb := Memory.read_writeLE_inside hw (j := 0) a v (Nat.succ_pos n)
    rw [Nat.add_zero] at hb
    rw [Memory.readLE, hb, Memory.writeLE, ih (Memory.write_wf hw a _) _ (by rw [h3] at hv; omega)]
    simp only [Nat.mul_zero, Nat.pow_zero, Nat.div_one, BitVec.toNat_ofNat]
    omega

/-! ### The words of an image -/

theorem writeWords_wf (p : Params) {m : Memory} (hw : Memory.wf m = true) (a : Nat) (xs : List Nat) :
    Memory.wf (writeWords p m a xs) = true := by
  induction xs generalizing m a with
  | nil => exact hw
  | cons x xs ih => exact ih (Memory.writeLE_wf hw _ _ _) (a + 1)

theorem writeWords_within (p : Params) {m : Memory} {k : Nat} (h : Memory.within k m = true) {a : Nat} {xs : List Nat}
    (ha : (a + xs.length) * p.wb ≤ k) : Memory.within k (writeWords p m a xs) = true := by
  induction xs generalizing m a with
  | nil => exact h
  | cons x xs ih =>
    rw [List.length_cons] at ha
    refine ih (Memory.writeLE_within h _ ?_) (by rwa [show a + 1 + xs.length = a + (xs.length + 1) by omega])
    have : (a + 1) * p.wb ≤ (a + (xs.length + 1)) * p.wb := Nat.mul_le_mul_right _ (by omega)
    rw [Nat.add_mul] at this
    simp only [wordAddress]
    omega

/-- Storing words leaves every byte outside them alone. -/
theorem read_writeWords_outside (p : Params) (m : Memory) {a b : Nat} {xs : List Nat}
    (hb : b < a * p.wb ∨ (a + xs.length) * p.wb ≤ b) :
    Memory.read (writeWords p m a xs) b = Memory.read m b := by
  induction xs generalizing m a with
  | nil => rfl
  | cons x xs ih =>
    rw [List.length_cons] at hb
    have h1 : (a + 1) * p.wb ≤ (a + (xs.length + 1)) * p.wb := Nat.mul_le_mul_right _ (by omega)
    have h2 : (a + 1) * p.wb = a * p.wb + p.wb := by ring
    rw [writeWords, ih _ (by rw [show a + 1 + xs.length = a + (xs.length + 1) by omega]; omega),
      Memory.read_writeLE_outside _ _ (by simp only [wordAddress]; omega)]

/-- Word `i` of the words stored. -/
theorem readLE_writeWords (p : Params) {m : Memory} (hw : Memory.wf m = true) (a : Nat) {xs : List Nat}
    (hx : ∀ x ∈ xs, x < 2 ^ (8 * p.wb)) {i : Nat} (hi : i < xs.length) :
    Memory.readLE (writeWords p m a xs) ((a + i) * p.wb) p.wb = xs[i] := by
  induction xs generalizing m a i with
  | nil => simp at hi
  | cons x xs ih =>
    rw [writeWords]
    cases i with
    | zero =>
      rw [Memory.readLE_congr (m' := Memory.writeLE m (wordAddress p a) p.wb x)]
      · simpa [wordAddress] using Memory.readLE_writeLE hw (a * p.wb) (hx x (by simp))
      · intro b h1 h2
        refine read_writeWords_outside p _ (Or.inl ?_)
        rw [Nat.add_mul]
        rw [Nat.add_zero] at h2
        omega
    | succ i =>
      rw [show a + (i + 1) = a + 1 + i by omega,
        ih (Memory.writeLE_wf hw _ _ _) (a + 1) (fun y hy => hx y (List.mem_cons_of_mem _ hy))
          (by simpa using hi)]
      rfl

/-! ### Every content of OPMEM is a canonical memory (70_reset_and_hazards.md R232) -/

/-- The canonical memory that holds `f a` at every address `a < n`. -/
def Memory.ofContent (f : Nat → Byte) : Nat → Memory
  | 0 => []
  | n + 1 => Memory.write (Memory.ofContent f n) n (f n)

theorem Memory.ofContent_wf (f : Nat → Byte) (n : Nat) : Memory.wf (Memory.ofContent f n) = true := by
  induction n with
  | zero => rfl
  | succ n ih => exact Memory.write_wf ih n _

theorem Memory.within_mono {m : Memory} {k k' : Nat} (h : Memory.within k m = true) (hk : k ≤ k') :
    Memory.within k' m = true := by
  simp only [Memory.within, List.all_eq_true, decide_eq_true_eq] at h ⊢
  exact fun c hc => Nat.lt_of_lt_of_le (h c hc) hk

theorem Memory.ofContent_within (f : Nat → Byte) (n : Nat) : Memory.within n (Memory.ofContent f n) = true := by
  induction n with
  | zero => rfl
  | succ n ih => exact Memory.write_within (Memory.within_mono ih (Nat.le_succ n)) (Nat.lt_succ_self n) _

/-- A claim about every canonical OPMEM is a claim about every content of it. -/
theorem Memory.read_ofContent (f : Nat → Byte) {n a : Nat} (ha : a < n) : Memory.read (Memory.ofContent f n) a = f a := by
  induction n with
  | zero => omega
  | succ n ih =>
    rw [Memory.ofContent, Memory.read_write (Memory.ofContent_wf f n)]
    split_ifs with h
    · rw [h]
    · exact ih (by omega)

end Sys2Proof.Machine
end

