-- ==== Sys2Proof/Laws/State.lean ====
section
/-! SUPPORT. One lemma per field per update of the state, and the accessors of the registers after a write: later proofs
unfold no record update. -/

namespace Sys2Proof.Machine

/-! ### State.setReg -/

@[simp] theorem State.setReg_params (s : State) (i : RegIdx) (v : Int) : (s.setReg i v).params = s.params := rfl
@[simp] theorem State.setReg_regs (s : State) (i : RegIdx) (v : Int) : (s.setReg i v).regs = s.regs.set i.val (some v) i.isLt := rfl
@[simp] theorem State.setReg_ctxs (s : State) (i : RegIdx) (v : Int) : (s.setReg i v).ctxs = s.ctxs := rfl
@[simp] theorem State.setReg_cmdseq (s : State) (i : RegIdx) (v : Int) : (s.setReg i v).cmdseq = s.cmdseq := rfl
@[simp] theorem State.setReg_status (s : State) (i : RegIdx) (v : Int) : (s.setReg i v).status = s.status := rfl
@[simp] theorem State.setReg_faultcmd (s : State) (i : RegIdx) (v : Int) : (s.setReg i v).faultcmd = s.faultcmd := rfl
@[simp] theorem State.setReg_opmem (s : State) (i : RegIdx) (v : Int) : (s.setReg i v).opmem = s.opmem := rfl
@[simp] theorem State.setReg_pending (s : State) (i : RegIdx) (v : Int) : (s.setReg i v).pending = s.pending := rfl
@[simp] theorem State.setReg_reads (s : State) (i : RegIdx) (v : Int) : (s.setReg i v).reads = s.reads := rfl

/-! ### State.setCtx -/

@[simp] theorem State.setCtx_params (s : State) (k : CtxIdx) (c : Option Context) : (s.setCtx k c).params = s.params := rfl
@[simp] theorem State.setCtx_regs (s : State) (k : CtxIdx) (c : Option Context) : (s.setCtx k c).regs = s.regs := rfl
@[simp] theorem State.setCtx_ctxs (s : State) (k : CtxIdx) (c : Option Context) : (s.setCtx k c).ctxs = s.ctxs.set k.val c k.isLt := rfl
@[simp] theorem State.setCtx_cmdseq (s : State) (k : CtxIdx) (c : Option Context) : (s.setCtx k c).cmdseq = s.cmdseq := rfl
@[simp] theorem State.setCtx_status (s : State) (k : CtxIdx) (c : Option Context) : (s.setCtx k c).status = s.status := rfl
@[simp] theorem State.setCtx_faultcmd (s : State) (k : CtxIdx) (c : Option Context) : (s.setCtx k c).faultcmd = s.faultcmd := rfl
@[simp] theorem State.setCtx_opmem (s : State) (k : CtxIdx) (c : Option Context) : (s.setCtx k c).opmem = s.opmem := rfl
@[simp] theorem State.setCtx_pending (s : State) (k : CtxIdx) (c : Option Context) : (s.setCtx k c).pending = s.pending := rfl
@[simp] theorem State.setCtx_reads (s : State) (k : CtxIdx) (c : Option Context) : (s.setCtx k c).reads = s.reads := rfl

/-! ### retire -/

@[simp] theorem retire_params (s : State) : (retire s).params = s.params := rfl
@[simp] theorem retire_regs (s : State) : (retire s).regs = s.regs := rfl
@[simp] theorem retire_ctxs (s : State) : (retire s).ctxs = s.ctxs := rfl
@[simp] theorem retire_cmdseq (s : State) : (retire s).cmdseq = s.cmdseq + 1 := rfl
@[simp] theorem retire_status (s : State) : (retire s).status = s.status := rfl
@[simp] theorem retire_faultcmd (s : State) : (retire s).faultcmd = s.faultcmd := rfl
@[simp] theorem retire_opmem (s : State) : (retire s).opmem = s.opmem := rfl
@[simp] theorem retire_pending (s : State) : (retire s).pending = s.pending := rfl
@[simp] theorem retire_reads (s : State) : (retire s).reads = s.reads := rfl

/-! ### takeFault -/

@[simp] theorem takeFault_params (cw : Word32) (e : ErrorKind) (s : State) : (takeFault cw e s).params = s.params := rfl
@[simp] theorem takeFault_regs (cw : Word32) (e : ErrorKind) (s : State) : (takeFault cw e s).regs = s.regs := rfl
@[simp] theorem takeFault_ctxs (cw : Word32) (e : ErrorKind) (s : State) : (takeFault cw e s).ctxs = s.ctxs := rfl
@[simp] theorem takeFault_cmdseq (cw : Word32) (e : ErrorKind) (s : State) : (takeFault cw e s).cmdseq = s.cmdseq := rfl
@[simp] theorem takeFault_status (cw : Word32) (e : ErrorKind) (s : State) : (takeFault cw e s).status = statusOf e := rfl
@[simp] theorem takeFault_faultcmd (cw : Word32) (e : ErrorKind) (s : State) : (takeFault cw e s).faultcmd = cw := rfl
@[simp] theorem takeFault_opmem (cw : Word32) (e : ErrorKind) (s : State) : (takeFault cw e s).opmem = s.opmem := rfl
@[simp] theorem takeFault_pending (cw : Word32) (e : ErrorKind) (s : State) : (takeFault cw e s).pending = s.pending := rfl
@[simp] theorem takeFault_reads (cw : Word32) (e : ErrorKind) (s : State) : (takeFault cw e s).reads = s.reads := rfl

/-! ### clearFault -/

@[simp] theorem clearFault_params (s : State) : (clearFault s).params = s.params := rfl
@[simp] theorem clearFault_regs (s : State) : (clearFault s).regs = s.regs := rfl
@[simp] theorem clearFault_ctxs (s : State) : (clearFault s).ctxs = s.ctxs := rfl
@[simp] theorem clearFault_cmdseq (s : State) : (clearFault s).cmdseq = s.cmdseq := rfl
@[simp] theorem clearFault_status (s : State) : (clearFault s).status = statusClear := rfl
@[simp] theorem clearFault_faultcmd (s : State) : (clearFault s).faultcmd = s.faultcmd := rfl
@[simp] theorem clearFault_opmem (s : State) : (clearFault s).opmem = s.opmem := rfl
@[simp] theorem clearFault_pending (s : State) : (clearFault s).pending = s.pending := rfl
@[simp] theorem clearFault_reads (s : State) : (clearFault s).reads = s.reads := rfl

/-! ### softReset -/

@[simp] theorem softReset_params (s : State) : (softReset s).params = s.params := rfl
@[simp] theorem softReset_regs (s : State) : (softReset s).regs = Vector.replicate 16 none := rfl
@[simp] theorem softReset_ctxs (s : State) : (softReset s).ctxs = Vector.replicate 4 none := rfl
@[simp] theorem softReset_cmdseq (s : State) : (softReset s).cmdseq = 0 := rfl
@[simp] theorem softReset_status (s : State) : (softReset s).status = 0 := rfl
@[simp] theorem softReset_faultcmd (s : State) : (softReset s).faultcmd = 0 := rfl
@[simp] theorem softReset_opmem (s : State) : (softReset s).opmem = s.opmem := rfl
@[simp] theorem softReset_pending (s : State) : (softReset s).pending = s.pending := rfl
@[simp] theorem softReset_reads (s : State) : (softReset s).reads = s.reads := rfl

/-! ### reply -/

@[simp] theorem reply_params (s : State) (v : Word32) : (reply s v).params = s.params := rfl
@[simp] theorem reply_regs (s : State) (v : Word32) : (reply s v).regs = s.regs := rfl
@[simp] theorem reply_ctxs (s : State) (v : Word32) : (reply s v).ctxs = s.ctxs := rfl
@[simp] theorem reply_cmdseq (s : State) (v : Word32) : (reply s v).cmdseq = s.cmdseq := rfl
@[simp] theorem reply_status (s : State) (v : Word32) : (reply s v).status = s.status := rfl
@[simp] theorem reply_faultcmd (s : State) (v : Word32) : (reply s v).faultcmd = s.faultcmd := rfl
@[simp] theorem reply_opmem (s : State) (v : Word32) : (reply s v).opmem = s.opmem := rfl
@[simp] theorem reply_pending (s : State) (v : Word32) : (reply s v).pending = s.pending := rfl
@[simp] theorem reply_reads (s : State) (v : Word32) : (reply s v).reads = v :: s.reads := rfl

/-! ### State.withFetchWord -/

@[simp] theorem State.withFetchWord_params (s : State) (nbits w : Nat) : (s.withFetchWord nbits w).params = s.params := rfl
@[simp] theorem State.withFetchWord_regs (s : State) (nbits w : Nat) : (s.withFetchWord nbits w).regs = s.regs := rfl
@[simp] theorem State.withFetchWord_ctxs (s : State) (nbits w : Nat) : (s.withFetchWord nbits w).ctxs = s.ctxs := rfl
@[simp] theorem State.withFetchWord_cmdseq (s : State) (nbits w : Nat) : (s.withFetchWord nbits w).cmdseq = s.cmdseq := rfl
@[simp] theorem State.withFetchWord_status (s : State) (nbits w : Nat) : (s.withFetchWord nbits w).status = s.status := rfl
@[simp] theorem State.withFetchWord_faultcmd (s : State) (nbits w : Nat) : (s.withFetchWord nbits w).faultcmd = s.faultcmd := rfl
@[simp] theorem State.withFetchWord_opmem (s : State) (nbits w : Nat) : (s.withFetchWord nbits w).opmem = s.opmem := rfl
@[simp] theorem State.withFetchWord_pending (s : State) (nbits w : Nat) : (s.withFetchWord nbits w).pending = issueAccess (BitVec.ofNat 32 (w % 2 ^ nbits)) :: s.pending := rfl
@[simp] theorem State.withFetchWord_reads (s : State) (nbits w : Nat) : (s.withFetchWord nbits w).reads = s.reads := rfl

/-! ### State.resetWith -/

@[simp] theorem State.resetWith_params (p : Params) (m : Memory) : (State.resetWith p m).params = p := rfl
@[simp] theorem State.resetWith_regs (p : Params) (m : Memory) : (State.resetWith p m).regs = Vector.replicate 16 none := rfl
@[simp] theorem State.resetWith_ctxs (p : Params) (m : Memory) : (State.resetWith p m).ctxs = Vector.replicate 4 none := rfl
@[simp] theorem State.resetWith_cmdseq (p : Params) (m : Memory) : (State.resetWith p m).cmdseq = 0 := rfl
@[simp] theorem State.resetWith_status (p : Params) (m : Memory) : (State.resetWith p m).status = 0 := rfl
@[simp] theorem State.resetWith_faultcmd (p : Params) (m : Memory) : (State.resetWith p m).faultcmd = 0 := rfl
@[simp] theorem State.resetWith_opmem (p : Params) (m : Memory) : (State.resetWith p m).opmem = m := rfl
@[simp] theorem State.resetWith_pending (p : Params) (m : Memory) : (State.resetWith p m).pending = [] := rfl
@[simp] theorem State.resetWith_reads (p : Params) (m : Memory) : (State.resetWith p m).reads = [] := rfl

/-! ### Reading a register after a write -/

theorem vector_get_set {α : Type} {n : Nat} (v : Vector α n) (i j : Fin n) (x : α) :
    (v.set i.val x i.isLt).get j = if i = j then x else v.get j := by
  simp [Vector.get_eq_getElem, Vector.getElem_set, Fin.ext_iff]

@[simp] theorem vector_get_replicate {α : Type} {n : Nat} (x : α) (j : Fin n) : (Vector.replicate n x).get j = x := by
  simp [Vector.get_eq_getElem]

theorem State.setReg_reg (s : State) (i j : RegIdx) (v : Int) :
    (s.setReg i v).reg j = if i = j then some v else s.reg j := vector_get_set s.regs i j (some v)

@[simp] theorem State.setReg_reg_self (s : State) (i : RegIdx) (v : Int) : (s.setReg i v).reg i = some v := by
  rw [State.setReg_reg, if_pos rfl]

theorem State.setReg_reg_other {i j : RegIdx} (s : State) (v : Int) (h : i ≠ j) : (s.setReg i v).reg j = s.reg j := by
  rw [State.setReg_reg, if_neg h]

@[simp] theorem State.setReg_ctx (s : State) (i : RegIdx) (v : Int) (k : CtxIdx) : (s.setReg i v).ctx k = s.ctx k := rfl

theorem State.setCtx_ctx (s : State) (i j : CtxIdx) (c : Option Context) :
    (s.setCtx i c).ctx j = if i = j then c else s.ctx j := vector_get_set s.ctxs i j c

@[simp] theorem State.setCtx_ctx_self (s : State) (i : CtxIdx) (c : Option Context) : (s.setCtx i c).ctx i = c := by
  rw [State.setCtx_ctx, if_pos rfl]

theorem State.setCtx_ctx_other {i j : CtxIdx} (s : State) (c : Option Context) (h : i ≠ j) :
    (s.setCtx i c).ctx j = s.ctx j := by
  rw [State.setCtx_ctx, if_neg h]

@[simp] theorem State.setCtx_reg (s : State) (k : CtxIdx) (c : Option Context) (i : RegIdx) : (s.setCtx k c).reg i = s.reg i := rfl

@[simp] theorem State.resetWith_reg (p : Params) (m : Memory) (i : RegIdx) : (State.resetWith p m).reg i = none := by
  simp [State.reg]

@[simp] theorem State.resetWith_ctx (p : Params) (m : Memory) (k : CtxIdx) : (State.resetWith p m).ctx k = none := by
  simp [State.ctx]

/-! ### STATUS after an update (10_state.md R32, R36, 60_exceptions.md R204) -/

theorem statusOf_toNat (e : ErrorKind) : (statusOf e).toNat = 16 + e.code := by
  cases e <;> rfl

theorem ErrorKind.code_pos (e : ErrorKind) : 1 ≤ e.code := by
  cases e <;> decide

theorem ErrorKind.code_le (e : ErrorKind) : e.code ≤ 9 := by
  cases e <;> decide

theorem ErrorKind.code_injective {e f : ErrorKind} (h : e.code = f.code) : e = f := by
  revert h
  cases e <;> cases f <;> decide

@[simp] theorem takeFault_halted (cw : Word32) (e : ErrorKind) (s : State) : (takeFault cw e s).halted = true := by
  have := e.code_le
  simp only [State.halted, takeFault_status, statusOf_toNat, decide_eq_true_eq]
  omega

@[simp] theorem takeFault_err (cw : Word32) (e : ErrorKind) (s : State) : (takeFault cw e s).err = e.code := by
  have := e.code_le
  simp only [State.err, takeFault_status, statusOf_toNat]
  omega

@[simp] theorem clearFault_halted (s : State) : (clearFault s).halted = false := by
  simp [State.halted, statusClear]

@[simp] theorem clearFault_err (s : State) : (clearFault s).err = 0 := by
  simp [State.err, statusClear]

@[simp] theorem softReset_halted (s : State) : (softReset s).halted = false := by
  simp [State.halted]

theorem takeFault_statusLegal (cw : Word32) (e : ErrorKind) (s : State) : (takeFault cw e s).statusLegal := by
  have h := e.code_le
  have h' := e.code_pos
  refine ⟨?_, ?_, by simpa using h⟩
  · rw [takeFault_status, statusOf_toNat]
    omega
  · rw [takeFault_halted, takeFault_err]
    simp
    omega

theorem statusLegal_of_status_zero {s : State} (h : s.status = 0) : s.statusLegal := by
  simp [State.statusLegal, State.halted, State.err, h]

theorem statusLegal_of_status_eq {s t : State} (h : t.status = s.status) (hs : s.statusLegal) : t.statusLegal := by
  simpa [State.statusLegal, State.halted, State.err, h] using hs

end Sys2Proof.Machine
end

