-- ==== Sys2Proof/Laws/Ops.lean ====
section
/-! SUPPORT. One lemma per shared operation, saying once everything it can do; the meanings of the commands are unfolded to
these operations and no further. -/

namespace Sys2Proof.Machine

/-! ### Sequencing of checks (30_encoding.md R96) -/

theorem bind_ok_iff {α β : Type} (x : Except ErrorKind α) (f : α → Except ErrorKind β) (b : β) :
    (x >>= f) = .ok b ↔ ∃ a, x = .ok a ∧ f a = .ok b := by
  cases x with
  | ok a => simp [bind, Except.bind]
  | error e => simp [bind, Except.bind]

theorem bind_error_iff {α β : Type} (x : Except ErrorKind α) (f : α → Except ErrorKind β) (e : ErrorKind) :
    (x >>= f) = .error e ↔ x = .error e ∨ ∃ a, x = .ok a ∧ f a = .error e := by
  cases x with
  | ok a => simp [bind, Except.bind]
  | error e => simp [bind, Except.bind]

@[simp] theorem ok_bind {α β : Type} (a : α) (f : α → Except ErrorKind β) : (Except.ok a >>= f) = f a := rfl

@[simp] theorem error_bind {α β : Type} (e : ErrorKind) (f : α → Except ErrorKind β) :
    ((Except.error e : Except ErrorKind α) >>= f) = .error e := rfl

/-! ### The end of a command -/

@[simp] theorem complete_ok (cw : Word32) (s t : State) : complete cw s (.ok t) = .next (retire t) := rfl

@[simp] theorem complete_error (cw : Word32) (s : State) (e : ErrorKind) :
    complete cw s (.error e) = .next (takeFault cw e s) := rfl

/-- A command retires in the state its writes give, or faults having written nothing. -/
theorem complete_cases (cw : Word32) (s : State) (r : Except ErrorKind State) :
    (∃ u, r = .ok u ∧ complete cw s r = .next (retire u)) ∨
      ∃ e, r = .error e ∧ complete cw s r = .next (takeFault cw e s) := by
  cases r with
  | ok u => exact .inl ⟨u, rfl, rfl⟩
  | error e => exact .inr ⟨e, rfl, rfl⟩

theorem complete_next_iff (cw : Word32) (s : State) (r : Except ErrorKind State) (t : State) :
    complete cw s r = .next t ↔
      (∃ u, r = .ok u ∧ t = retire u) ∨ ∃ e, r = .error e ∧ t = takeFault cw e s := by
  cases r with
  | ok u => simp [eq_comm]
  | error e => simp [eq_comm]

/-! ### Sources -/

theorem readReg_some {s : State} {i : RegIdx} {v : Int} (h : s.reg i = some v) : readReg s i = .ok v := by
  simp [readReg, h]

theorem readReg_none {s : State} {i : RegIdx} (h : s.reg i = none) : readReg s i = .error .invalidOperand := by
  simp [readReg, h]

theorem readReg_ok_iff (s : State) (i : RegIdx) (v : Int) : readReg s i = .ok v ↔ s.reg i = some v := by
  cases h : s.reg i <;> simp [readReg, h]

theorem readReg_error_iff (s : State) (i : RegIdx) (e : ErrorKind) :
    readReg s i = .error e ↔ s.reg i = none ∧ e = .invalidOperand := by
  cases h : s.reg i <;> simp [readReg, h, eq_comm]

theorem readCtx_some {s : State} {k : CtxIdx} {c : Context} (h : s.ctx k = some c) : readCtx s k = .ok c := by
  simp [readCtx, h]

theorem readCtx_none {s : State} {k : CtxIdx} (h : s.ctx k = none) : readCtx s k = .error .invalidOperand := by
  simp [readCtx, h]

theorem readCtx_ok_iff (s : State) (k : CtxIdx) (c : Context) : readCtx s k = .ok c ↔ s.ctx k = some c := by
  cases h : s.ctx k <;> simp [readCtx, h]

theorem readCtx_error_iff (s : State) (k : CtxIdx) (e : ErrorKind) :
    readCtx s k = .error e ↔ s.ctx k = none ∧ e = .invalidOperand := by
  cases h : s.ctx k <;> simp [readCtx, h, eq_comm]

theorem residue_ok_iff (v n u : Int) : residue v n = .ok u ↔ (0 ≤ v ∧ v < n) ∧ u = v := by
  unfold residue
  split_ifs with h
  · simp
    omega
  · simp only [Except.ok.injEq]
    omega

theorem residue_error_iff (v n : Int) (e : ErrorKind) :
    residue v n = .error e ↔ (v < 0 ∨ n ≤ v) ∧ e = .contractViolation := by
  unfold residue
  split_ifs with h <;> simp [h, eq_comm]

theorem unlessZero_ok_iff (b v u : Int) : unlessZero b v = .ok u ↔ b ≠ 0 ∧ u = v := by
  unfold unlessZero
  split_ifs with h <;> simp [h, eq_comm]

theorem unlessZero_error_iff (b v : Int) (e : ErrorKind) : unlessZero b v = .error e ↔ b = 0 ∧ e = .divisionByZero := by
  unfold unlessZero
  split_ifs with h <;> simp [h, eq_comm]

/-! ### Destinations -/

theorem writeReg_fits {s : State} {v : Int} (i : RegIdx) (h : fits s.params v = true) :
    writeReg s i v = .ok (s.setReg i v) := by
  simp [writeReg, h]

theorem writeReg_ok_iff (s : State) (i : RegIdx) (v : Int) (t : State) :
    writeReg s i v = .ok t ↔ fits s.params v = true ∧ t = s.setReg i v := by
  unfold writeReg
  split_ifs with h <;> simp [h, eq_comm]

theorem writeReg_error_iff (s : State) (i : RegIdx) (v : Int) (e : ErrorKind) :
    writeReg s i v = .error e ↔ fits s.params v = false ∧ e = .capacityExceeded := by
  unfold writeReg
  split_ifs with h <;> simp [h, eq_comm]

theorem writeRegs3_ok_iff (s : State) (i j k : RegIdx) (u v w : Int) (t : State) :
    writeRegs3 s i j k u v w = .ok t ↔
      (fits s.params u = true ∧ fits s.params v = true ∧ fits s.params w = true) ∧
        t = ((s.setReg i u).setReg j v).setReg k w := by
  unfold writeRegs3
  split_ifs with h
  · simp only [Bool.and_eq_true] at h
    simp [h, eq_comm]
  · simp only [Bool.and_eq_true] at h
    simp only [false_iff]
    tauto

theorem writeRegs3_error_iff (s : State) (i j k : RegIdx) (u v w : Int) (e : ErrorKind) :
    writeRegs3 s i j k u v w = .error e ↔
      ¬(fits s.params u = true ∧ fits s.params v = true ∧ fits s.params w = true) ∧ e = .capacityExceeded := by
  unfold writeRegs3
  split_ifs with h
  · simp only [Bool.and_eq_true] at h
    simp only [false_iff]
    tauto
  · simp only [Bool.and_eq_true] at h
    rw [Except.error.injEq, eq_comm]
    tauto

/-! ### OPMEM -/

theorem memRead_ok_iff (s : State) (a n v : Nat) :
    memRead s a n = .ok v ↔ a + n ≤ s.params.memBytes ∧ v = Memory.readLE s.opmem a n := by
  unfold memRead
  split_ifs with h
  · simp
    omega
  · simp only [Except.ok.injEq, eq_comm]
    constructor
    · exact fun h' => ⟨by omega, h'⟩
    · exact fun h' => h'.2

theorem memRead_error_iff (s : State) (a n : Nat) (e : ErrorKind) :
    memRead s a n = .error e ↔ s.params.memBytes < a + n ∧ e = .memoryFault := by
  unfold memRead
  split_ifs with h <;> simp [h, eq_comm]

theorem memWrite_ok_iff (s : State) (a n v : Nat) (t : State) :
    memWrite s a n v = .ok t ↔
      a + n ≤ s.params.memBytes ∧ t = { s with opmem := Memory.writeLE s.opmem a n v } := by
  unfold memWrite
  split_ifs with h
  · simp
    omega
  · simp only [Except.ok.injEq, eq_comm]
    constructor
    · exact fun h' => ⟨by omega, h'⟩
    · exact fun h' => h'.2

theorem memWrite_error_iff (s : State) (a n v : Nat) (e : ErrorKind) :
    memWrite s a n v = .error e ↔ s.params.memBytes < a + n ∧ e = .memoryFault := by
  unfold memWrite
  split_ifs with h <;> simp [h, eq_comm]

theorem wordAt_lt (s : State) (i : Nat) : wordAt s i < 2 ^ s.params.w := by
  rw [s.params.w_eq]
  exact Memory.readLE_lt _ _ _

/-- The magnitude words as the sum of 10_state.md R21. -/
theorem magnitudeAt_eq_sum (s : State) (i k : Nat) :
    magnitudeAt s i k = ∑ j ∈ Finset.range k, wordAt s (i + j) * 2 ^ (j * s.params.w) := by
  induction k generalizing i with
  | zero => rfl
  | succ k ih =>
    rw [magnitudeAt, ih, Finset.sum_range_succ', Finset.mul_sum, Nat.zero_mul, Nat.pow_zero, Nat.mul_one, Nat.add_zero,
      Nat.add_comm]
    congr 1
    refine Finset.sum_congr rfl fun j _ => ?_
    rw [show i + 1 + j = i + (j + 1) by omega, show (j + 1) * s.params.w = s.params.w + j * s.params.w by ring, Nat.pow_add]
    ac_rfl

theorem magnitudeAt_lt (s : State) (i k : Nat) : magnitudeAt s i k < 2 ^ (k * s.params.w) := by
  induction k generalizing i with
  | zero => simp [magnitudeAt]
  | succ k ih =>
    have h1 := wordAt_lt s i
    have h2 := ih (i + 1)
    rw [magnitudeAt, show (k + 1) * s.params.w = s.params.w + k * s.params.w by ring, Nat.pow_add]
    calc wordAt s i + 2 ^ s.params.w * magnitudeAt s (i + 1) k
        < 2 ^ s.params.w + 2 ^ s.params.w * magnitudeAt s (i + 1) k := by omega
      _ = 2 ^ s.params.w * (magnitudeAt s (i + 1) k + 1) := by ring
      _ ≤ 2 ^ s.params.w * 2 ^ (k * s.params.w) := Nat.mul_le_mul_left _ h2

/-- The most significant word of a magnitude bounds it from below. -/
theorem le_magnitudeAt {s : State} {i k : Nat} (h : wordAt s (i + k) ≠ 0) :
    2 ^ (k * s.params.w) ≤ magnitudeAt s i (k + 1) := by
  rw [magnitudeAt_eq_sum, Finset.sum_range_succ]
  exact Nat.le_trans (Nat.le_mul_of_pos_left _ (Nat.pos_of_ne_zero h)) (Nat.le_add_left _ _)

/-- An image read twice from memories that agree on its words is the same value. -/
theorem magnitudeAt_congr {s t : State} {i k : Nat} (hp : t.params = s.params)
    (h : ∀ j < k, wordAt t (i + j) = wordAt s (i + j)) : magnitudeAt t i k = magnitudeAt s i k := by
  rw [magnitudeAt_eq_sum, magnitudeAt_eq_sum]
  refine Finset.sum_congr rfl fun j hj => ?_
  rw [h j (Finset.mem_range.1 hj), hp]

/-- The value of an image from its sign bit and its magnitude (40_data_movement.md R112). -/
def imageValue (s : State) (a : Nat) : Int :=
  if wordAt s a / 2 ^ (s.params.w - 1) % 2 = 1 then -(magnitudeAt s (a + 1) (wordAt s a % 2 ^ (s.params.w - 1)) : Int)
  else (magnitudeAt s (a + 1) (wordAt s a % 2 ^ (s.params.w - 1)) : Int)

/-- The words at `a` are not the canonical form (20_memory.md R56). -/
abbrev imageMalformed (s : State) (a : Nat) : Prop :=
  (wordAt s a % 2 ^ (s.params.w - 1) = 0 ∧ wordAt s a / 2 ^ (s.params.w - 1) % 2 = 1) ∨
    (0 < wordAt s a % 2 ^ (s.params.w - 1) ∧ wordAt s (a + wordAt s a % 2 ^ (s.params.w - 1)) = 0)

/-- Everything a load can do, in the order of its checks. -/
theorem loadImage_eq (s : State) (a : Nat) :
    loadImage s a =
      if s.params.memBytes < (a + 1) * s.params.wb then .error .memoryFault
      else if s.params.memBytes < imageEnd s.params a (wordAt s a % 2 ^ (s.params.w - 1)) then .error .memoryFault
      else if imageMalformed s a then .error .badFormat
      else .ok (imageValue s a) := by
  have hadd : wordAddress s.params a + s.params.wb = (a + 1) * s.params.wb := by
    rw [wordAddress, Nat.add_mul, Nat.one_mul]
  unfold loadImage memRead
  rw [hadd]
  by_cases h1 : s.params.memBytes < (a + 1) * s.params.wb
  · rw [if_pos h1, if_pos h1]
  · rw [if_neg h1, if_neg h1]
    change (if _ then _ else _) = _
    rw [show Memory.readLE s.opmem (wordAddress s.params a) s.params.wb = wordAt s a from rfl]
    by_cases h2 : s.params.memBytes < imageEnd s.params a (wordAt s a % 2 ^ (s.params.w - 1))
    · rw [if_pos h2, if_pos h2]
    · rw [if_neg h2, if_neg h2]
      unfold imageMalformed imageValue
      split_ifs <;> first | rfl | (exfalso; tauto)

theorem storeImage_ok_iff (s : State) (a : Nat) (v : Int) (t : State) :
    storeImage s a v = .ok t ↔
      imageEnd s.params a (nwords s.params.w v) ≤ s.params.memBytes ∧
        t = { s with opmem := writeWords s.params s.opmem a (imageWords s.params v) } := by
  unfold storeImage
  split_ifs with h
  · simp
    omega
  · simp only [Except.ok.injEq, eq_comm]
    constructor
    · exact fun h' => ⟨by omega, h'⟩
    · exact fun h' => h'.2

theorem storeImage_error_iff (s : State) (a : Nat) (v : Int) (e : ErrorKind) :
    storeImage s a v = .error e ↔
      s.params.memBytes < imageEnd s.params a (nwords s.params.w v) ∧ e = .memoryFault := by
  unfold storeImage
  split_ifs with h <;> simp [h, eq_comm]

theorem imageWords_length (p : Params) (v : Int) : (imageWords p v).length = nwords p.w v + 1 := by
  simp [imageWords]

/-- Every word of the image of a value whose word count fits the header is a W-bit word (20_memory.md R55). -/
theorem imageWords_lt {p : Params} {v : Int} (h : nwords p.w v < 2 ^ (p.w - 1)) {x : Nat} (hx : x ∈ imageWords p v) :
    x < 2 ^ p.w := by
  have hp := p.w_pos
  rcases List.mem_cons.1 hx with rfl | hx
  · have h2 : 2 ^ p.w = 2 ^ (p.w - 1) + 2 ^ (p.w - 1) := by
      rw [← Nat.two_mul, ← Nat.pow_succ']
      congr 1
      omega
    unfold sgn
    split_ifs <;> omega
  · obtain ⟨i, -, rfl⟩ := List.mem_map.1 hx
    exact word_lt _ _ _

end Sys2Proof.Machine
end

