-- ==== Sys2Proof/Laws/PerInstr.lean ====
section
/-! SUPPORT. Statements for every command, one lemma per constructor. -/

namespace Sys2Proof.Laws.EncodeMatchesRow

/-- The word of the command matches the command's own row of the opcode map (30_encoding.md R89). -/
def Statement (i : Instr) : Prop := i.row.accepts (encode i) = true

theorem nop : Statement .nop := by
  unfold Statement
  decide

theorem li (rd : RegIdx) (imm20 : BitVec 20) : Statement (.li rd imm20) := by
  refine decide_eq_true ((and_mask_eq_iff (mask := 0xFF000000) (pattern := 0x01000000) [(31, 24)] (by decide) (by decide) (by decide) _).2 ?_)
  simp only [List.forall_mem_cons, List.not_mem_nil, false_implies, implies_true, and_true, encode]
  simp (disch := omega) only [bits_formatI]
  simp only [bits, BitVec.reduceToNat]
  omega

theorem ld (rd : RegIdx) (imm20 : BitVec 20) : Statement (.ld rd imm20) := by
  refine decide_eq_true ((and_mask_eq_iff (mask := 0xFF000000) (pattern := 0x02000000) [(31, 24)] (by decide) (by decide) (by decide) _).2 ?_)
  simp only [List.forall_mem_cons, List.not_mem_nil, false_implies, implies_true, and_true, encode]
  simp (disch := omega) only [bits_formatI]
  simp only [bits, BitVec.reduceToNat]
  omega

theorem st (rs : RegIdx) (imm20 : BitVec 20) : Statement (.st rs imm20) := by
  refine decide_eq_true ((and_mask_eq_iff (mask := 0xFF000000) (pattern := 0x03000000) [(31, 24)] (by decide) (by decide) (by decide) _).2 ?_)
  simp only [List.forall_mem_cons, List.not_mem_nil, false_implies, implies_true, and_true, encode]
  simp (disch := omega) only [bits_formatI]
  simp only [bits, BitVec.reduceToNat]
  omega

theorem add (rd : RegIdx) (ra : RegIdx) (rb : RegIdx) : Statement (.add rd ra rb) := by
  refine decide_eq_true ((and_mask_eq_iff (mask := 0xFF000FFF) (pattern := 0x10000000) [(31, 24), (11, 0)] (by decide) (by decide) (by decide) _).2 ?_)
  simp only [List.forall_mem_cons, List.not_mem_nil, false_implies, implies_true, and_true, encode]
  simp (disch := omega) only [bits_formatR]
  simp only [bits, BitVec.reduceToNat]
  omega

theorem sub (rd : RegIdx) (ra : RegIdx) (rb : RegIdx) : Statement (.sub rd ra rb) := by
  refine decide_eq_true ((and_mask_eq_iff (mask := 0xFF000FFF) (pattern := 0x11000000) [(31, 24), (11, 0)] (by decide) (by decide) (by decide) _).2 ?_)
  simp only [List.forall_mem_cons, List.not_mem_nil, false_implies, implies_true, and_true, encode]
  simp (disch := omega) only [bits_formatR]
  simp only [bits, BitVec.reduceToNat]
  omega

theorem mul (rd : RegIdx) (ra : RegIdx) (rb : RegIdx) : Statement (.mul rd ra rb) := by
  refine decide_eq_true ((and_mask_eq_iff (mask := 0xFF000FFF) (pattern := 0x12000000) [(31, 24), (11, 0)] (by decide) (by decide) (by decide) _).2 ?_)
  simp only [List.forall_mem_cons, List.not_mem_nil, false_implies, implies_true, and_true, encode]
  simp (disch := omega) only [bits_formatR]
  simp only [bits, BitVec.reduceToNat]
  omega

theorem sqr (rd : RegIdx) (ra : RegIdx) : Statement (.sqr rd ra) := by
  refine decide_eq_true ((and_mask_eq_iff (mask := 0xFF00FFFF) (pattern := 0x13000000) [(31, 24), (15, 0)] (by decide) (by decide) (by decide) _).2 ?_)
  simp only [List.forall_mem_cons, List.not_mem_nil, false_implies, implies_true, and_true, encode]
  simp (disch := omega) only [bits_formatR]
  simp only [bits, BitVec.reduceToNat]
  omega

theorem div (rd : RegIdx) (ra : RegIdx) (rb : RegIdx) : Statement (.div rd ra rb) := by
  refine decide_eq_true ((and_mask_eq_iff (mask := 0xFF000FFF) (pattern := 0x14000000) [(31, 24), (11, 0)] (by decide) (by decide) (by decide) _).2 ?_)
  simp only [List.forall_mem_cons, List.not_mem_nil, false_implies, implies_true, and_true, encode]
  simp (disch := omega) only [bits_formatR]
  simp only [bits, BitVec.reduceToNat]
  omega

theorem mod (rd : RegIdx) (ra : RegIdx) (rb : RegIdx) : Statement (.mod rd ra rb) := by
  refine decide_eq_true ((and_mask_eq_iff (mask := 0xFF000FFF) (pattern := 0x15000000) [(31, 24), (11, 0)] (by decide) (by decide) (by decide) _).2 ?_)
  simp only [List.forall_mem_cons, List.not_mem_nil, false_implies, implies_true, and_true, encode]
  simp (disch := omega) only [bits_formatR]
  simp only [bits, BitVec.reduceToNat]
  omega

theorem shl (rd : RegIdx) (ra : RegIdx) (imm16 : BitVec 16) : Statement (.shl rd ra imm16) := by
  refine decide_eq_true ((and_mask_eq_iff (mask := 0xFF000000) (pattern := 0x16000000) [(31, 24)] (by decide) (by decide) (by decide) _).2 ?_)
  simp only [List.forall_mem_cons, List.not_mem_nil, false_implies, implies_true, and_true, encode]
  simp (disch := omega) only [bits_formatS]
  simp only [bits, BitVec.reduceToNat]
  omega

theorem shr (rd : RegIdx) (ra : RegIdx) (imm16 : BitVec 16) : Statement (.shr rd ra imm16) := by
  refine decide_eq_true ((and_mask_eq_iff (mask := 0xFF000000) (pattern := 0x17000000) [(31, 24)] (by decide) (by decide) (by decide) _).2 ?_)
  simp only [List.forall_mem_cons, List.not_mem_nil, false_implies, implies_true, and_true, encode]
  simp (disch := omega) only [bits_formatS]
  simp only [bits, BitVec.reduceToNat]
  omega

theorem modmul (rd : RegIdx) (ra : RegIdx) (rb : RegIdx) (rm : RegIdx) : Statement (.modmul rd ra rb rm) := by
  refine decide_eq_true ((and_mask_eq_iff (mask := 0xFF0000FF) (pattern := 0x18000000) [(31, 24), (7, 0)] (by decide) (by decide) (by decide) _).2 ?_)
  simp only [List.forall_mem_cons, List.not_mem_nil, false_implies, implies_true, and_true, encode]
  simp (disch := omega) only [bits_formatR]
  simp only [bits, BitVec.reduceToNat]
  omega

theorem egcd (rg : RegIdx) (rp : RegIdx) (rq : RegIdx) (rx : RegIdx) (ry : RegIdx) : Statement (.egcd rg rp rq rx ry) := by
  refine decide_eq_true ((and_mask_eq_iff (mask := 0xFF00000F) (pattern := 0x20000000) [(31, 24), (3, 0)] (by decide) (by decide) (by decide) _).2 ?_)
  simp only [List.forall_mem_cons, List.not_mem_nil, false_implies, implies_true, and_true, encode]
  simp (disch := omega) only [bits_formatR]
  simp only [bits, BitVec.reduceToNat]
  omega

theorem ctxsetup (cd : CtxIdx) (rn : RegIdx) : Statement (.ctxsetup cd rn) := by
  refine decide_eq_true ((and_mask_eq_iff (mask := 0xFFC0FFFF) (pattern := 0x21000000) [(31, 22), (15, 0)] (by decide) (by decide) (by decide) _).2 ?_)
  simp only [List.forall_mem_cons, List.not_mem_nil, false_implies, implies_true, and_true, encode]
  simp (disch := omega) only [bits_formatR]
  simp only [bits, BitVec.reduceToNat]
  omega

theorem ctxgetN (rd : RegIdx) (cs : CtxIdx) : Statement (.ctxgetN rd cs) := by
  refine decide_eq_true ((and_mask_eq_iff (mask := 0xFF0CFFFF) (pattern := 0x22000000) [(31, 24), (19, 18), (15, 0)] (by decide) (by decide) (by decide) _).2 ?_)
  simp only [List.forall_mem_cons, List.not_mem_nil, false_implies, implies_true, and_true, encode]
  simp (disch := omega) only [bits_formatR]
  simp only [bits, BitVec.reduceToNat]
  omega

theorem ctxgetNwords (rd : RegIdx) (cs : CtxIdx) : Statement (.ctxgetNwords rd cs) := by
  refine decide_eq_true ((and_mask_eq_iff (mask := 0xFF0CFFFF) (pattern := 0x22001000) [(31, 24), (19, 18), (15, 0)] (by decide) (by decide) (by decide) _).2 ?_)
  simp only [List.forall_mem_cons, List.not_mem_nil, false_implies, implies_true, and_true, encode]
  simp (disch := omega) only [bits_formatR]
  simp only [bits, BitVec.reduceToNat]
  omega

theorem ctxgetR (rd : RegIdx) (cs : CtxIdx) : Statement (.ctxgetR rd cs) := by
  refine decide_eq_true ((and_mask_eq_iff (mask := 0xFF0CFFFF) (pattern := 0x22002000) [(31, 24), (19, 18), (15, 0)] (by decide) (by decide) (by decide) _).2 ?_)
  simp only [List.forall_mem_cons, List.not_mem_nil, false_implies, implies_true, and_true, encode]
  simp (disch := omega) only [bits_formatR]
  simp only [bits, BitVec.reduceToNat]
  omega

theorem ctxgetRmodn (rd : RegIdx) (cs : CtxIdx) : Statement (.ctxgetRmodn rd cs) := by
  refine decide_eq_true ((and_mask_eq_iff (mask := 0xFF0CFFFF) (pattern := 0x22003000) [(31, 24), (19, 18), (15, 0)] (by decide) (by decide) (by decide) _).2 ?_)
  simp only [List.forall_mem_cons, List.not_mem_nil, false_implies, implies_true, and_true, encode]
  simp (disch := omega) only [bits_formatR]
  simp only [bits, BitVec.reduceToNat]
  omega

theorem ctxgetR2modn (rd : RegIdx) (cs : CtxIdx) : Statement (.ctxgetR2modn rd cs) := by
  refine decide_eq_true ((and_mask_eq_iff (mask := 0xFF0CFFFF) (pattern := 0x22004000) [(31, 24), (19, 18), (15, 0)] (by decide) (by decide) (by decide) _).2 ?_)
  simp only [List.forall_mem_cons, List.not_mem_nil, false_implies, implies_true, and_true, encode]
  simp (disch := omega) only [bits_formatR]
  simp only [bits, BitVec.reduceToNat]
  omega

theorem ctxgetNinv (rd : RegIdx) (cs : CtxIdx) : Statement (.ctxgetNinv rd cs) := by
  refine decide_eq_true ((and_mask_eq_iff (mask := 0xFF0CFFFF) (pattern := 0x22005000) [(31, 24), (19, 18), (15, 0)] (by decide) (by decide) (by decide) _).2 ?_)
  simp only [List.forall_mem_cons, List.not_mem_nil, false_implies, implies_true, and_true, encode]
  simp (disch := omega) only [bits_formatR]
  simp only [bits, BitVec.reduceToNat]
  omega

theorem ctxclr (cd : CtxIdx) : Statement (.ctxclr cd) := by
  refine decide_eq_true ((and_mask_eq_iff (mask := 0xFFCFFFFF) (pattern := 0x23000000) [(31, 22), (19, 0)] (by decide) (by decide) (by decide) _).2 ?_)
  simp only [List.forall_mem_cons, List.not_mem_nil, false_implies, implies_true, and_true, encode]
  simp (disch := omega) only [bits_formatR]
  simp only [bits, BitVec.reduceToNat]
  omega

theorem montmul (rd : RegIdx) (rx : RegIdx) (ry : RegIdx) (cs : CtxIdx) : Statement (.montmul rd rx ry cs) := by
  refine decide_eq_true ((and_mask_eq_iff (mask := 0xFF000CFF) (pattern := 0x24000000) [(31, 24), (11, 10), (7, 0)] (by decide) (by decide) (by decide) _).2 ?_)
  simp only [List.forall_mem_cons, List.not_mem_nil, false_implies, implies_true, and_true, encode]
  simp (disch := omega) only [bits_formatR]
  simp only [bits, BitVec.reduceToNat]
  omega

theorem tomont (rd : RegIdx) (ra : RegIdx) (cs : CtxIdx) : Statement (.tomont rd ra cs) := by
  refine decide_eq_true ((and_mask_eq_iff (mask := 0xFF00CFFF) (pattern := 0x25000000) [(31, 24), (15, 14), (11, 0)] (by decide) (by decide) (by decide) _).2 ?_)
  simp only [List.forall_mem_cons, List.not_mem_nil, false_implies, implies_true, and_true, encode]
  simp (disch := omega) only [bits_formatR]
  simp only [bits, BitVec.reduceToNat]
  omega

theorem frommont (rd : RegIdx) (ra : RegIdx) (cs : CtxIdx) : Statement (.frommont rd ra cs) := by
  refine decide_eq_true ((and_mask_eq_iff (mask := 0xFF00CFFF) (pattern := 0x26000000) [(31, 24), (15, 14), (11, 0)] (by decide) (by decide) (by decide) _).2 ?_)
  simp only [List.forall_mem_cons, List.not_mem_nil, false_implies, implies_true, and_true, encode]
  simp (disch := omega) only [bits_formatR]
  simp only [bits, BitVec.reduceToNat]
  omega

theorem modexp (rd : RegIdx) (rm : RegIdx) (re : RegIdx) (rn : RegIdx) : Statement (.modexp rd rm re rn) := by
  refine decide_eq_true ((and_mask_eq_iff (mask := 0xFF0000FF) (pattern := 0x27000000) [(31, 24), (7, 0)] (by decide) (by decide) (by decide) _).2 ?_)
  simp only [List.forall_mem_cons, List.not_mem_nil, false_implies, implies_true, and_true, encode]
  simp (disch := omega) only [bits_formatR]
  simp only [bits, BitVec.reduceToNat]
  omega

end Sys2Proof.Laws.EncodeMatchesRow
end

