-- ==== Sys2Proof/Laws/Step.lean ====
section
/-! SUPPORT. What a step can do, said once per kind of host access. -/

namespace Sys2Proof.Machine

/-- With no access pending the machine stays as it is. -/
theorem step_idle {s : State} (h : s.pending = []) : step s = .next s := by
  simp [step, hostStep, h]

/-- A step performs the oldest pending access, on the state without it. -/
theorem step_access {s : State} {a : HostAccess} {rest : List HostAccess} (h : s.pending = a :: rest) :
    step s = hostAccess a { s with pending := rest } := by
  simp [step, hostStep, h]

theorem issue_halted {s : State} (cw : Word32) (h : s.halted = true) : issue cw s = .next s := by
  simp [issue, h]

theorem issue_decoded {s : State} {cw : Word32} {i : Instr} (h : s.halted = false) (hd : decode cw = .ok i) :
    issue cw s = exec i s := by
  simp [issue, h, hd]

theorem issue_illegal {s : State} {cw : Word32} {d : DecodeError} (h : s.halted = false) (hd : decode cw = .error d) :
    issue cw s = .next (takeFault cw .illegalCommand s) := by
  simp [issue, h, hd]

theorem hostAccess_issue (cw : Word32) (s : State) : hostAccess (issueAccess cw) s = issue cw s := by
  simp [hostAccess, issueAccess, hostWrite]

/-- The aligned offsets below 0x020 are the registers of the map (20_memory.md R51). -/
theorem registerValue_isSome {s : State} {off : Nat} (h4 : off % 4 = 0) (h : off < 0x020) :
    ∃ v, registerValue s off = some v := by
  have : off = 0 ∨ off = 4 ∨ off = 8 ∨ off = 12 ∨ off = 16 ∨ off = 20 ∨ off = 24 ∨ off = 28 := by omega
  rcases this with rfl | rfl | rfl | rfl | rfl | rfl | rfl | rfl <;> exact ⟨_, rfl⟩

theorem registerValue_none {s : State} {off : Nat} (h : 0x020 ≤ off) : registerValue s off = none := by
  unfold registerValue
  split <;> first | omega | rfl

/-- A host read that has a step changes nothing but the values returned. -/
theorem hostRead_next {off : Nat} {s t : State} (h : hostRead off s = .next t) : ∃ v, t = reply s v := by
  unfold hostRead at h
  split_ifs at h
  · split at h
    · rename_i v _
      exact ⟨v, by simpa using h.symm⟩
    · exact absurd h (by simp)
  · split at h
    · rename_i v _
      exact ⟨BitVec.ofNat 32 v, by simpa using h.symm⟩
    · exact absurd h (by simp)

/-- A write of `CTRL` resets, clears the fault, or does nothing (10_state.md R36). -/
theorem writeCtrl_next {v : Word32} {s t : State} (h : writeCtrl v s = .next t) :
    t = softReset s ∨ t = clearFault s ∨ t = s := by
  unfold writeCtrl at h
  split_ifs at h
  · exact .inl (by simpa using h.symm)
  · exact .inr (.inl (by simpa using h.symm))
  · exact .inr (.inr (by simpa using h.symm))

/-- A host write that has a step issues a command, writes `CTRL`, or stores four bytes of OPMEM. -/
theorem hostWrite_next {off : Nat} {v : Word32} {s t : State} (h : hostWrite off v s = .next t) :
    (off = 0x004 ∧ issue v s = .next t) ∨ (off = 0x00C ∧ writeCtrl v s = .next t) ∨
      (imageBase ≤ off ∧ off - imageBase + 4 ≤ s.params.memBytes ∧
        t = { s with opmem := Memory.writeLE s.opmem (off - imageBase) 4 v.toNat }) := by
  unfold hostWrite at h
  split_ifs at h with h1 h2 h3 h4 h5
  · exact .inl ⟨h2, h⟩
  · exact .inr (.inl ⟨h3, h⟩)
  · split at h
    · rename_i u hu
      obtain ⟨hle, rfl⟩ := (memWrite_ok_iff _ _ _ _ _).1 hu
      exact .inr (.inr ⟨by omega, hle, by simpa using h.symm⟩)
    · exact absurd h (by simp)

/-- Everything a command issue can do: it is dropped, it runs, or the word is illegal (20_memory.md R60). -/
theorem issue_next {cw : Word32} {s t : State} (h : issue cw s = .next t) :
    (s.halted = true ∧ t = s) ∨ (s.halted = false ∧ ∃ i, decode cw = .ok i ∧ exec i s = .next t) ∨
      (s.halted = false ∧ (∃ d, decode cw = .error d) ∧ t = takeFault cw .illegalCommand s) := by
  cases hh : s.halted with
  | true =>
    rw [issue_halted cw hh] at h
    exact .inl ⟨rfl, by simpa using h.symm⟩
  | false =>
    cases hd : decode cw with
    | ok i => exact .inr (.inl ⟨rfl, i, rfl, by rwa [issue_decoded hh hd] at h⟩)
    | error d =>
      rw [issue_illegal hh hd] at h
      exact .inr (.inr ⟨rfl, ⟨d, rfl⟩, by simpa using h.symm⟩)

end Sys2Proof.Machine
end

