-- ==== Sys2Proof/Tests/Slice0.lean ====
section
/-! SUPPORT. Tests with expected values from spec/ (95_test_vectors.md, 30_encoding.md R93, or worked by hand from a rule, as
each comment says), and for every statement with hypotheses a state and operands that meet them. -/

namespace Sys2Proof.Tests

open Sys2Proof.Machine Sys2Proof.Claims

/-! ### Small states -/

/-- W = 8, CAP_WORDS = 1, MEM_BYTES = 64. -/
def p8 : Params := ⟨.w8, 1, 64, 0⟩

/-- W = 8, CAP_WORDS = 2, MEM_BYTES = 64. -/
def p8two : Params := ⟨.w8, 2, 64, 0⟩

/-- W = 32, CAP_WORDS = 2, MEM_BYTES = 64: the configuration of V1.3. -/
def p32 : Params := ⟨.w32, 2, 64, 0⟩

/-- After reset with some registers written. -/
def withRegs (p : Params) (rs : List (RegIdx × Int)) : State :=
  rs.foldl (fun s r => s.setReg r.1 r.2) (State.resetWith p [])

/-- The context of 13 at W = 8 (43_montgomery_context.md R157). -/
def ctx13 : Context := ⟨13, 1, 256, 9, 3, 59⟩

/-- The context of 257 at W = 8 (43_montgomery_context.md R157). -/
def ctx257 : Context := ⟨257, 2, 0x10000, 1, 1, 255⟩

/-- Some registers written and `c1` holding the context of 13. -/
def with13 (p : Params) (rs : List (RegIdx × Int)) : State := (withRegs p rs).setCtx 1 (some ctx13)

/-- OPMEM holding `bytes` from address `a`. -/
def withBytes (s : State) (a : Nat) : List Byte → State
  | [] => s
  | b :: bs => withBytes { s with opmem := Memory.write s.opmem a b } (a + 1) bs

/-- The host about to make one access. -/
def about (s : State) (a : HostAccess) : State := { s with pending := [a] }

/-- `STATUS`, `CMDSEQ` and register `j` after an outcome. -/
def seen (j : RegIdx) : Host.Outcome State Fault Refusal → Option (Nat × Nat × Option Int)
  | .next t => some (t.status.toNat, t.cmdseq.toNat, t.regs.get j)
  | .fault _ => none
  | .refused _ => none

/-- The next state, if there is one. -/
def after : Host.Outcome State Fault Refusal → Option State
  | .next t => some t
  | .fault _ => none
  | .refused _ => none

/-- Bytes of OPMEM after an outcome. -/
def bytesAfter (a n : Nat) : Host.Outcome State Fault Refusal → Option (List Nat)
  | .next t => some ((List.range n).map fun j => (Memory.read t.opmem (a + j)).toNat)
  | .fault _ => none
  | .refused _ => none

/-- What a decoder's answer is, by name. -/
def illegal (w : Nat) : Bool :=
  match decode (BitVec.ofNat 32 w) with
  | .ok _ => false
  | .error _ => true

/-- The name of a stop. -/
def stopOf : Host.Outcome State Fault Refusal → Option (Fault ⊕ Refusal)
  | .next _ => none
  | .fault f => some (.inl f)
  | .refused r => some (.inr r)

/-! ### Well-formedness: 30_encoding.md R90, the one constraint operand types do not carry -/

theorem test_wellFormed_refuses_rg_rp : (Instr.egcd 2 2 4 0 1).wellFormed = false := by decide
theorem test_wellFormed_refuses_rg_rq : (Instr.egcd 2 3 2 0 1).wellFormed = false := by decide
theorem test_wellFormed_refuses_rp_rq : (Instr.egcd 2 3 3 0 1).wellFormed = false := by decide
theorem test_wellFormed_egcd : (Instr.egcd 0 1 2 0 1).wellFormed = true := by decide

/-! ### Decoding: R93's words, the corner words of V7, and for the other rows words written out from R89 -/

theorem test_decode_movement :
    (decodeTableWord 32 0x00000000, decodeTableWord 32 0x0100E2E9, decodeTableWord 32 0x01FFFFFF,
      decodeTableWord 32 0x02200010, decodeTableWord 32 0x03500040) =
    (some .nop, some (.li 0 0xe2e9), some (.li 15 0xFFFFF), some (.ld 2 16), some (.st 5 0x40)) := by decide

/-- SUB, MUL, DIV, MOD by hand: opcode, then rd, ra, rb in bits 23:20, 19:16, 15:12. -/
theorem test_decode_arithmetic :
    (decodeTableWord 32 0x10312000, decodeTableWord 32 0x11746000, decodeTableWord 32 0x12650000,
      decodeTableWord 32 0x13220000, decodeTableWord 32 0x14201000, decodeTableWord 32 0x15531000) =
    (some (.add 3 1 2), some (.sub 7 4 6), some (.mul 6 5 0), some (.sqr 2 2), some (.div 2 0 1),
      some (.mod 5 3 1)) := by decide

theorem test_decode_shifts_modmul_egcd :
    (decodeTableWord 32 0x16100008, decodeTableWord 32 0x16FFFFFF, decodeTableWord 32 0x17A51234,
      decodeTableWord 32 0x18412300, decodeTableWord 32 0x20EDCBA0) =
    (some (.shl 1 0 8), some (.shl 15 15 65535), some (.shr 10 5 0x1234), some (.modmul 4 1 2 3),
      some (.egcd 14 13 12 11 10)) := by decide

/-- The CTXGET words are those of V4.3. -/
theorem test_decode_contexts :
    [0x21120000, 0x22120000, 0x22221000, 0x22322000, 0x22423000, 0x22524000, 0x22F35000, 0x23300000].map
      (decodeTableWord 32) =
    [some (.ctxsetup 1 2), some (.ctxgetN 1 2), some (.ctxgetNwords 2 2), some (.ctxgetR 3 2),
      some (.ctxgetRmodn 4 2), some (.ctxgetR2modn 5 2), some (.ctxgetNinv 15 3), some (.ctxclr 3)] := by decide

theorem test_decode_montgomery :
    (decodeTableWord 32 0x24534100, decodeTableWord 32 0x25301000, decodeTableWord 32 0x26651000,
      decodeTableWord 32 0x27301200) =
    (some (.montmul 5 3 4 1), some (.tomont 3 0 1), some (.frommont 6 5 1), some (.modexp 3 0 1 2)) := by decide

theorem test_encode_words :
    ((encode (.li 15 0xFFFFF)).toNat, (encode (.sub 7 4 6)).toNat, (encode (.shl 1 0 8)).toNat,
      (encode (.egcd 14 13 12 11 10)).toNat, (encode (.ctxgetNinv 15 3)).toNat, (encode (.montmul 5 3 4 1)).toNat) =
    (0x01FFFFFF, 0x11746000, 0x16100008, 0x20EDCBA0, 0x22F35000, 0x24534100) := by decide

/-- V7, the illegal words. -/
theorem test_illegal_words :
    [0x00000001, 0x04000000, 0x0F000000, 0x19000000, 0x1F000000, 0x28000000, 0xC0000000, 0xFFFFFFFF, 0x10312001,
      0x10312F00, 0x13221000, 0x18412301, 0x20234011].all illegal = true ∧
    [0x20224010, 0x20232010, 0x20233010, 0x21420000, 0x21121000, 0x22716000, 0x2274F000, 0x23700000, 0x24534500,
      0x25304000, 0x27301201, 0x2233F000].all illegal = true := by decide

/-! ### One step from reset: the placed word runs first (log entry 3) -/

theorem test_first_step_runs_word :
    seen 15 (step (State.reset.withFetchWord 32 0x01FFFFFF)) = some (0, 1, some 1048575) := by decide

/-- V8's style: an illegal first word faults with code 4. -/
theorem test_first_step_illegal : seen 0 (step (State.reset.withFetchWord 32 0x04000000)) = some (0x14, 0, none) := by
  decide

/-! ### Data movement: V1 -/

/-- V1.6 and 10_state.md R31: the counter wraps. -/
theorem test_nop_wraps :
    seen 0 (exec .nop { State.reset with cmdseq := 0xFFFFFFFF }) = some (0, 0, none) := by decide

/-- V1.5. -/
theorem test_li : seen 0 (exec (.li 0 0xFFFFF) State.reset) = some (0, 1, some 1048575) := by decide
/-- V1.5: 0x10000 needs three words of 8 bits. -/
theorem test_li_capacity : seen 0 (exec (.li 0 0x10000) (withRegs p8two [])) = some (0x18, 0, none) := by decide

/-- V1.1, W = 8 (shortened to two magnitude bytes by 20_memory.md R55): header 0x82, then the bytes. -/
theorem test_ld :
    seen 4 (exec (.ld 4 0) (withBytes (withRegs p8two []) 0 [0x82, 0x0A, 0x09])) = some (0, 1, some (-0x090A)) := by
  decide
/-- V1.3: the last two words of OPMEM load, negative zero is `BadFormat`, one word on is `MemoryFault`. -/
theorem test_ld_outcomes :
    [exec (.ld 0 14) (withBytes (withRegs p32 []) 56 [1, 0, 0, 0, 7]),
      exec (.ld 0 0) (withBytes (withRegs p32 []) 0 [0, 0, 0, 0x80]),
      exec (.ld 0 16) (withRegs p32 []), exec (.ld 0 0) (withRegs p32 [])].map (seen 0) =
    [some (0, 1, some 7), some (0x19, 0, none), some (0x17, 0, none), some (0, 1, some 0)] := by decide

/-- V1.2: 2^W at W = 8 is 02 00 01, the byte after it kept. -/
theorem test_st :
    bytesAfter 3 4 (exec (.st 1 3) (withBytes (withRegs p8two [(1, 256)]) 6 [0xEE])) = some [2, 0, 1, 0xEE] := by decide
/-- V1.4: `ST r1, 14` with r1 = 2^40 stores nothing; `ST r9, 0` is `InvalidOperand`. -/
theorem test_st_faults :
    (bytesAfter 56 8 (exec (.st 1 14) (withBytes (withRegs p32 [(1, 2 ^ 40)]) 56 [5])),
      seen 0 (exec (.st 1 14) (withRegs p32 [(1, 2 ^ 40)])), seen 0 (exec (.st 9 0) (withRegs p32 []))) =
    (some [5, 0, 0, 0, 0, 0, 0, 0], some (0x17, 0, none), some (0x15, 0, none)) := by decide

/-! ### BigInt primitives: V2 -/

theorem test_add_carry : seen 3 (exec (.add 3 1 2) (withRegs p32 [(1, 0xFFFFFFFF), (2, 1)])) =
    some (0, 1, some 0x100000000) := by decide
/-- V2.5: aliasing. -/
theorem test_add_alias : seen 1 (exec (.add 1 1 1) (withRegs p32 [(1, 5)])) = some (0, 1, some 10) := by decide
theorem test_sub : seen 3 (exec (.sub 3 1 2) (withRegs p32 [(1, -5), (2, 7)])) = some (0, 1, some (-12)) := by decide
theorem test_mul : seen 3 (exec (.mul 3 1 2) (withRegs p32 [(1, 0xFFFFFFFF), (2, 0xFFFFFFFF)])) =
    some (0, 1, some 0xFFFFFFFE00000001) := by decide
theorem test_sqr : seen 3 (exec (.sqr 3 1) (withRegs p32 [(1, -9)])) = some (0, 1, some 81) := by decide
theorem test_div : seen 3 (exec (.div 3 1 2) (withRegs p32 [(1, -7), (2, 2)])) = some (0, 1, some (-3)) := by decide
theorem test_div_zero : seen 3 (exec (.div 3 1 2) (withRegs p32 [(1, 5), (2, 0)])) = some (0x13, 0, none) := by decide
theorem test_mod : seen 3 (exec (.mod 3 1 2) (withRegs p32 [(1, -7), (2, -2)])) = some (0, 1, some (-1)) := by decide
theorem test_mod_sign : seen 3 (exec (.mod 3 1 2) (withRegs p32 [(1, 7), (2, -2)])) = some (0, 1, some 1) := by decide
theorem test_shl : seen 3 (exec (.shl 3 1 8) (withRegs p32 [(1, -3)])) = some (0, 1, some (-768)) := by decide
theorem test_shr : seen 3 (exec (.shr 3 1 1) (withRegs p32 [(1, -5)])) = some (0, 1, some (-2)) := by decide
theorem test_shr_zero : seen 3 (exec (.shr 3 1 8) (withRegs p32 [(1, -3)])) = some (0, 1, some 0) := by decide
/-- V2.4. -/
theorem test_modmul : seen 4 (exec (.modmul 4 1 2 3) (withRegs p32 [(1, -7), (2, 8), (3, 13)])) =
    some (0, 1, some (-4)) := by decide

/-! ### EGCD: V3 -/

theorem test_egcd :
    (after (exec (.egcd 0 1 2 0 1) (withRegs p32 [(0, 693), (1, 609)]))).map
      (fun t => (t.regs.get 0, t.regs.get 1, t.regs.get 2)) = some (some 21, some (-181), some 206) := by decide
/-- V3.4: 263 needs two words of 8 bits; none of the destinations is written. -/
theorem test_egcd_capacity :
    (after (exec (.egcd 2 3 4 0 1) (withRegs p8 [(0, 15), (1, 219)]))).map
      (fun t => (t.status.toNat, t.regs.get 2, t.regs.get 3, t.regs.get 4)) = some (0x18, none, none, none) := by decide

/-! ### Contexts: V4, R157 -/

theorem test_ctxsetup :
    ((after (exec (.ctxsetup 1 0) (withRegs p8 [(0, 13)]))).map fun t => t.ctxs.get 1,
      (after (exec (.ctxsetup 3 0) (withRegs p8two [(0, 257)]))).map fun t => t.ctxs.get 3) =
    (some (some ctx13), some (some ctx257)) := by decide
/-- V4.2: 12 is `NotInvertible`, −12 is `InvalidInput`; the old context stays. -/
theorem test_ctxsetup_faults :
    (after (exec (.ctxsetup 1 0) (with13 p8 [(0, 12)]))).map (fun t => (t.status.toNat, t.ctxs.get 1)) =
      some (0x12, some ctx13) ∧
    seen 0 (exec (.ctxsetup 1 0) (withRegs p8 [(0, -12)])) = some (0x11, 0, some (-12)) := by decide

theorem test_ctxgetN : seen 1 (exec (.ctxgetN 1 1) (with13 p8 [])) = some (0, 1, some 13) := by decide
theorem test_ctxgetNwords : seen 2 (exec (.ctxgetNwords 2 1) (with13 p8 [])) = some (0, 1, some 1) := by decide
theorem test_ctxgetR : seen 3 (exec (.ctxgetR 3 1) (with13 p8two [])) = some (0, 1, some 256) := by decide
/-- V4.3: with CAP_WORDS = 1 the radix does not fit. -/
theorem test_ctxgetR_capacity : seen 3 (exec (.ctxgetR 3 1) (with13 p8 [])) = some (0x18, 0, none) := by decide
theorem test_ctxgetRmodn : seen 4 (exec (.ctxgetRmodn 4 1) (with13 p8 [])) = some (0, 1, some 9) := by decide
theorem test_ctxgetR2modn : seen 5 (exec (.ctxgetR2modn 5 1) (with13 p8 [])) = some (0, 1, some 3) := by decide
theorem test_ctxgetNinv : seen 6 (exec (.ctxgetNinv 6 1) (with13 p8 [])) = some (0, 1, some 59) := by decide
theorem test_ctxget_invalid : seen 6 (exec (.ctxgetNinv 6 0) (with13 p8 [])) = some (0x15, 0, none) := by decide
theorem test_ctxclr :
    (after (exec (.ctxclr 1) (with13 p8 []))).map (fun t => (t.ctxs.get 1, t.cmdseq.toNat)) = some (none, 1) := by decide

/-! ### Montgomery commands: V5, V6 -/

/-- V5.3. -/
theorem test_montmul : seen 5 (exec (.montmul 5 4 4 1) (with13 p8 [(4, 12)])) = some (0, 1, some 3) := by decide
/-- V5.1: two iterations. -/
theorem test_mm_two_words : mm 8 256 256 ctx257 = 1 := by decide
theorem test_tomont : seen 5 (exec (.tomont 5 4 1) (with13 p8 [(4, 12)])) = some (0, 1, some 4) := by decide
theorem test_tomont_unreduced : seen 5 (exec (.tomont 5 1 1) (with13 p8 [(1, 13)])) = some (0x16, 0, none) := by decide
theorem test_frommont : seen 5 (exec (.frommont 5 4 1) (with13 p8 [(4, 12)])) = some (0, 1, some 10) := by decide
theorem test_modexp : seen 3 (exec (.modexp 3 0 1 2) (withRegs p8 [(0, -7), (1, 3), (2, 13)])) = some (0, 1, some 8) := by
  decide
/-- V6.2: N = 1. -/
theorem test_modexp_one : seen 3 (exec (.modexp 3 0 1 2) (withRegs p8 [(0, 2), (1, 3), (2, 1)])) =
    some (0, 1, some 0) := by decide

/-! ### Host accesses: V8 -/

theorem test_reads :
    ([0x000, 0x018, 0x01C, 0x004, 0x00C].map fun off => (after (step (about State.reset (.read32 off)))).map fun t => t.reads) =
    [some [0x00013F20], some [0x40], some [0x1000], some [0], some [0]] := by decide

theorem test_refused_accesses :
    stopOf (step (about State.reset (.write32 0x00C 4))) = some (.inr (.ctrlReservedBits 4)) ∧
    stopOf (step (about State.reset (.write32 0x008 0))) = some (.inr (.readOnlyRegister 0x008)) ∧
    stopOf (step (about State.reset (.read32 0x020))) = some (.inr (.reservedOffset 0x020)) ∧
    stopOf (step (about State.reset (.write32 0xFFC 0))) = some (.inr (.reservedOffset 0xFFC)) ∧
    stopOf (step (about State.reset (.read32 0x2000))) = some (.inl (.noSuchOffset 0x2000)) ∧
    stopOf (step (about State.reset (.read32 0x1FFC))) = none ∧
    stopOf (step (about State.reset (.read32 0x002))) = some (.inr (.misaligned 0x002)) ∧
    stopOf (step (about State.reset (.otherWidth 8 0))) = some (.inr (.accessWidth 8)) := by decide

/-- P2's first write and its little-endian bytes. -/
theorem test_opmem_write : bytesAfter 0 4 (step (about State.reset (.write32 0x1000 0x00B2F702))) =
    some [0x02, 0xF7, 0xB2, 0x00] := by decide

/-- P4: a command issued while the engine is halted is dropped; CLRF keeps `FAULTCMD`. -/
theorem test_halted_drop_and_clear :
    seen 1 (step (about (takeFault 0x14201000 .divisionByZero (withRegs p32 [(1, 0)])) (.write32 4 0x01100007))) =
      some (0x13, 0, some 0) ∧
    (after (step (about (takeFault 0x14201000 .divisionByZero (withRegs p32 [])) (.write32 12 1)))).map
      (fun t => (t.status, t.faultcmd)) = some (0, 0x14201000) := by decide

/-! ### Witnesses: for each statement with hypotheses, a state and operands that meet them, clause by clause -/

/-- A legal state with registers at the ends of their range, a context and bytes in OPMEM. -/
def legal : State := withBytes (with13 p8two [(0, 0xFFFF), (1, 5), (2, 0), (3, -0xFFFF)]) 0 [0x02, 0x00, 0x01]

/-- The same, halted by a `DivisionByZero`. -/
def stopped : State := takeFault 0x14201000 .divisionByZero legal

theorem witness_EncodeDecodeRoundTrip : (Instr.egcd 14 13 12 11 10).wellFormed = true := by decide

theorem witness_DecodedWordIsItsEncoding : decode 0x20EDCBA0 = .ok (.egcd 14 13 12 11 10) ∧
    decode 0x16FFFFFF = .ok (.shl 15 15 65535) := ⟨rfl, rfl⟩

theorem witness_DecodeIsMatchAndMask :
    decode 0x20EDCBA0 = .ok (.egcd 14 13 12 11 10) ∧ (Instr.egcd 14 13 12 11 10).row.pattern = 0x20000000 ∧
    (⟨0x20000000, 0xFF00000F⟩ : TableRow) ∈ opcodeTable ∧ (0x20EDCBA0 : Word32) &&& 0xFF00000F = 0x20000000 ∧
    bits 0x20EDCBA0 23 20 ≠ bits 0x20EDCBA0 19 16 ∧ bits 0x20EDCBA0 23 20 ≠ bits 0x20EDCBA0 15 12 ∧
    bits 0x20EDCBA0 19 16 ≠ bits 0x20EDCBA0 15 12 ∧
    (⟨0x00000000, 0xFFFFFFFF⟩ : TableRow) ∈ opcodeTable ∧ (0 : Word32) &&& 0xFFFFFFFF = 0 := ⟨rfl, rfl, by decide⟩

theorem witness_OpcodeRowsMatchDisjointWords :
    (⟨0x22005000, 0xFF0CFFFF⟩ : TableRow) ∈ opcodeTable ∧ (0x22F35000 : Word32) &&& 0xFF0CFFFF = 0x22005000 := by decide

theorem witness_IllegalWordRaisesIllegalCommand :
    (about legal (.write32 4 0x04000000)).pending = .write32 0x004 0x04000000 :: [] ∧
    (about legal (.write32 4 0x04000000)).halted = false ∧
    (∀ r ∈ opcodeTable, (0x04000000 : Word32) &&& r.mask ≠ r.pattern) ∧
    bits 0x20224010 31 24 = 0x20 ∧ bits 0x20224010 23 20 = bits 0x20224010 19 16 ∧
    bits 0x20232010 23 20 = bits 0x20232010 15 12 ∧ bits 0x20233010 19 16 = bits 0x20233010 15 12 := by decide

theorem witness_StepIssuesTheDecodedCommand :
    (about stopped (.write32 4 0)).pending = .write32 0x004 0 :: [] ∧ (about stopped (.write32 4 0)).halted = true ∧
    (about legal (.write32 4 0)).halted = false ∧ decode 0x01FFFFFF = .ok (.li 15 0xFFFFF) ∧
    decode 0x10312001 = .error .nonZeroField := ⟨rfl, by decide, by decide, rfl, rfl⟩

theorem witness_PlacedWordRunsNext :
    State.reset.halted = false ∧ decodeTableWord 32 0x20234010 = some (.egcd 2 3 4 0 1) := by decide

theorem witness_IdleEngineKeepsState : State.reset.pending = [] := by decide

/-- At each end of what R63 admits, on both sides. -/
theorem witness_AccessHasStepExactlyWhenAdmitted :
    legal.params.wf = true ∧
    ([.read32 0x01C, .read32 0x020, .read32 0xFFC, .read32 0x1000, .read32 0x103C, .read32 0x1040, .read32 2].map
      fun a => stopOf (step (about legal a))) =
    [none, some (.inr (.reservedOffset 0x020)), some (.inr (.reservedOffset 0xFFC)), none, none,
      some (.inl (.noSuchOffset 0x1040)), some (.inr (.misaligned 2))] ∧
    ([.write32 0x004 0, .write32 0x00C 3, .write32 0x00C 4, .write32 0x000 0, .write32 0x103C 0, .write32 0x1040 0].map
      fun a => stopOf (step (about legal a))) =
    [none, none, some (.inr (.ctrlReservedBits 4)), some (.inr (.readOnlyRegister 0)), none,
      some (.inl (.noSuchOffset 0x1040))] := by decide

theorem witness_HostReadsReturnRegisters :
    (about stopped (.read32 0x008)).pending = .read32 0x008 :: [] ∧
    (0x008, stopped.status) ∈ [((0x000 : Nat), BitVec.ofNat 32 (stopped.params.w + 15 * 2 ^ 8 + 3 * 2 ^ 12 + 1 * 2 ^ 16)),
      (0x004, 0), (0x008, stopped.status), (0x00C, 0), (0x010, stopped.cmdseq), (0x014, stopped.faultcmd)] ∧
    ([0x008, 0x010, 0x014, 0x018, 0x01C].map fun off => (after (step (about stopped (.read32 off)))).map fun t => t.reads) =
      [some [0x13], some [0], some [0x14201000], some [2], some [64]] := by decide

theorem witness_HostReadOfOpmemReturnsBytes :
    (about legal (.read32 (0x1000 + 60))).pending = .read32 (0x1000 + 60) :: [] ∧ 60 % 4 = 0 ∧
    60 + 4 ≤ legal.params.memBytes ∧ 0 + 4 ≤ legal.params.memBytes := by decide

theorem witness_HostWriteOfOpmemStoresBytes :
    (about stopped (.write32 (0x1000 + 60) 7)).pending = .write32 (0x1000 + 60) 7 :: [] ∧ 60 % 4 = 0 ∧
    60 + 4 ≤ stopped.params.memBytes ∧ Memory.wf stopped.opmem = true := by decide

/-- R36: each value of the two bits, the first value with a reserved bit, and the last. -/
theorem witness_CtrlWriteClearsOrResets :
    (about stopped (.write32 0x00C 2)).pending = .write32 0x00C 2 :: [] ∧
    (about stopped (.read32 0x00C)).pending = .read32 0x00C :: [] ∧
    4 ≤ (4 : Word32).toNat ∧ 4 ≤ (0xFFFFFFFF : Word32).toNat ∧
    ([0, 1, 2, 3].map fun v => seen 1 (step (about stopped (.write32 0x00C v)))) =
      [some (0x13, 0, some 5), some (0, 0, some 5), some (0, 0, none), some (0, 0, none)] := by decide

theorem witness_HaltedUntilCtrlWrite :
    stopped.halted = true ∧ seen 1 (step (about stopped (.write32 4 0x01100007))) = some (0x13, 0, some 5) ∧
    seen 1 (step (about stopped (.write32 0x00C 1))) = some (0, 0, some 5) := by decide

theorem witness_CmdseqCountsRetirements :
    seen 1 (step (about legal (.read32 0))) = some (0, 0, some 5) ∧
    seen 1 (step (about { legal with cmdseq := 0xFFFFFFFF } (.write32 4 0))) = some (0, 0, some 5) ∧
    seen 1 (step (about { legal with cmdseq := 9 } (.write32 0x00C 3))) = some (0, 0, none) := by decide

/-- A clean run; and two that are not: an unwritten source halts the engine at the end, and in the other the next command
is dropped although CLRF follows. -/
theorem witness_CleanRunIsUnhaltedAndDropsNothing :
    cleanRun [.write32 4 0x01000005, .read32 0x010] State.reset = true ∧
    (runProgram ([.write32 4 0x01000005, .write32 4 0].take 1) State.reset |> seen 0) = some (0, 1, some 5) ∧
    cleanRun [.write32 4 0x10109000] State.reset = false ∧
    seen 0 (runProgram [.write32 4 0x10109000] State.reset) = some (0x15, 0, none) ∧
    cleanRun [.write32 4 0x10109000, .write32 4 0, .write32 0x00C 1] State.reset = false ∧
    seen 0 (runProgram [.write32 4 0x10109000, .write32 4 0, .write32 0x00C 1] State.reset) = some (0, 0, none) := by decide

theorem witness_CleanRunRetiresEveryCommand :
    (∀ v, HostAccess.write32 0x00C v ∉ [.write32 4 0x01000005, .read32 0x010, .write32 4 0]) ∧
    cleanRun [.write32 4 0x01000005, .read32 0x010, .write32 4 0] State.reset = true ∧
    seen 0 (runProgram [.write32 4 0x01000005, .read32 0x010, .write32 4 0] State.reset) = some (0, 2, some 5) :=
  ⟨by simp, by decide, by decide⟩

theorem witness_ResetIsLegal :
    p8.wf = true ∧ Memory.wf [(0, 1), (63, 255)] = true ∧ Memory.within p8.memBytes [(0, 1), (63, 255)] = true := by decide

theorem witness_legal : legal.Inv := by decide

theorem witness_StepKeepsLegalState :
    legal.Inv ∧ (after (step (about legal (.write32 4 0x21010000)))).isSome = true := by decide

theorem witness_StepKeepsStatusLegal :
    stopped.statusLegal ∧ (after (step (about stopped (.write32 0x00C 1)))).isSome = true := by decide

theorem witness_StepKeepsRegistersWithinCapacity :
    legal.regsFit ∧ (after (step (about legal (.write32 4 0x12500000)))).isSome = true := by decide

theorem witness_StepKeepsContextsValid :
    legal.regsFit ∧ legal.ctxsValid ∧ (after (step (about legal (.write32 4 0x21010000)))).isSome = true := by decide

theorem witness_StepKeepsOpmemCanonical :
    legal.opmemLegal ∧ (after (step (about legal (.write32 0x1000 0)))).isSome = true := by decide

theorem witness_StepKeepsParameters : (after (step (about legal (.write32 0x00C 2)))).isSome = true := by decide

/-- A storing form and a register form. -/
theorem witness_CommandWritesOnlyItsDestinations :
    (after (exec (.st 0 61) legal)).isSome = true ∧ (after (exec (.modexp 9 1 1 1) legal)).isSome = true := by decide

/-- Two states that agree on `r1`, `r2`, `c1` and OPMEM and differ in `r9` and `c3`: the sources of an ADD, an ST, an LD and
a MONTMUL. -/
theorem witness_CommandReadsOnlyItsSources :
    ((legal.setReg 9 1).setCtx 3 (some ctx257)).params = legal.params ∧
    ([Instr.add 4 1 2, .st 1 0, .ld 4 0, .montmul 4 1 2 1].all fun i =>
      (regSources i).all (fun j => decide (((legal.setReg 9 1).setCtx 3 (some ctx257)).regs.get j = legal.regs.get j)) &&
      (ctxSources i).all (fun k => decide (((legal.setReg 9 1).setCtx 3 (some ctx257)).ctxs.get k = legal.ctxs.get k)) &&
      decide (((legal.setReg 9 1).setCtx 3 (some ctx257)).opmem = legal.opmem)) = true ∧
    readsOpmem (.add 4 1 2) = false ∧ readsOpmem (.ld 4 0) = true ∧ Memory.wf legal.opmem = true := by decide

theorem witness_CommandRaisesOnlyTableErrors :
    (Instr.div 4 1 2).wellFormed = true ∧ legal.Inv ∧ legal.status = 0 ∧
    seen 4 (exec (.div 4 1 2) legal) = some (0x13, 0, none) := by decide

theorem witness_LiLoadsImmediate : FitsReg legal 0xFFFF ∧ ¬ FitsReg legal 0x10000 := by unfold FitsReg; decide

/-- R112's checks at their edges: the header's end, the body's end, both `BadFormat`s, capacity, and a load. -/
theorem witness_LdLoadsCanonicalImage :
    (64 < (64 + 1) * p8two.wb ∧ (63 + 1) * p8two.wb ≤ 64 ∧ 64 < (63 + 1 + 1) * p8two.wb) ∧
    [exec (.ld 4 64) (withBytes legal 63 [1]), exec (.ld 4 63) (withBytes legal 63 [1]),
      exec (.ld 4 63) (withBytes legal 63 [0x80]), exec (.ld 4 62) (withBytes legal 62 [1, 0]),
      exec (.ld 4 60) (withBytes legal 60 [3, 1, 1, 1]), exec (.ld 4 61) (withBytes legal 61 [0x82, 0, 1])].map (seen 4) =
    [some (0x17, 0, none), some (0x17, 0, none), some (0x19, 0, none), some (0x19, 0, none), some (0x18, 0, none),
      some (0, 1, some (-256))] := by decide

/-- R113: an unwritten source, an image one byte too long, an image that ends at the last byte. -/
theorem witness_StStoresCanonicalImage :
    legal.params.wf = true ∧ legal.regsFit ∧ Memory.wf legal.opmem = true ∧ SomeUnwritten legal [9] ∧
    legal.regs.get 3 = some (-0xFFFF) ∧ WordCount legal.params.w (-0xFFFF) 2 ∧
    legal.params.memBytes < imageEnd legal.params 62 2 ∧ imageEnd legal.params 61 2 ≤ legal.params.memBytes := by
  unfold SomeUnwritten WordCount; decide

theorem witness_StThenLdGivesValueBack :
    legal.Inv ∧ legal.regs.get 3 = some (-0xFFFF) ∧
    imageEnd legal.params 61 (nwords legal.params.w (-0xFFFF)) ≤ legal.params.memBytes := by decide

/-- The sum 0xFFFF fits two words of 8 bits and 0x10004 does not; `r9` is unwritten. -/
theorem witness_AddWritesExactSum :
    SomeUnwritten legal [0, 9] ∧ legal.regs.get 0 = some 0xFFFF ∧ legal.regs.get 1 = some 5 ∧
    legal.regs.get 2 = some 0 ∧ FitsReg legal (0xFFFF + 0) ∧ ¬ FitsReg legal (0xFFFF + 5) := by
  unfold SomeUnwritten FitsReg; decide

theorem witness_SubWritesExactDifference :
    SomeUnwritten legal [9, 0] ∧ legal.regs.get 3 = some (-0xFFFF) ∧ legal.regs.get 1 = some 5 ∧
    legal.regs.get 2 = some 0 ∧ FitsReg legal (-0xFFFF - 0) ∧ ¬ FitsReg legal (-0xFFFF - 5) := by
  unfold SomeUnwritten FitsReg; decide

theorem witness_MulWritesExactProduct :
    SomeUnwritten legal [9, 9] ∧ legal.regs.get 0 = some 0xFFFF ∧ legal.regs.get 2 = some 0 ∧
    legal.regs.get 1 = some 5 ∧ FitsReg legal (0xFFFF * 0) ∧ ¬ FitsReg legal (0xFFFF * 5) := by
  unfold SomeUnwritten FitsReg; decide

theorem witness_SqrWritesExactSquare :
    SomeUnwritten legal [9] ∧ legal.regs.get 1 = some 5 ∧ legal.regs.get 0 = some 0xFFFF ∧ FitsReg legal (5 * 5) ∧
    ¬ FitsReg legal (0xFFFF * 0xFFFF) := by unfold SomeUnwritten FitsReg; decide

theorem witness_DivWritesTruncatedQuotient :
    legal.regsFit ∧ SomeUnwritten legal [0, 9] ∧ legal.regs.get 3 = some (-0xFFFF) ∧ legal.regs.get 2 = some 0 ∧
    legal.regs.get 1 = some 5 ∧ (5 : Int) ≠ 0 := by unfold SomeUnwritten; decide

theorem witness_ModWritesTruncatedRemainder :
    legal.regsFit ∧ SomeUnwritten legal [9, 0] ∧ legal.regs.get 3 = some (-0xFFFF) ∧ legal.regs.get 2 = some 0 ∧
    legal.regs.get 1 = some 5 ∧ (5 : Int) ≠ 0 := by unfold SomeUnwritten; decide

/-- A shift of 5 by 13 fits, by 14 does not. -/
theorem witness_ShlMultipliesByPowerOfTwo :
    SomeUnwritten legal [9] ∧ legal.regs.get 1 = some 5 ∧ FitsReg legal (5 * 2 ^ (13 : BitVec 16).toNat) ∧
    ¬ FitsReg legal (5 * 2 ^ (14 : BitVec 16).toNat) := by unfold SomeUnwritten FitsReg; decide

theorem witness_ShrShiftsMagnitude :
    legal.regsFit ∧ SomeUnwritten legal [9] ∧ legal.regs.get 3 = some (-0xFFFF) := by unfold SomeUnwritten; decide

theorem witness_ModmulWritesTruncatedRemainder :
    legal.regsFit ∧ SomeUnwritten legal [0, 1, 9] ∧ legal.regs.get 0 = some 0xFFFF ∧ legal.regs.get 3 = some (-0xFFFF) ∧
    legal.regs.get 2 = some 0 ∧ legal.regs.get 1 = some 5 ∧ (5 : Int) ≠ 0 := by unfold SomeUnwritten; decide

theorem witness_EgcdReturnsGcdAndBezoutPair : (0 : Int) < 4 ∧ (0 : Int) < 6 ∧ (0 : Int) ≤ 0 ∧ (-3 : Int) ≤ 0 := by decide

/-- Distinct and repeated destinations, an unwritten source, a non-positive one, a triple that fits; and V3.4's triple
(3, 263, −18), which does not fit CAP_WORDS = 1. -/
theorem witness_EgcdCommandWritesTriple :
    ((2 : RegIdx) ≠ 3 ∧ (2 : RegIdx) ≠ 4 ∧ (3 : RegIdx) ≠ 4) ∧
    ¬ ((2 : RegIdx) ≠ 2 ∧ (2 : RegIdx) ≠ 4 ∧ (2 : RegIdx) ≠ 4) ∧
    SomeUnwritten legal [9, 1] ∧ legal.regs.get 2 = some 0 ∧ legal.regs.get 0 = some 0xFFFF ∧ legal.regs.get 1 = some 5 ∧
    (FitsReg legal 5 ∧ FitsReg legal 0 ∧ FitsReg legal 1) ∧
    (withRegs p8 [(0, 15), (1, 219)]).regs.get 0 = some 15 ∧ (withRegs p8 [(0, 15), (1, 219)]).regs.get 1 = some 219 ∧
    ¬ (FitsReg (withRegs p8 [(0, 15), (1, 219)]) 3 ∧ FitsReg (withRegs p8 [(0, 15), (1, 219)]) 263 ∧
      FitsReg (withRegs p8 [(0, 15), (1, 219)]) (-18)) := by unfold SomeUnwritten FitsReg; decide

/-- The start of V3.2's trace, and the state after its first pass. -/
theorem witness_GcdPassKeepsLinearCombinations :
    (0 : Int) < 693 ∧ (0 : Int) < 609 ∧ ¬ ((693 : Int) % 2 = 0 ∧ (609 : Int) % 2 = 0) ∧ (0 : Int) < 84 ∧
    (84 : Int) = 1 * 693 + -1 * 609 ∧ (609 : Int) = 0 * 693 + 1 * 609 ∧ Int.gcd 84 609 = Int.gcd 693 609 ∧
    gcdPass 693 609 (gcdStart 693 609) = ⟨84, 609, 1, -1, 0, 1⟩ := by decide

theorem witness_GcdLoopsRunToTheirEnd : (0 : Int) < 2 ∧ (0 : Int) < 1 := by decide

/-- 1 is the least modulus; 0, −1, 2 and an unwritten source raise. -/
theorem witness_CtxsetupDerivesContext :
    SomeUnwritten legal [9] ∧ legal.regs.get 2 = some 0 ∧ legal.regs.get 3 = some (-0xFFFF) ∧
    (withRegs p8 [(0, 1), (1, 2)]).regs.get 0 = some 1 ∧ (withRegs p8 [(0, 1), (1, 2)]).regs.get 1 = some 2 ∧
    ((0 : Int) < 1 ∧ (1 : Int) % 2 = 1) ∧ ((0 : Int) < 2 ∧ (2 : Int) % 2 = 0) := by unfold SomeUnwritten; decide

/-- Two Bézout pairs of 13 and 256: V3.1's, and the one 256 below. -/
theorem witness_NinvIndependentOfBezoutPair :
    (0 : Int) < 13 ∧ (13 : Int) % 2 = 1 ∧ 197 * 13 + -10 * radix 8 13 = 1 ∧ -59 * 13 + 3 * radix 8 13 = 1 := by decide

theorem witness_CtxgetCopiesAttribute :
    legal.ctxs.get 0 = none ∧ legal.ctxs.get 1 = some ctx13 ∧ legal.params.wf = true ∧ ctx13.valid legal.params ∧
    ctx257.valid legal.params ∧ ctx257.nWords = legal.params.capWords ∧
    bits 0x22126000 31 24 = 0x22 ∧ 6 ≤ bits 0x22126000 15 12 := by decide

/-- V5.3's registers: 13 = N, 12 = N − 1, −1, and 0; `r9` unwritten, `c0` invalid. -/
def bounds13 : State := with13 p8 [(1, 13), (4, 12), (3, -1), (2, 0)]

theorem witness_MontmulWritesMontgomeryProduct :
    SomeUnwritten bounds13 [9, 1] ∧ bounds13.ctxs.get 0 = none ∧ bounds13.ctxs.get 1 = some ctx13 ∧
    ctx13.valid bounds13.params ∧ bounds13.regs.get 1 = some 13 ∧ ctx13.n ≤ 13 ∧ bounds13.regs.get 3 = some (-1) ∧
    bounds13.regs.get 4 = some 12 ∧ (12 : Int) < ctx13.n ∧ bounds13.regs.get 2 = some 0 ∧ (0 : Int) < ctx13.n := by
  unfold SomeUnwritten; decide

theorem witness_TomontWritesResidue :
    SomeUnwritten legal [9] ∧ legal.ctxs.get 0 = none ∧ legal.ctxs.get 1 = some ctx13 ∧ ctx13.valid legal.params ∧
    bounds13.regs.get 1 = some 13 ∧ ctx13.n ≤ 13 ∧
    bounds13.regs.get 4 = some 12 ∧ (12 : Int) < ctx13.n ∧
    bounds13.regs.get 3 = some (-1) := by unfold SomeUnwritten; decide

theorem witness_FrommontWritesOrdinaryValue :
    SomeUnwritten legal [9] ∧ legal.ctxs.get 0 = none ∧ legal.ctxs.get 1 = some ctx13 ∧ ctx13.valid legal.params ∧
    bounds13.regs.get 1 = some 13 ∧ ctx13.n ≤ 13 ∧
    bounds13.regs.get 4 = some 12 ∧ (12 : Int) < ctx13.n ∧
    bounds13.regs.get 3 = some (-1) := by unfold SomeUnwritten; decide

theorem witness_MontgomeryDomainLaws : ctx257.valid p8two ∧ (0 : Int) ≤ 256 ∧ (256 : Int) < ctx257.n := by decide

theorem witness_MultiplierShiftsExactlyWithinBound :
    ctx257.valid p8two ∧ (0 : Int) ≤ 256 ∧ (256 : Int) < ctx257.n ∧ (0xFFFF : Int) < ctx257.r ∧
    (256 : Int) < ctx257.r := by decide

/-- The exponents −1 and 0, the moduli −1, 0, 1, 2 and 5, and an unwritten source. -/
def expBounds : State := withRegs p8 [(0, 1), (1, 2), (2, 0), (3, -1), (4, 5)]

theorem witness_ModexpWritesPower :
    expBounds.regsFit ∧ SomeUnwritten expBounds [1, 1, 9] ∧ expBounds.regs.get 3 = some (-1) ∧
    expBounds.regs.get 2 = some 0 ∧ expBounds.regs.get 0 = some 1 ∧ expBounds.regs.get 1 = some 2 ∧
    expBounds.regs.get 4 = some 5 := by unfold SomeUnwritten; decide

end Sys2Proof.Tests
end

/-! ## Commands: retiring or faulting -/

namespace Sys2Proof.Machine

/-- `t` differs from `s` at most in the registers, the contexts and OPMEM: what a command may write before it ends. -/
structure KeepsControl (s t : State) : Prop where
  params : t.params = s.params
  cmdseq : t.cmdseq = s.cmdseq
  status : t.status = s.status
  faultcmd : t.faultcmd = s.faultcmd
  pending : t.pending = s.pending
  reads : t.reads = s.reads

/-- Where the writes of a command give a state, it is `s` outside the registers, the contexts and OPMEM. -/
def WritesKeepControl (s : State) (r : Except ErrorKind State) : Prop := ∀ t, r = .ok t → KeepsControl s t

theorem writesKeepControl_error (s : State) (e : ErrorKind) : WritesKeepControl s (.error e) := nofun

theorem writesKeepControl_ok {s t : State} (h : KeepsControl s t) : WritesKeepControl s (.ok t) := by
  rintro _ ⟨⟩
  exact h

theorem writesKeepControl_bind {α : Type} {s : State} {x : Except ErrorKind α} {f : α → Except ErrorKind State}
    (h : ∀ a, WritesKeepControl s (f a)) : WritesKeepControl s (x >>= f) := by
  intro t ht
  obtain ⟨a, -, hf⟩ := (bind_ok_iff x f t).1 ht
  exact h a t hf

theorem writesKeepControl_writeReg (s : State) (i : RegIdx) (v : Int) : WritesKeepControl s (writeReg s i v) := by
  intro t ht
  obtain ⟨-, rfl⟩ := (writeReg_ok_iff s i v t).1 ht
  exact ⟨rfl, rfl, rfl, rfl, rfl, rfl⟩

theorem writesKeepControl_writeRegs3 (s : State) (i j k : RegIdx) (u v w : Int) :
    WritesKeepControl s (writeRegs3 s i j k u v w) := by
  intro t ht
  obtain ⟨-, rfl⟩ := (writeRegs3_ok_iff s i j k u v w t).1 ht
  exact ⟨rfl, rfl, rfl, rfl, rfl, rfl⟩

theorem writesKeepControl_storeImage (s : State) (a : Nat) (v : Int) : WritesKeepControl s (storeImage s a v) := by
  intro t ht
  obtain ⟨-, rfl⟩ := (storeImage_ok_iff s a v t).1 ht
  exact ⟨rfl, rfl, rfl, rfl, rfl, rfl⟩

theorem writesKeepControl_setCtx (s : State) (k : CtxIdx) (c : Option Context) :
    WritesKeepControl s (.ok (s.setCtx k c)) :=
  writesKeepControl_ok ⟨rfl, rfl, rfl, rfl, rfl, rfl⟩

theorem writesKeepControl_ctxAttribute (s : State) (rd : RegIdx) (cs : CtxIdx) (pick : Context → Int) :
    WritesKeepControl s (ctxAttribute s rd cs pick) :=
  writesKeepControl_bind fun _ => writesKeepControl_writeReg _ _ _

/-- Every command is a sequence of checks and one write, ended by `complete` with the command's own word. -/
theorem exec_eq_complete (i : Instr) (s : State) :
    ∃ r, exec i s = complete (encode i) s r ∧ WritesKeepControl s r := by
  cases i with
  | nop => exact ⟨_, rfl, writesKeepControl_ok ⟨rfl, rfl, rfl, rfl, rfl, rfl⟩⟩
  | li rd imm20 => exact ⟨_, rfl, writesKeepControl_writeReg _ _ _⟩
  | ld rd imm20 => exact ⟨_, rfl, writesKeepControl_bind fun _ => writesKeepControl_writeReg _ _ _⟩
  | st rs imm20 => exact ⟨_, rfl, writesKeepControl_bind fun _ => writesKeepControl_storeImage _ _ _⟩
  | sqr rd ra | shl rd ra imm16 | shr rd ra imm16 =>
    exact ⟨_, rfl, writesKeepControl_bind fun _ => writesKeepControl_writeReg _ _ _⟩
  | add rd ra rb | sub rd ra rb | mul rd ra rb =>
    exact ⟨_, rfl, writesKeepControl_bind fun _ => writesKeepControl_bind fun _ => writesKeepControl_writeReg _ _ _⟩
  | div rd ra rb | mod rd ra rb | tomont rd ra cs | frommont rd ra cs =>
    exact ⟨_, rfl, writesKeepControl_bind fun _ => writesKeepControl_bind fun _ => writesKeepControl_bind fun _ =>
      writesKeepControl_writeReg _ _ _⟩
  | modmul rd ra rb rm | modexp rd rm re rn =>
    exact ⟨_, rfl, writesKeepControl_bind fun _ => writesKeepControl_bind fun _ => writesKeepControl_bind fun _ =>
      writesKeepControl_bind fun _ => writesKeepControl_writeReg _ _ _⟩
  | montmul rd rx ry cs =>
    exact ⟨_, rfl, writesKeepControl_bind fun _ => writesKeepControl_bind fun _ => writesKeepControl_bind fun _ =>
      writesKeepControl_bind fun _ => writesKeepControl_bind fun _ => writesKeepControl_writeReg _ _ _⟩
  | egcd rg rp rq rx ry =>
    refine ⟨_, rfl, ?_⟩
    split
    · exact writesKeepControl_bind fun _ => writesKeepControl_bind fun _ => writesKeepControl_bind fun _ =>
        writesKeepControl_writeRegs3 _ _ _ _ _ _ _
    · exact writesKeepControl_error _ _
  | ctxsetup cd rn =>
    exact ⟨_, rfl, writesKeepControl_bind fun _ => writesKeepControl_bind fun _ => writesKeepControl_setCtx _ _ _⟩
  | ctxgetN rd cs | ctxgetNwords rd cs | ctxgetR rd cs | ctxgetRmodn rd cs | ctxgetR2modn rd cs | ctxgetNinv rd cs =>
    exact ⟨_, rfl, writesKeepControl_ctxAttribute _ _ _ _⟩
  | ctxclr cd => exact ⟨_, rfl, writesKeepControl_setCtx _ _ _⟩

/-- Everything a command can do to the control registers: it retires, or it raises one error and writes nothing else
(60_exceptions.md R204). -/
theorem exec_retires_or_faults (i : Instr) (s : State) :
    (∃ u, exec i s = .next (retire u) ∧ KeepsControl s u) ∨ ∃ e, exec i s = .next (takeFault (encode i) e s) := by
  obtain ⟨r, hr, hk⟩ := exec_eq_complete i s
  rw [hr]
  obtain ⟨u, hu, hc⟩ | ⟨e, -, hc⟩ := complete_cases (encode i) s r
  · exact .inl ⟨u, hc, hk u hu⟩
  · exact .inr ⟨e, hc⟩

/-! ## Programs: runs and clean runs (00_scope.md R16) -/

theorem runProgram_cons_next_iff (a : HostAccess) (as : List HostAccess) (s u : State) :
    runProgram (a :: as) s = .next u ↔ ∃ t, hostAccess a s = .next t ∧ runProgram as t = .next u := by
  rw [runProgram]
  cases hostAccess a s <;> simp

/-- A run is clean exactly when its first access is not dropped, has a step, and the rest runs clean from there. -/
theorem cleanRun_cons_iff (a : HostAccess) (as : List HostAccess) (s : State) :
    cleanRun (a :: as) s = true ↔
      dropped a s = false ∧ ∃ t, hostAccess a s = .next t ∧ cleanRun as t = true := by
  rw [cleanRun]
  cases hostAccess a s <;> simp

/-- Only a `CMD` write is ever dropped, and only by a halted engine (20_memory.md R60). -/
theorem dropped_eq_false_iff (a : HostAccess) (s : State) :
    dropped a s = false ↔ ∀ cw, a = .write32 0x004 cw → s.halted = false := by
  cases a with
  | write32 off v =>
    by_cases hoff : off = 0x004 <;> simp [dropped, hoff]
  | read32 off => simp [dropped]
  | otherWidth widthBits off => simp [dropped]

/-- No `CMD` write of the program meets a halted engine in the run from `s`. -/
def DropsNothing (as : List HostAccess) (s : State) : Prop :=
  ∀ (k : Nat) (cw : Word32) (t : State), as[k]? = some (.write32 0x004 cw) → runProgram (as.take k) s = .next t →
    t.halted = false

/-- The first access is judged in the start state, every later one in the run from the state the first leads to. -/
theorem dropsNothing_cons_iff {a : HostAccess} {s t : State} (as : List HostAccess) (h : hostAccess a s = .next t) :
    DropsNothing (a :: as) s ↔ dropped a s = false ∧ DropsNothing as t := by
  rw [dropped_eq_false_iff]
  constructor
  · intro hd
    constructor
    · rintro cw rfl
      exact hd 0 cw s rfl rfl
    · intro k cw u hk hu
      exact hd (k + 1) cw u hk ((runProgram_cons_next_iff _ _ _ _).2 ⟨t, h, hu⟩)
  · rintro ⟨hfirst, hrest⟩ k cw u hk hu
    cases k with
    | zero =>
      obtain rfl : a = .write32 0x004 cw := by simpa using hk
      obtain rfl : s = u := by simpa [runProgram] using hu
      exact hfirst cw rfl
    | succ k =>
      obtain ⟨t', ht', hu'⟩ := (runProgram_cons_next_iff _ _ _ _).1 hu
      obtain rfl : t = t' := by simpa [h] using ht'
      exact hrest k cw u hk hu'

theorem cleanRun_iff (as : List HostAccess) (s : State) :
    cleanRun as s = true ↔ (∃ t, runProgram as s = .next t ∧ t.halted = false) ∧ DropsNothing as s := by
  induction as generalizing s with
  | nil => simp [cleanRun, runProgram, DropsNothing]
  | cons a as ih =>
    rw [cleanRun_cons_iff]
    constructor
    · rintro ⟨hd, t, ht, hclean⟩
      obtain ⟨⟨u, hu, hhalt⟩, hrest⟩ := (ih t).1 hclean
      exact ⟨⟨u, (runProgram_cons_next_iff _ _ _ _).2 ⟨t, ht, hu⟩, hhalt⟩, (dropsNothing_cons_iff as ht).2 ⟨hd, hrest⟩⟩
    · rintro ⟨⟨u, hu, hhalt⟩, hdrops⟩
      obtain ⟨t, ht, hu'⟩ := (runProgram_cons_next_iff _ _ _ _).1 hu
      obtain ⟨hd, hrest⟩ := (dropsNothing_cons_iff as ht).1 hdrops
      exact ⟨hd, t, ht, (ih t).2 ⟨⟨u, hu', hhalt⟩, hrest⟩⟩

/-! ## Programs that never write CTRL -/

/-- `CMDSEQ` advances by the number `n` of commands retired, and no fault is recorded. -/
structure Retires (n : Nat) (s t : State) : Prop where
  cmdseq : t.cmdseq = s.cmdseq + BitVec.ofNat 32 n
  status : t.status = s.status
  faultcmd : t.faultcmd = s.faultcmd

theorem Retires.trans {m n : Nat} {s t u : State} (h : Retires m s t) (h' : Retires n t u) : Retires (m + n) s u where
  cmdseq := by rw [h'.cmdseq, h.cmdseq, BitVec.ofNat_add, BitVec.add_assoc]
  status := h'.status.trans h.status
  faultcmd := h'.faultcmd.trans h.faultcmd

theorem Retires.halted_eq {n : Nat} {s t : State} (h : Retires n s t) : t.halted = s.halted := by
  rw [State.halted, State.halted, h.status]

/-- A command issued to an engine that is not halted retires or halts the engine. -/
theorem issue_retires_or_halts {cw : Word32} {s t : State} (hs : s.halted = false) (h : issue cw s = .next t) :
    Retires 1 s t ∨ t.halted = true := by
  obtain ⟨hhalt, -⟩ | ⟨-, i, -, hexec⟩ | ⟨-, -, rfl⟩ := issue_next h
  · simp [hs] at hhalt
  · obtain ⟨u, hu, hk⟩ | ⟨e, he⟩ := exec_retires_or_faults i s
    · obtain rfl : retire u = t := by simpa [hu] using hexec
      exact .inl ⟨by simp [hk.cmdseq], by simp [hk.status], by simp [hk.faultcmd]⟩
    · obtain rfl : takeFault (encode i) e s = t := by simpa [he] using hexec
      exact .inr (takeFault_halted _ _ _)
  · exact .inr (takeFault_halted _ _ _)

/-- An access that is neither dropped nor a write of `CTRL` retires its command, if it issues one, or halts the engine. -/
theorem hostAccess_retires_or_halts {a : HostAccess} {s t : State} (hctrl : ∀ v, a ≠ .write32 0x00C v)
    (hd : dropped a s = false) (h : hostAccess a s = .next t) :
    Retires ([a].countP Claims.isCommand) s t ∨ t.halted = true := by
  cases a with
  | read32 off =>
    obtain ⟨v, rfl⟩ := hostRead_next h
    exact .inl ⟨by simp [Claims.isCommand], rfl, rfl⟩
  | write32 off v =>
    obtain ⟨rfl, hi⟩ | ⟨rfl, -⟩ | ⟨hoff, -, rfl⟩ := hostWrite_next h
    · exact issue_retires_or_halts ((dropped_eq_false_iff _ _).1 hd v rfl) hi
    · exact absurd rfl (hctrl v)
    · have hne : off ≠ 0x004 := by
        rintro rfl
        exact absurd hoff (by decide)
      exact .inl ⟨by simp [Claims.isCommand, hne], rfl, rfl⟩
  | otherWidth widthBits off => exact absurd h nofun

/-- Without writes of `CTRL` a halted engine stays halted (60_exceptions.md R202), so a clean run never meets one. -/
theorem unhalted_of_cleanRun {as : List HostAccess} {s : State} (hctrl : ∀ v, HostAccess.write32 0x00C v ∉ as)
    (hclean : cleanRun as s = true) : s.halted = false := by
  induction as generalizing s with
  | nil => simpa [cleanRun] using hclean
  | cons a as ih =>
    obtain ⟨hd, t, ht, hrest⟩ := (cleanRun_cons_iff a as s).1 hclean
    have hunhalted : t.halted = false := ih (fun v hv => hctrl v (.tail _ hv)) hrest
    obtain hret | hhalt := hostAccess_retires_or_halts (fun v hv => hctrl v (hv ▸ .head _)) hd ht
    · rw [← hret.halted_eq, hunhalted]
    · simp [hunhalted] at hhalt

theorem retires_of_cleanRun {as : List HostAccess} {s u : State} (hctrl : ∀ v, HostAccess.write32 0x00C v ∉ as)
    (hclean : cleanRun as s = true) (hu : runProgram as s = .next u) : Retires (as.countP Claims.isCommand) s u := by
  induction as generalizing s with
  | nil =>
    obtain rfl : s = u := by simpa [runProgram] using hu
    exact ⟨by simp, rfl, rfl⟩
  | cons a as ih =>
    obtain ⟨hd, t, ht, hrest⟩ := (cleanRun_cons_iff a as s).1 hclean
    obtain ⟨t', ht', hu'⟩ := (runProgram_cons_next_iff a as s u).1 hu
    obtain rfl : t = t' := by simpa [ht] using ht'
    have hctrl' : ∀ v, HostAccess.write32 0x00C v ∉ as := fun v hv => hctrl v (.tail _ hv)
    have hunhalted : t.halted = false := unhalted_of_cleanRun hctrl' hrest
    obtain hret | hhalt := hostAccess_retires_or_halts (fun v hv => hctrl v (hv ▸ .head _)) hd ht
    · rw [← List.singleton_append, List.countP_append]
      exact hret.trans (ih hctrl' hrest hu')
    · simp [hunhalted] at hhalt

/-- Settles O17, by induction on the program: both sides split off the first access in the same way. -/
theorem cleanRunIsUnhaltedAndDropsNothing : Obligations.CleanRunIsUnhaltedAndDropsNothing :=
  cleanRun_iff

/-- Settles O58: a fault would halt the engine to the end of the run, so every command issued retires. -/
theorem cleanRunRetiresEveryCommand : Obligations.CleanRunRetiresEveryCommand := by
  intro as s t hctrl hclean ht
  obtain ⟨hseq, hstatus, hfault⟩ := retires_of_cleanRun hctrl hclean ht
  exact ⟨hseq, hstatus, hfault⟩

end Sys2Proof.Machine

/-! ## The binary extended GCD keeps its linear combinations (42_binary_extended_gcd.md R143) -/

namespace Sys2Proof.Machine

/-- Stripping keeps the products of the two values with the common factor. -/
theorem gcdStrip_mul (k : Nat) (x y g : Int) :
    (gcdStrip k x y g).1 * (gcdStrip k x y g).2.2 = x * g ∧
      (gcdStrip k x y g).2.1 * (gcdStrip k x y g).2.2 = y * g := by
  induction k generalizing x y g with
  | zero => exact ⟨rfl, rfl⟩
  | succ k ih =>
    rw [gcdStrip]
    split_ifs with h
    · simp only [Bool.and_eq_true, even_iff] at h
      obtain ⟨hx, hy⟩ := h
      rw [(ih _ _ _).1, (ih _ _ _).2, ← mul_assoc, ← mul_assoc, Int.ediv_mul_cancel (Int.dvd_of_emod_eq_zero hx),
        Int.ediv_mul_cancel (Int.dvd_of_emod_eq_zero hy)]
      exact ⟨rfl, rfl⟩
    · exact ⟨rfl, rfl⟩

/-- `k` passes of stripping are enough for a value below `2^k`. -/
theorem gcdStrip_not_both_even {k : Nat} {x : Int} (y g : Int) (hx : 0 < x) (hk : x < 2 ^ k) :
    ¬ ((gcdStrip k x y g).1 % 2 = 0 ∧ (gcdStrip k x y g).2.1 % 2 = 0) := by
  induction k generalizing x y g with
  | zero => omega
  | succ k ih =>
    rw [gcdStrip]
    split_ifs with h
    · simp only [Bool.and_eq_true, even_iff] at h
      exact ih _ _ (by omega) (by omega)
    · simpa [even_iff] using h

/-- When one of the coefficients of an even combination is odd, adding `ys` and subtracting `xs` makes both even. -/
theorem even_corrected {xs ys a b : Int} (hodd : ¬ (Even xs ∧ Even ys)) (hu : Even (a * xs + b * ys))
    (hab : ¬ (Even a ∧ Even b)) : Even (a + ys) ∧ Even (b - xs) := by
  simp only [Int.even_add, Int.even_mul] at hu
  rw [Int.even_add, Int.even_sub]
  tauto

/-- Halving an even value halves a combination of it whose coefficients are even. -/
theorem half_eq_combination {xs ys u a b : Int} (hu : Even u) (ha : Even a) (hb : Even b) (h : u = a * xs + b * ys) :
    u / 2 = a / 2 * xs + b / 2 * ys := by
  have h2 : 2 * (u / 2) = 2 * (a / 2 * xs + b / 2 * ys) := by
    rw [mul_add, ← mul_assoc, ← mul_assoc, Int.two_mul_ediv_two_of_even hu, Int.two_mul_ediv_two_of_even ha,
      Int.two_mul_ediv_two_of_even hb, h]
  exact mul_left_cancel₀ two_ne_zero h2

theorem gcdHalve_combination {xs ys : Int} (hodd : ¬ (xs % 2 = 0 ∧ ys % 2 = 0)) (k : Nat) {u a b : Int}
    (h : u = a * xs + b * ys) :
    (gcdHalve xs ys k u a b).1 = (gcdHalve xs ys k u a b).2.1 * xs + (gcdHalve xs ys k u a b).2.2 * ys := by
  induction k generalizing u a b with
  | zero => exact h
  | succ k ih =>
    simp only [← Int.even_iff] at hodd
    simp only [gcdHalve, Bool.and_eq_true, even_iff, ← Int.even_iff]
    split_ifs with hu hab
    · exact ih (half_eq_combination hu hab.1 hab.2 h)
    · obtain ⟨ha, hb⟩ := even_corrected hodd (h ▸ hu) hab
      exact ih (half_eq_combination hu ha hb (by linear_combination h))
    · exact h

/-- `u` and `v` are the combinations of `xs` and `ys` that their coefficients say (42_binary_extended_gcd.md R143, I1). -/
structure GcdState.Combines (xs ys : Int) (t : GcdState) : Prop where
  u : t.u = t.a * xs + t.b * ys
  v : t.v = t.c * xs + t.d * ys

theorem gcdStart_combines (xs ys : Int) : (gcdStart xs ys).Combines xs ys := by
  constructor <;> simp [gcdStart]

theorem gcdHalveBoth_combines {xs ys : Int} (hodd : ¬ (xs % 2 = 0 ∧ ys % 2 = 0)) {t : GcdState}
    (h : t.Combines xs ys) : (gcdHalveBoth xs ys t).Combines xs ys :=
  ⟨gcdHalve_combination hodd _ h.u, gcdHalve_combination hodd _ h.v⟩

theorem gcdSubtract_combines {xs ys : Int} {t : GcdState} (h : t.Combines xs ys) :
    (gcdSubtract t).Combines xs ys := by
  unfold gcdSubtract
  split_ifs
  · exact ⟨by linear_combination h.u - h.v, h.v⟩
  · exact ⟨h.u, by linear_combination h.v - h.u⟩

theorem gcdPass_combines {xs ys : Int} (hodd : ¬ (xs % 2 = 0 ∧ ys % 2 = 0)) {t : GcdState} (h : t.Combines xs ys) :
    (gcdPass xs ys t).Combines xs ys :=
  gcdSubtract_combines (gcdHalveBoth_combines hodd h)

theorem gcdLoop_combines {xs ys : Int} (hodd : ¬ (xs % 2 = 0 ∧ ys % 2 = 0)) (k : Nat) {t : GcdState}
    (h : t.Combines xs ys) : (gcdLoop xs ys k t).Combines xs ys := by
  induction k generalizing t with
  | zero => exact h
  | succ k ih =>
    rw [gcdLoop]
    split_ifs
    · exact gcdPass_combines hodd h
    · exact ih (gcdPass_combines hodd h)

theorem gcdRun_combines {xs ys : Int} (hodd : ¬ (xs % 2 = 0 ∧ ys % 2 = 0)) : (gcdRun xs ys).Combines xs ys :=
  gcdLoop_combines hodd _ (gcdStart_combines xs ys)

/-- What `egcd` answers is a combination of its arguments, which are positive (42_binary_extended_gcd.md R140). -/
theorem egcd_combination {x y g a b : Int} (h : egcd x y = .ok (g, a, b)) : 0 < x ∧ 0 < y ∧ a * x + b * y = g := by
  unfold egcd at h
  split_ifs at h with hneg
  obtain ⟨hx, hy⟩ : 0 < x ∧ 0 < y := by omega
  obtain ⟨hxs, hys⟩ := gcdStrip_mul (bitlen x) x y 1
  have hlt : x < 2 ^ bitlen x := by
    have := natAbs_lt_two_pow_bitlen x
    zify at this
    rwa [abs_of_pos hx] at this
  have hv := (gcdRun_combines (gcdStrip_not_both_even y 1 hx hlt)).v
  simp only [Except.ok.injEq, Prod.mk.injEq] at h
  obtain ⟨rfl, rfl, rfl⟩ := h
  exact ⟨hx, hy, by rw [hv]; linear_combination -(gcdRun _ _).c * hxs - (gcdRun _ _).d * hys⟩

/-! ## The context that `ctx_derive` gives (43_montgomery_context.md R150) -/

theorem radix_eq (w : Nat) (n : Int) : radix w n = 2 ^ (nwords w n * w) := pow2_eq _

/-- A positive value has a word, so its radix is even (10_state.md R27). -/
theorem two_dvd_radix {w : Nat} (hw : 0 < w) {n : Int} (hn : 0 < n) : 2 ∣ radix w n := by
  have hwords : nwords w n ≠ 0 := (nwords_eq_zero_iff hw n).not.2 hn.ne'
  rw [radix_eq]
  exact dvd_pow_self 2 (Nat.mul_ne_zero hwords hw.ne')

/-- `N_inv` from a Bézout pair: it lies in (0, R) and `N · N_inv ≡ −1 (mod R)` (43_montgomery_context.md R153). -/
theorem neg_emod_inverts {n r a b : Int} (hr : 1 < r) (h : a * n + b * r = 1) :
    0 < -a % r ∧ -a % r < r ∧ (n * (-a % r) + 1) % r = 0 := by
  have hr0 : r ≠ 0 := by omega
  have hinv : r ∣ n * (-a % r) + 1 := by
    refine ⟨b - n * (-a / r), ?_⟩
    linear_combination n * Int.emod_add_mul_ediv (-a) r - h
  have hne : -a % r ≠ 0 := by
    intro h0
    rw [h0, mul_zero, zero_add] at hinv
    exact absurd (Int.le_of_dvd one_pos hinv) (by omega)
  exact ⟨lt_of_le_of_ne (Int.emod_nonneg _ hr0) hne.symm, Int.emod_lt_of_pos _ (by omega), Int.emod_eq_zero_of_dvd hinv⟩

/-- A modulus coprime to its even radix is odd, and all lines of 10_state.md R27 hold. -/
theorem contextOf_valid {p : Params} {n a b : Int} (hn : 0 < n) (hfits : fits p n = true)
    (h : a * n + b * radix p.w n = 1) : (contextOf p.w n a).valid p := by
  have hr : 0 < radix p.w n := pow2_pos _
  have h2 := two_dvd_radix p.w_pos hn
  have hodd : n % 2 = 1 := by
    obtain ⟨q, hq⟩ := h2
    by_contra heven
    have hdvd : (2 : Int) ∣ a * n + b * radix p.w n :=
      dvd_add (dvd_mul_of_dvd_right (by omega) a) (dvd_mul_of_dvd_right ⟨q, hq⟩ b)
    omega
  have hinv := neg_emod_inverts (by have := Int.le_of_dvd hr h2; omega) h
  rw [← fmod_eq hr] at hinv
  exact ⟨hn, hodd, of_decide_eq_true hfits, rfl, rfl, fmod_eq hn _, fmod_eq hn _, hinv⟩

theorem ctxDerive_ok_iff (w : Nat) (n : Int) (c : Context) :
    ctxDerive w n = .ok c ↔ ∃ a b, egcd n (radix w n) = .ok (1, a, b) ∧ c = contextOf w n a := by
  unfold ctxDerive
  rcases egcd n (radix w n) with e | ⟨g, a, b⟩
  · simp
  · by_cases hg : g = 1 <;> simp [hg, eq_comm]

/-- Every context derived from a value that fits a register meets 10_state.md R27. -/
theorem ctxDerive_valid {p : Params} {n : Int} {c : Context} (hfits : fits p n = true)
    (h : ctxDerive p.w n = .ok c) : c.valid p := by
  obtain ⟨a, b, hegcd, rfl⟩ := (ctxDerive_ok_iff _ _ _).1 h
  obtain ⟨hn, -, hgcd⟩ := egcd_combination hegcd
  exact contextOf_valid hn hfits hgcd

end Sys2Proof.Machine

/-! ## What a command writes, and from what (10_state.md R41) -/

namespace Sys2Proof.Machine

open Claims

/-- The one write that ends a command which retires. -/
inductive Write where
  | nothing
  | reg (rd : RegIdx) (v : Int)
  | regs3 (rg rp rq : RegIdx) (u v w : Int)
  | ctx (cd : CtxIdx) (c : Option Context)
  | image (a : Nat) (v : Int)

/-- The state after the write. -/
def Write.apply : Write → State → State
  | .nothing, s => s
  | .reg rd v, s => s.setReg rd v
  | .regs3 rg rp rq u v w, s => ((s.setReg rg u).setReg rp v).setReg rq w
  | .ctx cd c, s => s.setCtx cd c
  | .image a v, s => { s with opmem := writeWords s.params s.opmem a (imageWords s.params v) }

/-- The writes a command can end with in the state `s`: to its own destinations, and within the bounds it has checked. -/
inductive CommandWrites (s : State) : Instr → Write → Prop
  | nothing : CommandWrites s .nop .nothing
  | reg {i rd v} (hregs : regDests i = [rd]) (hctxs : ctxDests i = []) (hfits : fits s.params v = true) :
    CommandWrites s i (.reg rd v)
  | regs3 {rg rp rq rx ry u v w} (hfits : fits s.params u = true ∧ fits s.params v = true ∧ fits s.params w = true) :
    CommandWrites s (.egcd rg rp rq rx ry) (.regs3 rg rp rq u v w)
  | derived {cd rn n c} (hn : s.reg rn = some n) (hc : ctxDerive s.params.w n = .ok c) :
    CommandWrites s (.ctxsetup cd rn) (.ctx cd (some c))
  | cleared {cd} : CommandWrites s (.ctxclr cd) (.ctx cd none)
  | image {rs imm20 v} (hv : s.reg rs = some v)
    (hend : imageEnd s.params imm20.toNat (nwords s.params.w v) ≤ s.params.memBytes) :
    CommandWrites s (.st rs imm20) (.image imm20.toNat v)

/-- The two states look the same to the command: same parameters, same sources. -/
structure AgreeOnSources (i : Instr) (s s' : State) : Prop where
  params : s'.params = s.params
  regs : ∀ j ∈ regSources i, s'.regs.get j = s.regs.get j
  ctxs : ∀ k ∈ ctxSources i, s'.ctxs.get k = s.ctxs.get k
  opmem : readsOpmem i = true → s'.opmem = s.opmem

theorem AgreeOnSources.refl (i : Instr) (s : State) : AgreeOnSources i s s :=
  ⟨rfl, fun _ _ => rfl, fun _ _ => rfl, fun _ => rfl⟩

theorem AgreeOnSources.readReg_eq {i : Instr} {s s' : State} (h : AgreeOnSources i s s') {j : RegIdx}
    (hj : j ∈ regSources i) : readReg s' j = readReg s j := by
  rw [readReg, readReg, State.reg, State.reg, h.regs j hj]

theorem AgreeOnSources.readCtx_eq {i : Instr} {s s' : State} (h : AgreeOnSources i s s') {k : CtxIdx}
    (hk : k ∈ ctxSources i) : readCtx s' k = readCtx s k := by
  rw [readCtx, readCtx, State.ctx, State.ctx, h.ctxs k hk]

/-- A load looks at the parameters and at OPMEM alone. -/
theorem loadImage_congr {s s' : State} (hp : s'.params = s.params) (hm : s'.opmem = s.opmem) (a : Nat) :
    loadImage s' a = loadImage s a := by
  have hword (j : Nat) : wordAt s' j = wordAt s j := by rw [wordAt, wordAt, hp, hm]
  have hmag (j k : Nat) : magnitudeAt s' j k = magnitudeAt s j k := magnitudeAt_congr hp fun _ _ => hword _
  simp only [loadImage_eq, imageMalformed, imageValue, hword, hmag, hp]

/-- The outcomes `r` in `s` and `r'` in `s'` are one error, or one write of the command. -/
def Alike (i : Instr) (s s' : State) (r r' : Except ErrorKind State) : Prop :=
  (∃ e, r = .error e ∧ r' = .error e) ∨ ∃ x, r = .ok (x.apply s) ∧ r' = .ok (x.apply s') ∧ CommandWrites s i x

theorem alike_ok {i : Instr} {x : Write} (s s' : State) (h : CommandWrites s i x) :
    Alike i s s' (.ok (x.apply s)) (.ok (x.apply s')) :=
  .inr ⟨x, rfl, rfl, h⟩

theorem alike_error (i : Instr) (s s' : State) (e : ErrorKind) : Alike i s s' (.error e) (.error e) :=
  .inl ⟨e, rfl, rfl⟩

/-- A check that answers the same in both states leaves the outcomes alike when what follows it does. -/
theorem alike_bind {α : Type} {i : Instr} {s s' : State} {x x' : Except ErrorKind α}
    {f f' : α → Except ErrorKind State} (hx : x' = x) (h : ∀ a, x = .ok a → Alike i s s' (f a) (f' a)) :
    Alike i s s' (x >>= f) (x' >>= f') := by
  subst hx
  cases x' with
  | error e => exact alike_error i s s' e
  | ok a => exact h a rfl

theorem alike_writeReg {i : Instr} {s s' : State} {rd : RegIdx} {v v' : Int} (hp : s'.params = s.params) (hv : v' = v)
    (hregs : regDests i = [rd]) (hctxs : ctxDests i = []) : Alike i s s' (writeReg s rd v) (writeReg s' rd v') := by
  rw [writeReg, writeReg, hp, hv]
  split_ifs with hfits
  · exact alike_ok s s' (.reg hregs hctxs hfits)
  · exact alike_error i s s' _

theorem alike_writeRegs3 {s s' : State} (hp : s'.params = s.params) (rg rp rq rx ry : RegIdx) (u v w : Int) :
    Alike (.egcd rg rp rq rx ry) s s' (writeRegs3 s rg rp rq u v w) (writeRegs3 s' rg rp rq u v w) := by
  rw [writeRegs3, writeRegs3, hp]
  split_ifs with hfits
  · simp only [Bool.and_eq_true, and_assoc] at hfits
    exact alike_ok s s' (.regs3 hfits)
  · exact alike_error _ s s' _

theorem alike_storeImage {s s' : State} (hp : s'.params = s.params) {rs : RegIdx} (imm20 : BitVec 20) {v : Int}
    (hv : s.reg rs = some v) : Alike (.st rs imm20) s s' (storeImage s imm20.toNat v) (storeImage s' imm20.toNat v) := by
  by_cases hend : imageEnd s.params imm20.toNat (nwords s.params.w v) ≤ s.params.memBytes
  · have hend' : imageEnd s'.params imm20.toNat (nwords s'.params.w v) ≤ s'.params.memBytes := by rwa [hp]
    exact .inr ⟨_, (storeImage_ok_iff _ _ _ _).2 ⟨hend, rfl⟩, (storeImage_ok_iff _ _ _ _).2 ⟨hend', rfl⟩, .image hv hend⟩
  · have hend' : s'.params.memBytes < imageEnd s'.params imm20.toNat (nwords s'.params.w v) := by
      rwa [hp, ← not_le]
    exact .inl ⟨_, (storeImage_error_iff _ _ _ _).2 ⟨not_le.1 hend, rfl⟩,
      (storeImage_error_iff _ _ _ _).2 ⟨hend', rfl⟩⟩

theorem alike_ctxAttribute {i : Instr} {s s' : State} {rd : RegIdx} {cs : CtxIdx} (h : AgreeOnSources i s s')
    (hcs : cs ∈ ctxSources i) (pick : Context → Int) (hregs : regDests i = [rd]) (hctxs : ctxDests i = []) :
    Alike i s s' (ctxAttribute s rd cs pick) (ctxAttribute s' rd cs pick) :=
  alike_bind (h.readCtx_eq hcs) fun _ _ => alike_writeReg h.params rfl hregs hctxs

/-- Every command is a sequence of checks and one write `W`, and `W` depends on the command's sources alone. -/
theorem exec_eq_complete_alike (i : Instr) : ∃ W : State → Except ErrorKind State,
    (∀ s, exec i s = complete (encode i) s (W s)) ∧ ∀ s s', AgreeOnSources i s s' → Alike i s s' (W s) (W s') := by
  cases i with
  | nop => exact ⟨_, fun _ => rfl, fun s s' _ => alike_ok s s' .nothing⟩
  | li rd imm20 => exact ⟨_, fun _ => rfl, fun _ _ h => alike_writeReg h.params rfl rfl rfl⟩
  | ld rd imm20 =>
    exact ⟨_, fun _ => rfl, fun _ _ h => alike_bind (loadImage_congr h.params (h.opmem rfl) _) fun _ _ =>
      alike_writeReg h.params rfl rfl rfl⟩
  | st rs imm20 =>
    exact ⟨_, fun _ => rfl, fun s _ h => alike_bind (h.readReg_eq (by simp [regSources])) fun v hv =>
      alike_storeImage h.params imm20 ((readReg_ok_iff s rs v).1 hv)⟩
  | sqr rd ra | shl rd ra imm16 | shr rd ra imm16 =>
    exact ⟨_, fun _ => rfl, fun _ _ h => alike_bind (h.readReg_eq (by simp [regSources])) fun _ _ =>
      alike_writeReg h.params rfl rfl rfl⟩
  | add rd ra rb | sub rd ra rb | mul rd ra rb =>
    exact ⟨_, fun _ => rfl, fun _ _ h => alike_bind (h.readReg_eq (by simp [regSources])) fun _ _ =>
      alike_bind (h.readReg_eq (by simp [regSources])) fun _ _ => alike_writeReg h.params rfl rfl rfl⟩
  | div rd ra rb | mod rd ra rb =>
    exact ⟨_, fun _ => rfl, fun _ _ h => alike_bind (h.readReg_eq (by simp [regSources])) fun _ _ =>
      alike_bind (h.readReg_eq (by simp [regSources])) fun _ _ => alike_bind rfl fun _ _ =>
      alike_writeReg h.params rfl rfl rfl⟩
  | modmul rd ra rb rm =>
    exact ⟨_, fun _ => rfl, fun _ _ h => alike_bind (h.readReg_eq (by simp [regSources])) fun _ _ =>
      alike_bind (h.readReg_eq (by simp [regSources])) fun _ _ =>
      alike_bind (h.readReg_eq (by simp [regSources])) fun _ _ => alike_bind rfl fun _ _ =>
      alike_writeReg h.params rfl rfl rfl⟩
  | egcd rg rp rq rx ry =>
    refine ⟨_, fun _ => rfl, fun s s' h => ?_⟩
    split
    · exact alike_bind (h.readReg_eq (by simp [regSources])) fun _ _ =>
        alike_bind (h.readReg_eq (by simp [regSources])) fun _ _ => alike_bind rfl fun _ _ =>
        alike_writeRegs3 h.params _ _ _ _ _ _ _ _
    · exact alike_error _ s s' _
  | ctxsetup cd rn =>
    exact ⟨_, fun _ => rfl, fun s s' h => alike_bind (h.readReg_eq (by simp [regSources])) fun n hn =>
      alike_bind (by rw [h.params]) fun c hc => alike_ok s s' (.derived ((readReg_ok_iff s rn n).1 hn) hc)⟩
  | ctxgetN rd cs | ctxgetNwords rd cs | ctxgetR rd cs | ctxgetRmodn rd cs | ctxgetR2modn rd cs | ctxgetNinv rd cs =>
    exact ⟨_, fun _ => rfl, fun _ _ h => alike_ctxAttribute h (by simp [ctxSources]) _ rfl rfl⟩
  | ctxclr cd => exact ⟨_, fun _ => rfl, fun s s' _ => alike_ok s s' .cleared⟩
  | montmul rd rx ry cs =>
    exact ⟨_, fun _ => rfl, fun _ _ h => alike_bind (h.readReg_eq (by simp [regSources])) fun _ _ =>
      alike_bind (h.readReg_eq (by simp [regSources])) fun _ _ =>
      alike_bind (h.readCtx_eq (by simp [ctxSources])) fun _ _ => alike_bind rfl fun _ _ => alike_bind rfl fun _ _ =>
      alike_writeReg h.params (by rw [h.params]) rfl rfl⟩
  | tomont rd ra cs | frommont rd ra cs =>
    exact ⟨_, fun _ => rfl, fun _ _ h => alike_bind (h.readReg_eq (by simp [regSources])) fun _ _ =>
      alike_bind (h.readCtx_eq (by simp [ctxSources])) fun _ _ => alike_bind rfl fun _ _ =>
      alike_writeReg h.params (by rw [h.params]) rfl rfl⟩
  | modexp rd rm re rn =>
    exact ⟨_, fun _ => rfl, fun _ _ h => alike_bind (h.readReg_eq (by simp [regSources])) fun _ _ =>
      alike_bind (h.readReg_eq (by simp [regSources])) fun _ _ =>
      alike_bind (h.readReg_eq (by simp [regSources])) fun _ _ => alike_bind (by rw [h.params]) fun _ _ =>
      alike_writeReg h.params rfl rfl rfl⟩

/-- In two states that agree on its sources a command raises one error, or retires with one write. -/
theorem exec_alike {i : Instr} {s s' : State} (h : AgreeOnSources i s s') :
    (∃ e, exec i s = .next (takeFault (encode i) e s) ∧ exec i s' = .next (takeFault (encode i) e s')) ∨
      ∃ x, exec i s = .next (retire (x.apply s)) ∧ exec i s' = .next (retire (x.apply s')) ∧ CommandWrites s i x := by
  obtain ⟨W, hW, halike⟩ := exec_eq_complete_alike i
  obtain ⟨e, he, he'⟩ | ⟨x, hx, hx', hwrites⟩ := halike s s' h
  · exact .inl ⟨e, by rw [hW, he, complete_error], by rw [hW, he', complete_error]⟩
  · exact .inr ⟨x, by rw [hW, hx, complete_ok], by rw [hW, hx', complete_ok], hwrites⟩

/-- Everything a command can do: it raises an error, or retires with one write to its destinations. -/
theorem exec_next {i : Instr} {s t : State} (h : exec i s = .next t) :
    (∃ e, t = takeFault (encode i) e s) ∨ ∃ x, t = retire (x.apply s) ∧ CommandWrites s i x := by
  obtain ⟨e, he, -⟩ | ⟨x, hx, -, hwrites⟩ := exec_alike (.refl i s)
  · exact .inl ⟨e, by simpa [he] using h.symm⟩
  · exact .inr ⟨x, by simpa [hx] using h.symm, hwrites⟩

end Sys2Proof.Machine

/-! ## What a write leaves unchanged, and what it determines -/

namespace Sys2Proof.Machine

open Claims

theorem Write.apply_keepsControl (x : Write) (s : State) : KeepsControl s (x.apply s) := by
  cases x <;> exact ⟨rfl, rfl, rfl, rfl, rfl, rfl⟩

section

variable {i : Instr} {s : State} {x : Write} (h : CommandWrites s i x)
include h

theorem CommandWrites.apply_regs_other {j : RegIdx} (hj : j ∉ regDests i) :
    (x.apply s).regs.get j = s.regs.get j := by
  cases h with
  | nothing | derived _ _ | cleared | image _ _ => rfl
  | reg hregs _ _ =>
    rw [hregs, List.mem_singleton] at hj
    exact State.setReg_reg_other s _ (Ne.symm hj)
  | regs3 _ =>
    simp only [regDests, List.mem_cons, List.not_mem_nil, or_false, not_or] at hj
    obtain ⟨hg, hp, hq⟩ := hj
    exact ((State.setReg_reg_other _ _ (Ne.symm hq)).trans (State.setReg_reg_other _ _ (Ne.symm hp))).trans
      (State.setReg_reg_other s _ (Ne.symm hg))

theorem CommandWrites.apply_ctxs_other {k : CtxIdx} (hk : k ∉ ctxDests i) :
    (x.apply s).ctxs.get k = s.ctxs.get k := by
  cases h with
  | nothing | reg _ _ _ | regs3 _ | image _ _ => rfl
  | derived _ _ | cleared =>
    rw [ctxDests, List.mem_singleton] at hk
    exact State.setCtx_ctx_other s _ (Ne.symm hk)

theorem CommandWrites.apply_opmem_outside {b : Nat} (hb : ¬ storesTo s.params s i b) :
    Memory.read (x.apply s).opmem b = Memory.read s.opmem b := by
  cases h with
  | nothing | reg _ _ _ | regs3 _ | derived _ _ | cleared => rfl
  | @image rs imm20 v hv _ =>
    have hrange : ¬ (wordAddress s.params imm20.toNat ≤ b ∧ b < imageEnd s.params imm20.toNat (nwords s.params.w v)) :=
      fun hin => hb ⟨rs, imm20, v, rfl, hv, hin⟩
    refine read_writeWords_outside s.params s.opmem ?_
    rw [imageWords_length, Nat.add_comm (nwords _ _), ← Nat.add_assoc]
    rw [wordAddress, imageEnd] at hrange
    omega

/-- The registers a command writes hold what the write says, whatever the state it is made in. -/
theorem CommandWrites.apply_regs_dest (s' : State) {j : RegIdx} (hj : j ∈ regDests i) :
    (x.apply s').regs.get j = (x.apply s).regs.get j := by
  cases h with
  | nothing | derived _ _ | cleared | image _ _ => exact absurd hj List.not_mem_nil
  | reg hregs _ _ =>
    rw [hregs, List.mem_singleton] at hj
    simp [Write.apply, vector_get_set, hj]
  | regs3 _ =>
    simp only [regDests, List.mem_cons, List.not_mem_nil, or_false] at hj
    simp only [Write.apply, State.setReg_regs, vector_get_set]
    rcases hj with rfl | rfl | rfl <;> simp

theorem CommandWrites.apply_ctxs_dest (s' : State) {k : CtxIdx} (hk : k ∈ ctxDests i) :
    (x.apply s').ctxs.get k = (x.apply s).ctxs.get k := by
  cases h with
  | nothing | regs3 _ | image _ _ => exact absurd hk List.not_mem_nil
  | reg _ hctxs _ => simp [hctxs] at hk
  | derived _ _ | cleared =>
    rw [ctxDests, List.mem_singleton] at hk
    simp [Write.apply, vector_get_set, hk]

end

/-- The bytes of stored words do not depend on what OPMEM held before. -/
theorem read_writeWords_inside_congr (p : Params) {m m' : Memory} (hm : Memory.wf m = true) (hm' : Memory.wf m' = true)
    {a b : Nat} {xs : List Nat} (ha : a * p.wb ≤ b) (hb : b < (a + xs.length) * p.wb) :
    Memory.read (writeWords p m a xs) b = Memory.read (writeWords p m' a xs) b := by
  induction xs generalizing m m' a with
  | nil =>
    rw [List.length_nil, Nat.add_zero] at hb
    omega
  | cons x xs ih =>
    rw [writeWords, writeWords]
    rcases Nat.lt_or_ge b ((a + 1) * p.wb) with hfirst | hrest
    · obtain ⟨j, rfl⟩ := Nat.exists_eq_add_of_le ha
      have hj : j < p.wb := by
        rw [Nat.succ_mul] at hfirst
        omega
      rw [read_writeWords_outside _ _ (.inl hfirst), read_writeWords_outside _ _ (.inl hfirst), wordAddress,
        Memory.read_writeLE_inside hm _ _ hj, Memory.read_writeLE_inside hm' _ _ hj]
    · refine ih (Memory.writeLE_wf hm _ _ _) (Memory.writeLE_wf hm' _ _ _) hrest ?_
      rwa [Nat.add_right_comm, Nat.add_assoc]

theorem CommandWrites.apply_opmem_inside {i : Instr} {s s' : State} {x : Write} (h : CommandWrites s i x)
    (hp : s'.params = s.params) (hm : Memory.wf s.opmem = true) (hm' : Memory.wf s'.opmem = true) {b : Nat}
    (hb : storesTo s.params s i b) : Memory.read (x.apply s').opmem b = Memory.read (x.apply s).opmem b := by
  obtain ⟨rs, imm20, v, rfl, hv, hlo, hhi⟩ := hb
  cases h with
  | reg hregs _ _ => exact absurd hregs (List.cons_ne_nil _ _).symm
  | image hv' _ =>
    obtain rfl := Option.some.inj (hv.symm.trans hv')
    simp only [Write.apply, hp]
    refine read_writeWords_inside_congr s.params hm' hm hlo ?_
    rwa [imageWords_length, Nat.add_comm (nwords _ _), ← Nat.add_assoc]

/-- Settles O27, by the frame of the one write a command makes. -/
theorem commandWritesOnlyItsDestinations : Obligations.CommandWritesOnlyItsDestinations := by
  intro i s t h
  obtain ⟨e, rfl⟩ | ⟨x, rfl, hwrites⟩ := exec_next h
  · exact ⟨fun _ _ => rfl, fun _ _ => rfl, fun _ _ => rfl⟩
  · exact ⟨fun _ => hwrites.apply_regs_other, fun _ => hwrites.apply_ctxs_other, fun _ => hwrites.apply_opmem_outside⟩

/-- Settles O28: states that agree on the sources lead to the same write. -/
theorem commandReadsOnlyItsSources : Obligations.CommandReadsOnlyItsSources := by
  intro i s s' hp hregs hctxs hopmem hm hm'
  obtain ⟨e, he, he'⟩ | ⟨x, hx, hx', hwrites⟩ := exec_alike ⟨hp, hregs, hctxs, hopmem⟩
  · exact .inl ⟨e.code, he, he'⟩
  · refine .inr ⟨_, _, hx, hx', ?_, ?_, fun _ => hwrites.apply_regs_dest s', fun _ => hwrites.apply_ctxs_dest s',
      fun _ => hwrites.apply_opmem_inside hp hm hm'⟩
    · rw [retire_cmdseq, (x.apply_keepsControl s).cmdseq]
    · rw [retire_cmdseq, (x.apply_keepsControl s').cmdseq]

end Sys2Proof.Machine

/-! ## Everything a step can do -/

namespace Sys2Proof.Machine

theorem writeCtrl_next_cases {v : Word32} {s t : State} (h : writeCtrl v s = .next t) :
    ((v = 2 ∨ v = 3) ∧ t = softReset s) ∨ (v = 1 ∧ t = clearFault s) ∨ (v = 0 ∧ t = s) := by
  rw [writeCtrl, bits, bits, bits] at h
  split_ifs at h with hreserved hreset hclear <;> obtain rfl := Host.Outcome.next.inj h
  · exact .inl ⟨by bv_omega, rfl⟩
  · exact .inr (.inl ⟨by bv_omega, rfl⟩)
  · exact .inr (.inr ⟨by bv_omega, rfl⟩)

/-- The states a step can lead to, by the oldest pending access and what it does. -/
inductive StepTo (s : State) : State → Prop
  | idle (hpending : s.pending = []) : StepTo s s
  | read {off v rest} (hpending : s.pending = .read32 off :: rest) : StepTo s (reply { s with pending := rest } v)
  | dropped {cw rest} (hpending : s.pending = .write32 0x004 cw :: rest) (hhalted : s.halted = true) :
    StepTo s { s with pending := rest }
  | retired {cw rest i x} (hpending : s.pending = .write32 0x004 cw :: rest) (hhalted : s.halted = false)
    (hwrites : CommandWrites { s with pending := rest } i x) : StepTo s (retire (x.apply { s with pending := rest }))
  | faulted {cw rest e} (hpending : s.pending = .write32 0x004 cw :: rest) (hhalted : s.halted = false) (cw' : Word32) :
    StepTo s (takeFault cw' e { s with pending := rest })
  | reset {v rest} (hpending : s.pending = .write32 0x00C v :: rest) (hv : v = 2 ∨ v = 3) :
    StepTo s (softReset { s with pending := rest })
  | cleared {rest} (hpending : s.pending = .write32 0x00C 1 :: rest) : StepTo s (clearFault { s with pending := rest })
  | ctrlZero {rest} (hpending : s.pending = .write32 0x00C 0 :: rest) : StepTo s { s with pending := rest }
  | stored {off v rest} (hpending : s.pending = .write32 off v :: rest)
    (hend : off - imageBase + 4 ≤ s.params.memBytes) :
    StepTo s { s with pending := rest, opmem := Memory.writeLE s.opmem (off - imageBase) 4 v.toNat }

theorem stepTo_of_issue {s t : State} {cw : Word32} {rest : List HostAccess}
    (hpending : s.pending = .write32 0x004 cw :: rest) (h : issue cw { s with pending := rest } = .next t) :
    StepTo s t := by
  obtain ⟨hhalted, rfl⟩ | ⟨hhalted, i, -, hexec⟩ | ⟨hhalted, -, rfl⟩ := issue_next h
  · exact .dropped hpending hhalted
  · obtain ⟨e, rfl⟩ | ⟨x, rfl, hwrites⟩ := exec_next hexec
    · exact .faulted hpending hhalted _
    · exact .retired hpending hhalted hwrites
  · exact .faulted hpending hhalted cw

theorem stepTo_of_writeCtrl {s t : State} {v : Word32} {rest : List HostAccess}
    (hpending : s.pending = .write32 0x00C v :: rest) (h : writeCtrl v { s with pending := rest } = .next t) :
    StepTo s t := by
  obtain ⟨hv, rfl⟩ | ⟨rfl, rfl⟩ | ⟨rfl, rfl⟩ := writeCtrl_next_cases h
  · exact .reset hpending hv
  · exact .cleared hpending
  · exact .ctrlZero hpending

theorem stepTo_of_step {s t : State} (h : step s = .next t) : StepTo s t := by
  cases hpending : s.pending with
  | nil =>
    obtain rfl : s = t := by simpa [step_idle hpending] using h
    exact .idle hpending
  | cons a rest =>
    rw [step_access hpending] at h
    cases a with
    | read32 off =>
      obtain ⟨v, rfl⟩ := hostRead_next h
      exact .read hpending
    | write32 off v =>
      obtain ⟨rfl, hissue⟩ | ⟨rfl, hctrl⟩ | ⟨-, hend, rfl⟩ := hostWrite_next h
      · exact stepTo_of_issue hpending hissue
      · exact stepTo_of_writeCtrl hpending hctrl
      · exact .stored hpending hend
    | otherWidth widthBits off => exact absurd h nofun

/-! ## What every step keeps -/

theorem StepTo.params_eq {s t : State} (h : StepTo s t) : t.params = s.params := by
  cases h with
  | retired _ _ _ => exact (Write.apply_keepsControl _ _).params
  | _ => rfl

theorem StepTo.statusLegal {s t : State} (h : StepTo s t) (hs : s.statusLegal) : t.statusLegal := by
  cases h with
  | retired _ _ _ => exact statusLegal_of_status_eq (Write.apply_keepsControl _ _).status hs
  | faulted _ _ cw => exact takeFault_statusLegal cw _ _
  | reset _ _ | cleared _ => exact statusLegal_of_status_zero rfl
  | idle _ | read _ | dropped _ _ | ctrlZero _ | stored _ _ => exact hs

theorem State.regsFit.setReg {s : State} (hs : s.regsFit) (i : RegIdx) {v : Int} (hv : fits s.params v = true) :
    (s.setReg i v).regsFit := by
  intro j
  rw [State.setReg_regs, vector_get_set]
  split_ifs
  · simpa using hv
  · exact hs j

theorem CommandWrites.apply_regsFit {i : Instr} {s : State} {x : Write} (h : CommandWrites s i x) (hs : s.regsFit) :
    (x.apply s).regsFit := by
  cases h with
  | nothing | derived _ _ | cleared | image _ _ => exact hs
  | reg _ _ hfits => exact hs.setReg _ hfits
  | regs3 hfits =>
    obtain ⟨hu, hv, hw⟩ := hfits
    exact State.regsFit.setReg (State.regsFit.setReg (hs.setReg _ hu) _ hv) _ hw

theorem StepTo.regsFit {s t : State} (h : StepTo s t) (hs : s.regsFit) : t.regsFit := by
  cases h with
  | retired _ _ hwrites => exact hwrites.apply_regsFit hs
  | reset _ _ =>
    intro j
    simp
  | idle _ | read _ | dropped _ _ | faulted _ _ _ | cleared _ | ctrlZero _ | stored _ _ => exact hs

theorem State.ctxsValid.setCtx {s : State} (hs : s.ctxsValid) (k : CtxIdx) {c : Option Context}
    (hc : ∀ c', c = some c' → c'.valid s.params) : (s.setCtx k c).ctxsValid := by
  intro j
  rw [State.setCtx_ctxs, vector_get_set]
  split_ifs
  · cases c with
    | none => rfl
    | some c' => exact decide_eq_true (hc c' rfl)
  · exact hs j

theorem State.regsFit.fits_of_reg {s : State} (hs : s.regsFit) {i : RegIdx} {v : Int} (hv : s.reg i = some v) :
    fits s.params v = true := by
  have hi := hs i
  rwa [show s.regs.get i = some v from hv, Option.all_some] at hi

/-- CTXSETUP derives its context from a register, which is why the registers have to fit. -/
theorem CommandWrites.apply_ctxsValid {i : Instr} {s : State} {x : Write} (h : CommandWrites s i x) (hfit : s.regsFit)
    (hs : s.ctxsValid) : (x.apply s).ctxsValid := by
  cases h with
  | nothing | reg _ _ _ | regs3 _ | image _ _ => exact hs
  | cleared => exact hs.setCtx _ nofun
  | derived hn hc =>
    refine hs.setCtx _ ?_
    rintro _ ⟨⟩
    exact ctxDerive_valid (hfit.fits_of_reg hn) hc

theorem StepTo.ctxsValid {s t : State} (h : StepTo s t) (hfit : s.regsFit) (hs : s.ctxsValid) : t.ctxsValid := by
  cases h with
  | retired _ _ hwrites => exact hwrites.apply_ctxsValid hfit hs
  | reset _ _ =>
    intro k
    simp
  | idle _ | read _ | dropped _ _ | faulted _ _ _ | cleared _ | ctrlZero _ | stored _ _ => exact hs

theorem CommandWrites.apply_opmemLegal {i : Instr} {s : State} {x : Write} (h : CommandWrites s i x)
    (hs : s.opmemLegal) : (x.apply s).opmemLegal := by
  cases h with
  | nothing | reg _ _ _ | regs3 _ | derived _ _ | cleared => exact hs
  | image _ hend =>
    obtain ⟨hwf, hwithin⟩ := hs
    refine ⟨writeWords_wf _ hwf _ _, writeWords_within _ hwithin ?_⟩
    rwa [imageWords_length, Nat.add_comm (nwords _ _), ← Nat.add_assoc]

theorem StepTo.opmemLegal {s t : State} (h : StepTo s t) (hs : s.opmemLegal) : t.opmemLegal := by
  cases h with
  | retired _ _ hwrites => exact hwrites.apply_opmemLegal hs
  | stored _ hend =>
    obtain ⟨hwf, hwithin⟩ := hs
    exact ⟨Memory.writeLE_wf hwf _ _ _, Memory.writeLE_within hwithin _ hend⟩
  | idle _ | read _ | dropped _ _ | faulted _ _ _ | reset _ _ | cleared _ | ctrlZero _ => exact hs

/-- Settles O20: each part of the invariant is kept by everything a step can do. -/
theorem stepKeepsLegalState : Obligations.StepKeepsLegalState := by
  intro s t hinv h
  have hstep := stepTo_of_step h
  obtain ⟨hparams, hregs, hctxs, hstatus, hopmem⟩ := hinv
  refine ⟨?_, hstep.regsFit hregs, hstep.ctxsValid hregs hctxs, hstep.statusLegal hstatus, hstep.opmemLegal hopmem⟩
  rw [hstep.params_eq, hparams]

/-- Settles O23: the one command that sets a context derives it from a register that fits. -/
theorem stepKeepsContextsValid : Obligations.StepKeepsContextsValid :=
  fun _ _ hregs hctxs h => (stepTo_of_step h).ctxsValid hregs hctxs

/-- Settles O16: of everything a step can do, only a retirement and a soft reset touch `CMDSEQ`. -/
theorem cmdseqCountsRetirements : Obligations.CmdseqCountsRetirements := by
  intro s t h
  cases stepTo_of_step h with
  | @retired cw rest i x hpending hhalted _ =>
    have hkeeps := x.apply_keepsControl { s with pending := rest }
    refine .inr (.inl ⟨cw, rest, hpending, hhalted, hkeeps.status, ?_⟩)
    rw [retire_cmdseq, hkeeps.cmdseq]
    exact BitVec.eq_of_toNat_eq (by simp)
  | @reset v rest hpending hv => exact .inr (.inr ⟨v, rest, hpending, hv, rfl⟩)
  | idle _ | read _ | dropped _ _ | faulted _ _ _ | cleared _ | ctrlZero _ | stored _ _ => exact .inl rfl

/-- Settles O21: a step leaves `STATUS` alone, records one error, or clears it. -/
theorem stepKeepsStatusLegal : Obligations.StepKeepsStatusLegal :=
  fun _ _ hs h => (stepTo_of_step h).statusLegal hs

/-- Settles O22: every register write is checked against the capacity. -/
theorem stepKeepsRegistersWithinCapacity : Obligations.StepKeepsRegistersWithinCapacity :=
  fun _ _ hs h => (stepTo_of_step h).regsFit hs

/-- Settles O25, by the cases of a step: none of them has an update of the parameters. -/
theorem stepKeepsParameters : Obligations.StepKeepsParameters :=
  fun _ _ h => (stepTo_of_step h).params_eq

/-! ## Host reads and the reset values -/

theorem hostRead_register {s : State} {off : Nat} {v : Word32} (hv : registerValue s off = some v)
    (halign : off % 4 = 0) (hoff : off < imageBase) : hostRead off s = .next (reply s v) := by
  simp [hostRead, halign, hoff, hv]

/-- Settles O11, by the map of the registers. -/
theorem hostReadsReturnRegisters : Obligations.HostReadsReturnRegisters := by
  intro s off v rest hpending hmem
  have hmap : registerValue { s with pending := rest } off = some v ∧ off % 4 = 0 ∧ off < imageBase := by
    simp only [List.mem_cons, Prod.mk.injEq, List.not_mem_nil, or_false] at hmem
    rcases hmem with ⟨rfl, rfl⟩ | ⟨rfl, rfl⟩ | ⟨rfl, rfl⟩ | ⟨rfl, rfl⟩ | ⟨rfl, rfl⟩ | ⟨rfl, rfl⟩ | ⟨rfl, rfl⟩ | ⟨rfl, rfl⟩
    all_goals exact ⟨rfl, by decide, by decide⟩
  obtain ⟨hv, halign, hoff⟩ := hmap
  rw [step_access hpending]
  exact hostRead_register hv halign hoff

/-- Settles O18, by the fields of the reset state. -/
theorem resetLeavesNothingWritten : Obligations.ResetLeavesNothingWritten :=
  ⟨fun p m => ⟨State.resetWith_reg p m, State.resetWith_ctx p m, rfl, rfl, rfl, rfl, rfl⟩, rfl⟩

end Sys2Proof.Machine

/-! ## The host's accesses to the window (20_memory.md R58 to R63) -/

namespace Sys2Proof.Machine

open Claims

section

variable {s : State} {off q : Nat}

@[simp] theorem image_offset_mod_four : (imageBase + q) % 4 = q % 4 := by
  rw [imageBase]
  omega

/-- The offsets between the registers and the image are reserved (20_memory.md R51, R63). -/
theorem hostRead_reserved (halign : off % 4 = 0) (hlo : 0x020 ≤ off) (hhi : off < imageBase) :
    hostRead off s = .refused (.reservedOffset off) := by
  simp [hostRead, halign, hhi, registerValue_none hlo]

theorem hostRead_image (halign : q % 4 = 0) (hend : q + 4 ≤ s.params.memBytes) :
    hostRead (imageBase + q) s = .next (reply s (BitVec.ofNat 32 (Memory.readLE s.opmem q 4))) := by
  simp [hostRead, halign, (memRead_ok_iff s q 4 _).2 ⟨hend, rfl⟩]

theorem hostRead_beyond_image (halign : q % 4 = 0) (hend : s.params.memBytes < q + 4) :
    hostRead (imageBase + q) s = .fault (.noSuchOffset (imageBase + q)) := by
  simp [hostRead, halign, (memRead_error_iff s q 4 _).2 ⟨hend, rfl⟩]

theorem hostWrite_image (v : Word32) (halign : q % 4 = 0) (hend : q + 4 ≤ s.params.memBytes) :
    hostWrite (imageBase + q) v s = .next { s with opmem := Memory.writeLE s.opmem q 4 v.toNat } := by
  have hbase : (0x020 : Nat) ≤ imageBase := by decide
  rw [hostWrite, if_neg (by simp [halign]), if_neg (by omega), if_neg (by omega), if_neg (by omega), if_neg (by omega),
    Nat.add_sub_cancel_left, (memWrite_ok_iff s _ _ _ _).2 ⟨hend, rfl⟩]

/-- The reads with a step: of a register, or of four bytes of OPMEM. -/
theorem hostRead_hasStep_iff :
    (∃ t, hostRead off s = .next t) ↔
      off % 4 = 0 ∧ (off < 0x020 ∨ imageBase ≤ off ∧ off - imageBase + 4 ≤ s.params.memBytes) := by
  have hbase : (0x020 : Nat) ≤ imageBase := by decide
  by_cases halign : off % 4 = 0
  case neg => simp [hostRead, halign]
  obtain hlt | hge := Nat.lt_or_ge off imageBase
  · obtain hreg | hreserved := Nat.lt_or_ge off 0x020
    · obtain ⟨v, hv⟩ := registerValue_isSome (s := s) halign hreg
      simp [hostRead_register hv halign hlt, halign, hreg]
    · simp [hostRead_reserved halign hreserved hlt, hreserved, hlt]
  · obtain ⟨q, rfl⟩ := Nat.exists_eq_add_of_le hge
    have hq : q % 4 = 0 := by simpa using halign
    have hreg : ¬ imageBase + q < 0x020 := by omega
    obtain hbeyond | hend := Nat.lt_or_ge s.params.memBytes (q + 4)
    · simp [hostRead_beyond_image hq hbeyond, hreg, hbeyond]
    · simp [hostRead_image hq hend, hq, hend]

end

/-- Command issue always has a next state: the command is dropped, or retires, or raises (60_exceptions.md R204). -/
theorem issue_hasStep (cw : Word32) (s : State) : ∃ t, issue cw s = .next t := by
  cases hhalted : s.halted with
  | true => exact ⟨s, issue_halted cw hhalted⟩
  | false =>
    cases hdecode : decode cw with
    | error d => exact ⟨_, issue_illegal hhalted hdecode⟩
    | ok i =>
      rw [issue_decoded hhalted hdecode]
      obtain ⟨u, hexec, -⟩ | ⟨e, hexec⟩ := exec_retires_or_faults i s
      · exact ⟨_, hexec⟩
      · exact ⟨_, hexec⟩

/-- A write of `CTRL` has a step exactly when bits 31:2 are 0 (10_state.md R36). -/
theorem writeCtrl_hasStep_iff (v : Word32) (s : State) : (∃ t, writeCtrl v s = .next t) ↔ v.toNat < 4 := by
  have hreserved : bits v 31 2 = 0 ↔ v.toNat < 4 := by
    rw [bits]
    bv_omega
  rw [← hreserved, writeCtrl]
  by_cases hbits : bits v 31 2 = 0
  · rw [if_neg (not_not_intro hbits), iff_true_right hbits]
    split_ifs <;> exact ⟨_, rfl⟩
  · simp [hbits]

/-- The writes with a step: of `CMD`, of `CTRL` without reserved bits, or of four bytes of OPMEM. -/
theorem hostWrite_hasStep_iff {s : State} {off : Nat} (v : Word32) :
    (∃ t, hostWrite off v s = .next t) ↔
      off % 4 = 0 ∧ (off = 0x004 ∨ (off = 0x00C ∧ v.toNat < 4) ∨
        imageBase ≤ off ∧ off - imageBase + 4 ≤ s.params.memBytes) := by
  constructor
  · rintro ⟨t, h⟩
    have halign : off % 4 = 0 := by
      by_contra hmis
      simp [hostWrite, hmis] at h
    obtain ⟨hcmd, -⟩ | ⟨hctrl, hstep⟩ | ⟨hlo, hend, -⟩ := hostWrite_next h
    · exact ⟨halign, .inl hcmd⟩
    · exact ⟨halign, .inr (.inl ⟨hctrl, (writeCtrl_hasStep_iff v s).1 ⟨t, hstep⟩⟩)⟩
    · exact ⟨halign, .inr (.inr ⟨hlo, hend⟩)⟩
  · rintro ⟨halign, rfl | ⟨rfl, hv⟩ | ⟨hlo, hend⟩⟩
    · exact issue_hasStep v s
    · exact (writeCtrl_hasStep_iff v s).2 hv
    · obtain ⟨q, rfl⟩ := Nat.exists_eq_add_of_le hlo
      exact ⟨_, hostWrite_image v (by simpa using halign) (by simpa using hend)⟩

theorem memBytes_mod_four {p : Params} (h : p.wf = true) : p.memBytes % 4 = 0 := by
  simp only [Params.wf, Bool.and_eq_true, decide_eq_true_eq] at h
  omega

/-- `MEM_BYTES` is a multiple of 4, so an aligned offset inside the image has all its four bytes there. -/
theorem image_word_fits_iff {p : Params} (h : p.wf = true) {off : Nat} (halign : off % 4 = 0) :
    (imageBase ≤ off ∧ off - imageBase + 4 ≤ p.memBytes) ↔ 0x1000 ≤ off ∧ off < 0x1000 + p.memBytes := by
  have hsize := memBytes_mod_four h
  rw [imageBase]
  omega

/-- Settles O10, kind of access by kind: the widths refused, the reads with a step, the writes with a step. -/
theorem accessHasStepExactlyWhenAdmitted : Obligations.AccessHasStepExactlyWhenAdmitted := by
  intro s a rest hwf hpending
  rw [step_access hpending]
  cases a with
  | otherWidth widthBits off => simp [hostAccess, Admitted]
  | read32 off =>
    rw [hostAccess, hostRead_hasStep_iff, Admitted]
    exact and_congr_right fun halign => or_congr_right (image_word_fits_iff hwf halign)
  | write32 off v =>
    rw [hostAccess, hostWrite_hasStep_iff, Admitted]
    exact and_congr_right fun halign => or_congr_right (or_congr_right (image_word_fits_iff hwf halign))

/-- Settles O12: the four bytes read are the sum of R54. -/
theorem hostReadOfOpmemReturnsBytes : Obligations.HostReadOfOpmemReturnsBytes := by
  intro s q rest hpending halign hend
  rw [step_access hpending, byteSum, ← Memory.readLE_eq_sum]
  exact hostRead_image halign hend

/-- Settles O13, by what a store leaves inside and outside its own bytes. -/
theorem hostWriteOfOpmemStoresBytes : Obligations.HostWriteOfOpmemStoresBytes := by
  intro s q v rest hpending halign hend hwf
  refine ⟨Memory.writeLE s.opmem q 4 v.toNat, ?_, fun j hj => Memory.read_writeLE_inside hwf q _ hj,
    fun b hb => Memory.read_writeLE_outside _ _ hb⟩
  rw [step_access hpending]
  exact hostWrite_image v halign hend

/-- Settles O24: of everything a step can do, only ST and a write of the image store, and both inside OPMEM. -/
theorem stepKeepsOpmemCanonical : Obligations.StepKeepsOpmemCanonical :=
  fun _ _ hs h => (stepTo_of_step h).opmemLegal hs

end Sys2Proof.Machine

/-! ## The decoder's rejections and the examples of 30_encoding.md R93 -/

namespace Sys2Proof.Machine

theorem requireZero_of_ne_zero {z : Nat} (i : Instr) (h : z ≠ 0) : requireZero z i = .error .nonZeroField :=
  if_neg h

theorem decodeCtxget_of_reserved {cw : Word32} (h : 6 ≤ bits cw 15 12) :
    decodeCtxget cw = .error .reservedSelector := by
  unfold decodeCtxget
  split
  case h_7 => rfl
  all_goals omega

theorem decodeEgcd_of_repeated {cw : Word32}
    (h : distinctDestinations (regField cw 20) (regField cw 16) (regField cw 12) = false) :
    decodeEgcd cw = .error .repeatedDestination := by
  simp [decodeEgcd, h]

/-- Settles O5. A worked word is read off field by field; an illegal one is rejected for the reason R93 gives: bit 0 of
ADD, selector 6 of CTXGET, bit 22 of CTXSETUP, `rg = rp` of EGCD, opcode 0x04, bit 0 of NOP. -/
theorem workedEncodingsDecode : Obligations.WorkedEncodingsDecode := by
  refine ⟨by decide, ?add, ?ctxget, ?ctxsetup, ?egcd, ?opcode, ?nop⟩
  case add => exact requireZero_of_ne_zero (z := bits 0x10312001 11 0) _ (by decide)
  case ctxget => exact decodeCtxget_of_reserved (cw := 0x22716000) (by decide)
  case ctxsetup => exact requireZero_of_ne_zero (z := bits 0x21420000 23 22 + bits 0x21420000 15 0) _ (by decide)
  case egcd => exact decodeEgcd_of_repeated (cw := 0x20224010) (by decide)
  case opcode => rfl
  case nop => exact requireZero_of_ne_zero (z := bits 0x00000001 23 0) _ (by decide)

end Sys2Proof.Machine

/-! ## Data movement (40_data_movement.md) -/

namespace Sys2Proof.Machine

open Claims

/-! ### The words of format I (30_encoding.md R82) -/

section

variable {opcode : Nat} (hop : opcode < 2 ^ 8) (r : RegIdx) (imm20 : BitVec 20)
include hop

theorem opcode_formatI : bits (formatI opcode r imm20) 31 24 = opcode := by
  rw [bits_formatI r imm20 hop]
  omega

theorem regField_formatI : regField (formatI opcode r imm20) 20 = r := by
  rw [regField, bits_formatI r imm20 hop]
  apply Fin.ext
  rw [Fin.val_ofNat]
  omega

theorem imm20Field_formatI : imm20Field (formatI opcode r imm20) = imm20 := by
  rw [imm20Field, bits_formatI r imm20 hop]
  apply BitVec.eq_of_toNat_eq
  rw [BitVec.toNat_ofNat]
  omega

end

theorem hasWord_li (rd : RegIdx) (imm20 : BitVec 20) :
    HasWord (.li rd imm20) (0x01000000 + rd.val * 2 ^ 20 + imm20.toNat) := by
  refine ⟨rfl, ?_⟩
  change decode (formatI 0x01 rd imm20) = _
  simp (disch := decide) only [decode, opcode_formatI, regField_formatI, imm20Field_formatI]

theorem hasWord_ld (rd : RegIdx) (imm20 : BitVec 20) :
    HasWord (.ld rd imm20) (0x02000000 + rd.val * 2 ^ 20 + imm20.toNat) := by
  refine ⟨rfl, ?_⟩
  change decode (formatI 0x02 rd imm20) = _
  simp (disch := decide) only [decode, opcode_formatI, regField_formatI, imm20Field_formatI]

theorem hasWord_st (rs : RegIdx) (imm20 : BitVec 20) :
    HasWord (.st rs imm20) (0x03000000 + rs.val * 2 ^ 20 + imm20.toNat) := by
  refine ⟨rfl, ?_⟩
  change decode (formatI 0x03 rs imm20) = _
  simp (disch := decide) only [decode, opcode_formatI, regField_formatI, imm20Field_formatI]

/-! ### The two ends of a command, as the claims say them -/

section

variable {i : Instr} {s : State} {rd : RegIdx} {v : Int}

theorem raises_of_exec_eq {e : ErrorKind} (h : exec i s = complete (encode i) s (.error e)) : Raises i s e.code := h

theorem retiresToReg_of_exec_eq (h : exec i s = complete (encode i) s (writeReg s rd v)) (hfits : fits s.params v = true) :
    RetiresToReg i s rd v := by
  rw [RetiresToReg, h, writeReg_fits rd hfits]
  rfl

theorem exceeds_of_exec_eq (h : exec i s = complete (encode i) s (writeReg s rd v)) (hfits : ¬ fits s.params v = true) :
    Raises i s 8 := by
  rw [(writeReg_error_iff s rd v .capacityExceeded).2 ⟨Bool.eq_false_of_not_eq_true hfits, rfl⟩] at h
  exact raises_of_exec_eq h

/-- A command that ends in a register write meets its claim (10_state.md R25). -/
theorem writesOrExceeds_of_exec_eq (h : exec i s = complete (encode i) s (writeReg s rd v)) :
    WritesOrExceeds i s rd v :=
  ⟨fun hv => retiresToReg_of_exec_eq h ((fits_iff _ _).2 hv), fun hv => exceeds_of_exec_eq h (mt (fits_iff _ _).1 hv)⟩

end

/-- Settles O30: NOP retires the state it is given. -/
theorem nopOnlyCounts : Obligations.NopOnlyCounts :=
  ⟨⟨rfl, rfl⟩, fun _ => rfl⟩

/-- Settles O31: LI is one register write. -/
theorem liLoadsImmediate : Obligations.LiLoadsImmediate :=
  fun _ rd imm20 => ⟨hasWord_li rd imm20, writesOrExceeds_of_exec_eq rfl⟩

/-! ### LD (40_data_movement.md R112) -/

/-- The claims' word is the model's word (20_memory.md R52). -/
theorem opWord_eq_wordAt (s : State) (i : Nat) : opWord s.params s.opmem i = wordAt s i :=
  (Memory.readLE_eq_sum s.opmem (i * s.params.wb) s.params.wb).symm

theorem exec_ld (s : State) (rd : RegIdx) (imm20 : BitVec 20) :
    exec (.ld rd imm20) s =
      complete (encode (.ld rd imm20)) s (loadImage s imm20.toNat >>= fun v => writeReg s rd v) := rfl

theorem ld_raises {s : State} {rd : RegIdx} {imm20 : BitVec 20} {e : ErrorKind}
    (h : loadImage s imm20.toNat = .error e) : Raises (.ld rd imm20) s e.code := by
  apply raises_of_exec_eq
  rw [exec_ld, h, error_bind]

/-- The sign bit is the top bit of the header (20_memory.md R55). -/
theorem signBit_lt_two (s : State) (a : Nat) : wordAt s a / 2 ^ (s.params.w - 1) < 2 := by
  rw [Nat.div_lt_iff_lt_mul (by positivity), ← Nat.pow_succ', Nat.succ_eq_add_one, Nat.sub_add_cancel s.params.w_pos]
  exact wordAt_lt s a

theorem signBit_mod_two (s : State) (a : Nat) :
    wordAt s a / 2 ^ (s.params.w - 1) % 2 = wordAt s a / 2 ^ (s.params.w - 1) :=
  Nat.mod_eq_of_lt (signBit_lt_two s a)

/-- 20_memory.md R56 with the sign bit not reduced again. -/
theorem imageMalformed_iff (s : State) (a : Nat) :
    imageMalformed s a ↔
      (wordAt s a % 2 ^ (s.params.w - 1) = 0 ∧ wordAt s a / 2 ^ (s.params.w - 1) = 1) ∨
        (0 < wordAt s a % 2 ^ (s.params.w - 1) ∧ wordAt s (a + wordAt s a % 2 ^ (s.params.w - 1)) = 0) := by
  rw [imageMalformed, signBit_mod_two]

theorem natAbs_imageValue (s : State) (a : Nat) :
    (imageValue s a).natAbs = magnitudeAt s (a + 1) (wordAt s a % 2 ^ (s.params.w - 1)) := by
  unfold imageValue
  split_ifs <;> simp

/-- The value of an image as a power of −1 times the sum of its words (20_memory.md R55). -/
theorem imageValue_eq (s : State) (a : Nat) :
    imageValue s a = (-1) ^ (wordAt s a / 2 ^ (s.params.w - 1)) *
      ((∑ j ∈ Finset.range (wordAt s a % 2 ^ (s.params.w - 1)),
        wordAt s (a + 1 + j) * 2 ^ (j * s.params.w) : Nat) : Int) := by
  rw [← magnitudeAt_eq_sum, imageValue, signBit_mod_two]
  split_ifs with h
  · rw [h, pow_one, neg_one_mul]
  · have hzero := Nat.lt_one_iff.1 (Nat.lt_of_le_of_ne (Nat.le_of_lt_succ (signBit_lt_two s a)) h)
    rw [hzero, pow_zero, one_mul]

/-- In the canonical form the header counts the words of the value: its most significant word is not 0. -/
theorem nwords_imageValue {s : State} {a : Nat} (h : ¬ imageMalformed s a) :
    nwords s.params.w (imageValue s a) = wordAt s a % 2 ^ (s.params.w - 1) := by
  have hw := s.params.w_pos
  apply Nat.le_antisymm
  · rw [nwords_le_iff hw, natAbs_imageValue]
    exact magnitudeAt_lt _ _ _
  · cases hk : wordAt s a % 2 ^ (s.params.w - 1) with
    | zero => exact Nat.zero_le _
    | succ k =>
      have htop : wordAt s (a + 1 + k) ≠ 0 := fun h0 =>
        h (.inr ⟨by omega, by rwa [hk, Nat.add_comm k, ← Nat.add_assoc]⟩)
      have hle := le_magnitudeAt htop
      rw [Nat.succ_le_iff, ← Nat.not_le, nwords_le_iff hw, natAbs_imageValue, hk]
      exact Nat.not_lt.2 hle

/-- Settles O32, check by check; the header of a canonical image is the word count the capacity is compared with. -/
theorem ldLoadsCanonicalImage : Obligations.LdLoadsCanonicalImage := by
  rintro s rd imm20 _ _ _ rfl rfl rfl
  simp only [opWord_eq_wordAt]
  have hload := loadImage_eq s imm20.toNat
  rw [imageEnd] at hload
  have hmal := imageMalformed_iff s imm20.toNat
  refine ⟨hasWord_ld rd imm20, fun hhead => ?_, fun hhead hbody => ?_, fun hbody hbad => ?_, fun hbody hgood => ?_⟩
  · rw [if_pos hhead] at hload
    exact ld_raises hload
  · rw [if_neg (not_lt.2 hhead), if_pos hbody] at hload
    exact ld_raises hload
  all_goals
    have hhead : (imm20.toNat + 1) * s.params.wb ≤ s.params.memBytes :=
      (Nat.mul_le_mul_right _ (Nat.le_add_right _ _)).trans hbody
    rw [if_neg (not_lt.2 hhead), if_neg (not_lt.2 hbody)] at hload
  · rw [if_pos (hmal.2 hbad)] at hload
    exact ld_raises hload
  · have hcanon := mt hmal.1 hgood
    rw [if_neg hcanon] at hload
    have hexec : exec (.ld rd imm20) s =
        complete (encode (.ld rd imm20)) s (writeReg s rd (imageValue s imm20.toNat)) := by
      rw [exec_ld, hload, ok_bind]
    rw [← imageValue_eq, ← nwords_imageValue hcanon]
    exact ⟨fun hcap => exceeds_of_exec_eq hexec (mt of_decide_eq_true (not_le.2 hcap)),
      fun hcap => retiresToReg_of_exec_eq hexec (decide_eq_true hcap)⟩

/-! ### ST (40_data_movement.md R113) -/

theorem wordCount_iff {w : Nat} (hw : 0 < w) (v : Int) (k : Nat) : WordCount w v k ↔ k = nwords w v := by
  constructor
  · rintro ⟨hlt, hge⟩
    refine Nat.le_antisymm (Nat.le_of_not_lt fun h => ?_) ((nwords_le_iff hw v k).2 hlt)
    exact absurd (natAbs_lt_two_pow_nwords hw v) (Nat.not_lt.2 (hge _ h))
  · rintro rfl
    exact ⟨natAbs_lt_two_pow_nwords hw v, fun _ => two_pow_le_natAbs hw⟩

/-- The word count of a register's value fits the header beside the sign bit (00_scope.md R5, 20_memory.md R55). -/
theorem nwords_lt_of_fits {p : Params} (hp : p.wf = true) {v : Int} (hv : fits p v = true) :
    nwords p.w v < 2 ^ (p.w - 1) := by
  simp only [Params.wf, Bool.and_eq_true, decide_eq_true_eq] at hp
  rw [fits, decide_eq_true_eq] at hv
  have := Nat.two_pow_pos (p.w - 1)
  omega

/-- Word `i` of the words stored, as the claims read it. -/
theorem opWord_writeWords (p : Params) {m : Memory} (hm : Memory.wf m = true) (a : Nat) {xs : List Nat}
    (hxs : ∀ x ∈ xs, x < 2 ^ p.w) {i : Nat} (hi : i < xs.length) : opWord p (writeWords p m a xs) (a + i) = xs[i] := by
  rw [opWord, byteSum, ← Memory.readLE_eq_sum]
  exact readLE_writeWords p hm a (p.w_eq ▸ hxs) hi

section

variable {p : Params} {m : Memory} (hm : Memory.wf m = true) (a : Nat) {v : Int} (hv : nwords p.w v < 2 ^ (p.w - 1))
include hm hv

theorem opWord_header :
    opWord p (writeWords p m a (imageWords p v)) a = (if v < 0 then 1 else 0) * 2 ^ (p.w - 1) + nwords p.w v :=
  opWord_writeWords p hm a (fun _ => imageWords_lt hv) (i := 0) (Nat.succ_pos _)

theorem opWord_magnitude {j : Nat} (hj : j < nwords p.w v) :
    opWord p (writeWords p m a (imageWords p v)) (a + 1 + j) = v.natAbs / 2 ^ (j * p.w) % 2 ^ p.w := by
  have hlen : j + 1 < (imageWords p v).length := by rwa [imageWords_length, Nat.add_lt_add_iff_right]
  rw [Nat.add_assoc, Nat.add_comm 1, opWord_writeWords p hm a (fun _ => imageWords_lt hv) hlen]
  simp [imageWords, word]

end

theorem exec_st (s : State) (rs : RegIdx) (imm20 : BitVec 20) :
    exec (.st rs imm20) s =
      complete (encode (.st rs imm20)) s (readReg s rs >>= fun v => storeImage s imm20.toNat v) := rfl

/-- Settles O33: past its two checks ST stores the words of the image, and a word is read back as it was stored. -/
theorem stStoresCanonicalImage : Obligations.StStoresCanonicalImage := by
  intro s rs imm20 hp hfit hm
  refine ⟨hasWord_st rs imm20, fun hun => ?_, fun v k hv hk => ?_⟩
  · obtain ⟨j, hj, hnone⟩ := hun
    obtain rfl := List.mem_singleton.1 hj
    apply raises_of_exec_eq (e := .invalidOperand)
    rw [exec_st, readReg_none hnone, error_bind]
  · obtain rfl := (wordCount_iff s.params.w_pos v k).1 hk
    have hlt := nwords_lt_of_fits hp (hfit.fits_of_reg hv)
    have hexec : exec (.st rs imm20) s = complete (encode (.st rs imm20)) s (storeImage s imm20.toNat v) := by
      rw [exec_st, readReg_some hv, ok_bind]
    refine ⟨fun hend => ?_,
      fun hend => ⟨_, ?_, opWord_header hm _ hlt, fun j => opWord_magnitude hm _ hlt, fun b hb => ?_⟩⟩
    · rw [(storeImage_error_iff s _ v .memoryFault).2 ⟨hend, rfl⟩] at hexec
      exact raises_of_exec_eq hexec
    · rw [hexec, (storeImage_ok_iff s _ v _).2 ⟨hend, rfl⟩]
      rfl
    · apply read_writeWords_outside
      rwa [imageWords_length, Nat.add_comm (nwords _ _), ← Nat.add_assoc]

/-! ### ST and then LD -/

/-- The most significant word of a value is not 0 (10_state.md R21). -/
theorem word_last_ne_zero {w : Nat} (hw : 0 < w) {v : Int} {k : Nat} (hk : nwords w v = k + 1) : word w v k ≠ 0 := by
  have hlt := natAbs_lt_two_pow_nwords hw v
  have hge := two_pow_le_natAbs hw (show k < nwords w v by omega)
  rw [hk, Nat.succ_mul, Nat.pow_add] at hlt
  rw [word, Nat.mod_eq_of_lt (Nat.div_lt_of_lt_mul hlt)]
  exact (Nat.div_pos hge (by positivity)).ne'

theorem sign_mul_natAbs (v : Int) : (-1) ^ (if v < 0 then 1 else 0) * (v.natAbs : Int) = v := by
  split_ifs <;> omega

section

variable {p : Params} {m : Memory} {a : Nat} {v : Int}
  (hwords : ∀ j < nwords p.w v, opWord p m (a + 1 + j) = word p.w v j)
include hwords

/-- An image with the sign, the word count and the words of a value is neither negative zero nor zero on top (20_memory.md R56). -/
theorem canonical_of_words :
    ¬ ((nwords p.w v = 0 ∧ (if v < 0 then 1 else 0) = 1) ∨ (0 < nwords p.w v ∧ opWord p m (a + nwords p.w v) = 0)) := by
  rintro (⟨hzero, hneg⟩ | ⟨hpos, htop⟩)
  · rw [nwords_eq_zero_iff p.w_pos] at hzero
    simp [hzero] at hneg
  · obtain ⟨k, hk⟩ := Nat.exists_eq_succ_of_ne_zero hpos.ne'
    rw [hk, Nat.succ_eq_add_one, Nat.add_comm k, ← Nat.add_assoc] at htop
    exact word_last_ne_zero p.w_pos hk ((hwords k (by omega)).symm.trans htop)

theorem sum_of_words :
    ∑ j ∈ Finset.range (nwords p.w v), opWord p m (a + 1 + j) * 2 ^ (j * p.w) = v.natAbs := by
  rw [← sum_word_nwords p.w_pos v]
  exact Finset.sum_congr rfl fun j hj => congrArg (· * _) (hwords j (Finset.mem_range.1 hj))

end

/-- Settles O34: the words ST stores (O33) pass the checks of LD (O32), and their sum is the magnitude stored. -/
theorem stThenLdGivesValueBack : Obligations.StThenLdGivesValueBack := by
  rintro s rs rd imm20 v ⟨hp, hfit, -, -, hm, -⟩ hv hend
  have hfits := hfit.fits_of_reg hv
  have hlt := nwords_lt_of_fits hp hfits
  obtain ⟨-, -, hst⟩ := stStoresCanonicalImage s rs imm20 hp hfit hm
  obtain ⟨-, hst⟩ := hst v _ hv ((wordCount_iff s.params.w_pos v _).2 rfl)
  obtain ⟨m, hexec, hhead, hwords, -⟩ := hst hend
  refine ⟨_, hexec, rfl, ?_⟩
  have hsign : (if v < 0 then 1 else 0) = opWord s.params m imm20.toNat / 2 ^ (s.params.w - 1) := by
    rw [hhead, Nat.mul_comm, Nat.mul_add_div (by positivity), Nat.div_eq_of_lt hlt, Nat.add_zero]
  have hcount : nwords s.params.w v = opWord s.params m imm20.toNat % 2 ^ (s.params.w - 1) := by
    rw [hhead, Nat.mul_comm, Nat.mul_add_mod, Nat.mod_eq_of_lt hlt]
  obtain ⟨-, -, -, -, hld⟩ :=
    ldLoadsCanonicalImage { s with opmem := m, cmdseq := s.cmdseq + 1 } rd imm20 _ _ _ rfl hsign hcount
  obtain ⟨-, hretires⟩ := hld hend (canonical_of_words hwords)
  have hgot := hretires (of_decide_eq_true hfits)
  rwa [sum_of_words hwords, sign_mul_natAbs] at hgot

end Sys2Proof.Machine

/-! ## BigInt primitives (41_bigint_primitives.md) -/

namespace Sys2Proof.Machine

open Claims

/-! ### The words of formats R and S (30_encoding.md R83, R84) -/

theorem requireZero_of_eq_zero {z : Nat} (i : Instr) (h : z = 0) : requireZero z i = .ok i := if_pos h

section

variable {opcode f0 f1 f2 f3 f4 : Nat} (hop : opcode < 2 ^ 8) (h0 : f0 < 16) (h1 : f1 < 16) (h2 : f2 < 16)
  (h3 : f3 < 16) (h4 : f4 < 16)
include hop h0 h1 h2 h3 h4

theorem opcode_formatR : bits (formatR opcode f0 f1 f2 f3 f4) 31 24 = opcode := by
  rw [bits_formatR hop h0 h1 h2 h3 h4]
  omega

/-- The five register fields, from bit 23 downward (30_encoding.md R84). -/
theorem regFields_formatR :
    regField (formatR opcode f0 f1 f2 f3 f4) 20 = ⟨f0, h0⟩ ∧
    regField (formatR opcode f0 f1 f2 f3 f4) 16 = ⟨f1, h1⟩ ∧
    regField (formatR opcode f0 f1 f2 f3 f4) 12 = ⟨f2, h2⟩ ∧
    regField (formatR opcode f0 f1 f2 f3 f4) 8 = ⟨f3, h3⟩ ∧
    regField (formatR opcode f0 f1 f2 f3 f4) 4 = ⟨f4, h4⟩ := by
  simp only [regField, bits_formatR hop h0 h1 h2 h3 h4, Fin.ext_iff, Fin.val_ofNat]
  omega

/-- The bits from 0 up to the end of a field. -/
theorem lowBits_formatR :
    bits (formatR opcode f0 f1 f2 f3 f4) 15 0 = f2 * 2 ^ 12 + f3 * 2 ^ 8 + f4 * 2 ^ 4 ∧
    bits (formatR opcode f0 f1 f2 f3 f4) 11 0 = f3 * 2 ^ 8 + f4 * 2 ^ 4 ∧
    bits (formatR opcode f0 f1 f2 f3 f4) 7 0 = f4 * 2 ^ 4 := by
  simp only [bits_formatR hop h0 h1 h2 h3 h4]
  omega

end

section

variable {opcode : Nat} (hop : opcode < 2 ^ 8) (rd ra : RegIdx) (imm16 : BitVec 16)
include hop

theorem opcode_formatS : bits (formatS opcode rd ra imm16) 31 24 = opcode := by
  rw [bits_formatS rd ra imm16 hop]
  omega

theorem regFields_formatS :
    regField (formatS opcode rd ra imm16) 20 = rd ∧ regField (formatS opcode rd ra imm16) 16 = ra := by
  simp only [regField, bits_formatS rd ra imm16 hop, Fin.ext_iff, Fin.val_ofNat]
  omega

theorem imm16Field_formatS : imm16Field (formatS opcode rd ra imm16) = imm16 := by
  rw [imm16Field, bits_formatS rd ra imm16 hop]
  apply BitVec.eq_of_toNat_eq
  rw [BitVec.toNat_ofNat]
  omega

end

/-- A row of three register fields, bits 11:0 zero. -/
theorem hasWord_three_registers {opcode : Nat} {f : RegIdx → RegIdx → RegIdx → Instr} (hop : opcode < 2 ^ 8)
    (hencode : ∀ rd ra rb, encode (f rd ra rb) = formatR opcode rd ra rb 0 0)
    (hdecode : ∀ cw, bits cw 31 24 = opcode →
      decode cw = requireZero (bits cw 11 0) (f (regField cw 20) (regField cw 16) (regField cw 12)))
    (rd ra rb : RegIdx) :
    HasWord (f rd ra rb) (opcode * 2 ^ 24 + rd.val * 2 ^ 20 + ra.val * 2 ^ 16 + rb.val * 2 ^ 12) := by
  have hword : BitVec.ofNat 32 (opcode * 2 ^ 24 + rd.val * 2 ^ 20 + ra.val * 2 ^ 16 + rb.val * 2 ^ 12) =
      formatR opcode rd ra rb 0 0 := by
    simp only [formatR, Nat.zero_mul, Nat.add_zero]
  have hz : (0 : Nat) < 16 := by decide
  rw [HasWord, hword]
  refine ⟨hencode rd ra rb, ?_⟩
  rw [hdecode _ (opcode_formatR hop rd.isLt ra.isLt rb.isLt hz hz)]
  obtain ⟨hrd, hra, hrb, -⟩ := regFields_formatR hop rd.isLt ra.isLt rb.isLt hz hz
  obtain ⟨-, hzero, -⟩ := lowBits_formatR hop rd.isLt ra.isLt rb.isLt hz hz
  rw [hrd, hra, hrb]
  exact requireZero_of_eq_zero _ hzero

theorem hasWord_sqr (rd ra : RegIdx) : HasWord (.sqr rd ra) (0x13000000 + rd.val * 2 ^ 20 + ra.val * 2 ^ 16) := by
  refine ⟨rfl, ?_⟩
  change decode (formatR 0x13 rd ra 0 0 0) = _
  simp (disch := omega) only [decode, opcode_formatR, regFields_formatR, lowBits_formatR]
  exact requireZero_of_eq_zero _ rfl

theorem hasWord_modmul (rd ra rb rm : RegIdx) :
    HasWord (.modmul rd ra rb rm)
      (0x18000000 + rd.val * 2 ^ 20 + ra.val * 2 ^ 16 + rb.val * 2 ^ 12 + rm.val * 2 ^ 8) := by
  refine ⟨rfl, ?_⟩
  change decode (formatR 0x18 rd ra rb rm 0) = _
  simp (disch := omega) only [decode, opcode_formatR, regFields_formatR, lowBits_formatR]
  exact requireZero_of_eq_zero _ rfl

theorem hasWord_shl (rd ra : RegIdx) (imm16 : BitVec 16) :
    HasWord (.shl rd ra imm16) (0x16000000 + rd.val * 2 ^ 20 + ra.val * 2 ^ 16 + imm16.toNat) := by
  refine ⟨rfl, ?_⟩
  change decode (formatS 0x16 rd ra imm16) = _
  simp (disch := decide) only [decode, opcode_formatS, regFields_formatS, imm16Field_formatS]

theorem hasWord_shr (rd ra : RegIdx) (imm16 : BitVec 16) :
    HasWord (.shr rd ra imm16) (0x17000000 + rd.val * 2 ^ 20 + ra.val * 2 ^ 16 + imm16.toNat) := by
  refine ⟨rfl, ?_⟩
  change decode (formatS 0x17 rd ra imm16) = _
  simp (disch := decide) only [decode, opcode_formatS, regFields_formatS, imm16Field_formatS]

/-! ### Sources: all written, or one of them unwritten (10_state.md R24) -/

theorem someUnwritten_cons_iff (s : State) (j : RegIdx) (js : List RegIdx) :
    SomeUnwritten s (j :: js) ↔ s.reg j = none ∨ SomeUnwritten s js := by
  simp [SomeUnwritten, State.reg]

/-- Reading the sources one after the other raises at the first unwritten one. -/
theorem readReg_bind_unwritten {α : Type} {s : State} {j : RegIdx} {js : List RegIdx} {f : Int → Except ErrorKind α}
    (h : SomeUnwritten s (j :: js)) (hf : SomeUnwritten s js → ∀ a, f a = .error .invalidOperand) :
    (readReg s j >>= f) = .error .invalidOperand := by
  cases hj : s.reg j with
  | none => rw [readReg_none hj, error_bind]
  | some a =>
    rw [readReg_some hj, ok_bind]
    exact hf (((someUnwritten_cons_iff s j js).1 h).resolve_left (by simp [hj])) a

theorem readReg_bind_last_unwritten {α : Type} {s : State} {j : RegIdx} {f : Int → Except ErrorKind α}
    (h : SomeUnwritten s [j]) : (readReg s j >>= f) = .error .invalidOperand :=
  readReg_bind_unwritten h fun hnil => by simp [SomeUnwritten] at hnil

section

variable {i : Instr} {s : State}

theorem raises_of_exec_eq_of_error {r : Except ErrorKind State} {e : ErrorKind}
    (hexec : exec i s = complete (encode i) s r) (hr : r = .error e) : Raises i s e.code :=
  raises_of_exec_eq (hr ▸ hexec)

variable {rd ra rb : RegIdx}

theorem raises_of_unwritten_source {f : Int → Except ErrorKind State}
    (hexec : exec i s = complete (encode i) s (readReg s ra >>= f)) (h : SomeUnwritten s [ra]) : Raises i s 5 :=
  raises_of_exec_eq_of_error hexec (readReg_bind_last_unwritten h)

theorem raises_of_unwritten_sources {f : Int → Int → Except ErrorKind State}
    (hexec : exec i s = complete (encode i) s (readReg s ra >>= fun a => readReg s rb >>= f a))
    (h : SomeUnwritten s [ra, rb]) : Raises i s 5 :=
  raises_of_exec_eq_of_error hexec (readReg_bind_unwritten h fun h _ => readReg_bind_last_unwritten h)

/-! ### Results: exact, or past the check of the divisor -/

/-- What every command with one source and an exact result does. -/
theorem writesOrExceeds_of_source {op : Int → Int}
    (hexec : exec i s = complete (encode i) s (readReg s ra >>= fun a => writeReg s rd (op a))) :
    (SomeUnwritten s [ra] → Raises i s 5) ∧ ∀ a, s.regs.get ra = some a → WritesOrExceeds i s rd (op a) := by
  refine ⟨raises_of_unwritten_source hexec, fun a ha => ?_⟩
  rw [readReg_some ha, ok_bind] at hexec
  exact writesOrExceeds_of_exec_eq hexec

/-- What every command with two sources and an exact result does. -/
theorem writesOrExceeds_of_sources {op : Int → Int → Int}
    (hexec : exec i s =
      complete (encode i) s (readReg s ra >>= fun a => readReg s rb >>= fun b => writeReg s rd (op a b))) :
    (SomeUnwritten s [ra, rb] → Raises i s 5) ∧
      ∀ a b, s.regs.get ra = some a → s.regs.get rb = some b → WritesOrExceeds i s rd (op a b) := by
  refine ⟨raises_of_unwritten_sources hexec, fun a b ha hb => ?_⟩
  rw [readReg_some ha, ok_bind, readReg_some hb, ok_bind] at hexec
  exact writesOrExceeds_of_exec_eq hexec

/-- A division raises for divisor 0 and otherwise writes its result, which fits. -/
theorem raises_or_retires_of_unlessZero {b v : Int}
    (hexec : exec i s = complete (encode i) s (unlessZero b v >>= fun u => writeReg s rd u))
    (hfits : b ≠ 0 → fits s.params v = true) : (b = 0 → Raises i s 3) ∧ (b ≠ 0 → RetiresToReg i s rd v) := by
  constructor
  · intro hb
    rw [(unlessZero_error_iff b v .divisionByZero).2 ⟨hb, rfl⟩, error_bind] at hexec
    exact raises_of_exec_eq hexec
  · intro hb
    rw [(unlessZero_ok_iff b v v).2 ⟨hb, rfl⟩, ok_bind] at hexec
    exact retiresToReg_of_exec_eq hexec (hfits hb)

/-- What DIV and MOD do, where their result fits. -/
theorem raises_or_retires_of_sources {op : Int → Int → Int}
    (hexec : exec i s = complete (encode i) s
      (readReg s ra >>= fun a => readReg s rb >>= fun b => unlessZero b (op a b) >>= fun u => writeReg s rd u))
    (hfits : ∀ a b, fits s.params a = true → fits s.params b = true → b ≠ 0 → fits s.params (op a b) = true)
    (hregs : s.regsFit) :
    (SomeUnwritten s [ra, rb] → Raises i s 5) ∧
      ∀ a b, s.regs.get ra = some a → s.regs.get rb = some b →
        (b = 0 → Raises i s 3) ∧ (b ≠ 0 → RetiresToReg i s rd (op a b)) := by
  refine ⟨raises_of_unwritten_sources hexec, fun a b ha hb => ?_⟩
  rw [readReg_some ha, ok_bind, readReg_some hb, ok_bind] at hexec
  exact raises_or_retires_of_unlessZero hexec (hfits a b (hregs.fits_of_reg ha) (hregs.fits_of_reg hb))

end

/-! ### The results of divisions fit where the operands do -/

theorem fits_tdiv {p : Params} {a : Int} (b : Int) (ha : fits p a = true) : fits p (tdiv a b) = true := by
  apply fits_of_natAbs_le ha
  rw [tdiv_eq, Int.natAbs_tdiv]
  exact Nat.div_le_self _ _

theorem fits_trem {p : Params} (a : Int) {b : Int} (hb : fits p b = true) (hne : b ≠ 0) : fits p (trem a b) = true := by
  apply fits_of_natAbs_le hb
  rw [trem_eq, Int.natAbs_tmod]
  exact (Nat.mod_lt _ (Int.natAbs_pos.2 hne)).le

/-- Division by 2^k shifts the magnitude and keeps the sign (41_bigint_primitives.md R128). -/
theorem tdiv_pow2 (a : Int) (k : Nat) : tdiv a (pow2 k) = a.sign * ((a.natAbs / 2 ^ k : Nat) : Int) := by
  have hpos : ¬ pow2 k < 0 := (pow2_pos k).not_gt
  have habs : (pow2 k).natAbs = 2 ^ k := Int.natAbs_natCast _
  rcases lt_trichotomy a 0 with ha | rfl | ha
  · simp [tdiv, ha, hpos, habs, Int.sign_eq_neg_one_of_neg ha]
  · simp [tdiv]
  · simp [tdiv, ha.not_gt, hpos, habs, Int.sign_eq_one_of_pos ha]

/-! ### The commands -/

/-- Settles O35: ADD is two reads and one checked write of the sum. -/
theorem addWritesExactSum : Obligations.AddWritesExactSum := fun _ rd ra rb =>
  ⟨hasWord_three_registers (f := .add) (by decide) (fun _ _ _ => rfl) (fun _ h => by simp only [decode, h]) rd ra rb,
    writesOrExceeds_of_sources (op := (· + ·)) rfl⟩

/-- Settles O36: SUB is two reads and one checked write of the difference. -/
theorem subWritesExactDifference : Obligations.SubWritesExactDifference := fun _ rd ra rb =>
  ⟨hasWord_three_registers (f := .sub) (by decide) (fun _ _ _ => rfl) (fun _ h => by simp only [decode, h]) rd ra rb,
    writesOrExceeds_of_sources (op := (· - ·)) rfl⟩

/-- Settles O37: MUL is two reads and one checked write of the product. -/
theorem mulWritesExactProduct : Obligations.MulWritesExactProduct := fun _ rd ra rb =>
  ⟨hasWord_three_registers (f := .mul) (by decide) (fun _ _ _ => rfl) (fun _ h => by simp only [decode, h]) rd ra rb,
    writesOrExceeds_of_sources (op := (· * ·)) rfl⟩

/-- Settles O38: SQR is one read and one checked write of the square. -/
theorem sqrWritesExactSquare : Obligations.SqrWritesExactSquare := fun _ rd ra =>
  ⟨hasWord_sqr rd ra, writesOrExceeds_of_source (op := fun a => a * a) rfl⟩

/-- Settles O39: the quotient is no larger than the dividend, which fits. -/
theorem divWritesTruncatedQuotient : Obligations.DivWritesTruncatedQuotient := by
  intro s rd ra rb hregs
  simp only [← tdiv_eq]
  refine ⟨hasWord_three_registers (f := .div) (by decide) (fun _ _ _ => rfl) (fun _ h => ?_) rd ra rb,
    raises_or_retires_of_sources rfl (fun _ b ha _ _ => fits_tdiv b ha) hregs⟩
  simp only [decode, h]

/-- Settles O40: the remainder is smaller than the divisor, which fits. -/
theorem modWritesTruncatedRemainder : Obligations.ModWritesTruncatedRemainder := by
  intro s rd ra rb hregs
  simp only [← trem_eq]
  refine ⟨hasWord_three_registers (f := .mod) (by decide) (fun _ _ _ => rfl) (fun _ h => ?_) rd ra rb,
    raises_or_retires_of_sources rfl (fun a _ _ hb => fits_trem a hb) hregs⟩
  simp only [decode, h]

/-- Settles O41: SHL is one read and one checked write. -/
theorem shlMultipliesByPowerOfTwo : Obligations.ShlMultipliesByPowerOfTwo := by
  intro s rd ra imm16
  refine ⟨hasWord_shl rd ra imm16, ?_⟩
  rw [← pow2_eq]
  exact writesOrExceeds_of_source (op := (· * pow2 imm16.toNat)) rfl

theorem exec_shr (s : State) (rd ra : RegIdx) (imm16 : BitVec 16) :
    exec (.shr rd ra imm16) s = complete (encode (.shr rd ra imm16)) s
      (readReg s ra >>= fun a => writeReg s rd (tdiv a (pow2 imm16.toNat))) := rfl

/-- Settles O42: the shifted magnitude is no larger than the source's, which fits. -/
theorem shrShiftsMagnitude : Obligations.ShrShiftsMagnitude := by
  intro s rd ra imm16 hregs
  have hexec := exec_shr s rd ra imm16
  refine ⟨hasWord_shr rd ra imm16, raises_of_unwritten_source hexec, fun a ha => ?_⟩
  rw [readReg_some ha, ok_bind] at hexec
  rw [← tdiv_pow2]
  exact retiresToReg_of_exec_eq hexec (fits_tdiv _ (hregs.fits_of_reg ha))

theorem exec_modmul (s : State) (rd ra rb rm : RegIdx) :
    exec (.modmul rd ra rb rm) s = complete (encode (.modmul rd ra rb rm)) s
      (readReg s ra >>= fun a => readReg s rb >>= fun b => readReg s rm >>= fun m =>
        unlessZero m (trem (a * b) m) >>= fun t => writeReg s rd t) := rfl

/-- Settles O43: the remainder is smaller than the modulus, which fits; the product itself is never written. -/
theorem modmulWritesTruncatedRemainder : Obligations.ModmulWritesTruncatedRemainder := by
  intro s rd ra rb rm hregs
  have hexec := exec_modmul s rd ra rb rm
  refine ⟨hasWord_modmul rd ra rb rm, fun h => ?_, fun a b m ha hb hm => ?_⟩
  · exact raises_of_exec_eq_of_error hexec (readReg_bind_unwritten h fun h _ =>
      readReg_bind_unwritten h fun h _ => readReg_bind_last_unwritten h)
  · rw [readReg_some ha, ok_bind, readReg_some hb, ok_bind, readReg_some hm, ok_bind] at hexec
    rw [← trem_eq]
    exact raises_or_retires_of_unlessZero hexec (fits_trem (a * b) (hregs.fits_of_reg hm))

end Sys2Proof.Machine

/-! ## Binary extended GCD (42_binary_extended_gcd.md) -/

namespace Sys2Proof.Machine

open Claims

/-! ### Halving until odd -/

theorem lt_two_pow_bitlen (v : Int) : v < 2 ^ bitlen v := by
  have h := natAbs_lt_two_pow_bitlen v
  zify at h
  exact (le_abs_self v).trans_lt h

/-- `u'` is `u` without its factors of two. -/
structure IsOddPart (u u' : Int) : Prop where
  odd : Odd u'
  eq_pow_mul : ∃ j : Nat, u = 2 ^ j * u'

namespace IsOddPart

variable {u u' v v' : Int}

theorem dvd (h : IsOddPart u u') : u' ∣ u := by
  obtain ⟨j, rfl⟩ := h.eq_pow_mul
  exact dvd_mul_left _ _

theorem pos (h : IsOddPart u u') (hu : 0 < u) : 0 < u' := by
  obtain ⟨j, rfl⟩ := h.eq_pow_mul
  exact pos_of_mul_pos_right hu (by positivity)

theorem le (h : IsOddPart u u') (hu : 0 < u) : u' ≤ u :=
  Int.le_of_dvd hu h.dvd

theorem two_mul_le_of_even (h : IsOddPart u u') (hu : 0 < u) (heven : u % 2 = 0) : 2 * u' ≤ u := by
  have hpos := h.pos hu
  obtain ⟨j, rfl⟩ := h.eq_pow_mul
  cases j with
  | zero => exact absurd h.odd (by simpa [Int.even_iff] using heven)
  | succ j =>
    rw [pow_succ', mul_assoc]
    exact mul_le_mul_of_nonneg_left (le_mul_of_one_le_left hpos.le (one_le_pow₀ one_le_two)) zero_le_two

/-- An odd divisor of a value divides its odd part. -/
theorem dvd_of_odd {d : Int} (h : IsOddPart u u') (hd : Odd d) (hdvd : d ∣ u) : d ∣ u' := by
  obtain ⟨j, rfl⟩ := h.eq_pow_mul
  exact ((Int.isCoprime_two_right.2 hd).pow_right).dvd_of_dvd_mul_left hdvd

/-- Where the gcd is odd, the odd parts have the same gcd. -/
theorem gcd_eq (hu : IsOddPart u u') (hv : IsOddPart v v') (hodd : Odd (Int.gcd u v)) :
    Int.gcd u' v' = Int.gcd u v := by
  have hodd' : Odd (Int.gcd u v : Int) := by exact_mod_cast hodd
  have h1 : (Int.gcd u v : Int) ∣ u' := hu.dvd_of_odd hodd' (Int.gcd_dvd_left _ _)
  have h2 : (Int.gcd u v : Int) ∣ v' := hv.dvd_of_odd hodd' (Int.gcd_dvd_right _ _)
  exact Nat.dvd_antisymm
    ((Int.gcd_dvd_gcd_of_dvd_left _ hu.dvd).trans (Int.gcd_dvd_gcd_of_dvd_right _ hv.dvd)) (Int.dvd_gcd h1 h2)

end IsOddPart

/-- `k` halvings are enough for a value below `2^k`, whatever its coefficients. -/
theorem gcdHalve_isOddPart (xs ys : Int) {k : Nat} {u : Int} (a b : Int) (hu : 0 < u) (hk : u < 2 ^ k) :
    IsOddPart u (gcdHalve xs ys k u a b).1 := by
  induction k generalizing u a b with
  | zero => omega
  | succ k ih =>
    by_cases heven : u % 2 = 0
    · have hhalf (a' b' : Int) : IsOddPart u (gcdHalve xs ys k (u / 2) a' b').1 := by
        obtain ⟨hodd, j, hj⟩ := ih a' b' (u := u / 2) (by omega) (by omega)
        exact ⟨hodd, j + 1, by rw [pow_succ', mul_assoc, ← hj]; omega⟩
      rw [gcdHalve, if_pos ((even_iff u).2 heven)]
      split_ifs
      · exact hhalf _ _
      · exact hhalf _ _
    · rw [gcdHalve, if_neg (mt (even_iff u).1 heven)]
      exact ⟨Int.not_even_iff_odd.1 (mt Int.even_iff.1 heven), 0, by simp⟩

/-! ### Subtracting -/

theorem gcdSubtract_bounds {t : GcdState} (hu : 0 < t.u) (hv : 0 < t.v) :
    0 ≤ (gcdSubtract t).u ∧ 0 < (gcdSubtract t).v := by
  unfold gcdSubtract
  split_ifs with h
  · exact ⟨by simpa using h, hv⟩
  · exact ⟨hu.le, by simpa using h⟩

/-- The difference is smaller than the value it replaces. -/
theorem gcdSubtract_mul_le {t : GcdState} (hu : 0 < t.u) (hv : 0 < t.v) :
    (gcdSubtract t).u * (gcdSubtract t).v ≤ t.u * t.v := by
  unfold gcdSubtract
  split_ifs
  · exact mul_le_mul_of_nonneg_right (by simpa using hv.le) hv.le
  · exact mul_le_mul_of_nonneg_left (by simpa using hu.le) hu.le

theorem gcdSubtract_gcd (t : GcdState) : Int.gcd (gcdSubtract t).u (gcdSubtract t).v = Int.gcd t.u t.v := by
  unfold gcdSubtract
  split_ifs <;> simp

/-- The difference of two odd values is even. -/
theorem gcdSubtract_some_even {t : GcdState} (hu : Odd t.u) (hv : Odd t.v) :
    (gcdSubtract t).u % 2 = 0 ∨ (gcdSubtract t).v % 2 = 0 := by
  unfold gcdSubtract
  split_ifs
  · exact .inl (Int.even_iff.1 (hu.sub_odd hv))
  · exact .inr (Int.even_iff.1 (hv.sub_odd hu))

/-! ### One pass of the loop -/

section

variable (xs ys : Int) {t : GcdState} (hu : 0 < t.u) (hv : 0 < t.v)
include hu hv

theorem gcdHalveBoth_isOddPart :
    IsOddPart t.u (gcdHalveBoth xs ys t).u ∧ IsOddPart t.v (gcdHalveBoth xs ys t).v :=
  ⟨gcdHalve_isOddPart xs ys t.a t.b hu (lt_two_pow_bitlen t.u),
    gcdHalve_isOddPart xs ys t.c t.d hv (lt_two_pow_bitlen t.v)⟩

/-- 42_binary_extended_gcd.md R143, I2: `u` is never negative and `v` stays positive. -/
theorem gcdPass_bounds : 0 ≤ (gcdPass xs ys t).u ∧ 0 < (gcdPass xs ys t).v := by
  obtain ⟨hu', hv'⟩ := gcdHalveBoth_isOddPart xs ys hu hv
  exact gcdSubtract_bounds (hu'.pos hu) (hv'.pos hv)

/-- Halving drops only factors of two, which an odd gcd does not have. -/
theorem gcdPass_gcd (hodd : Odd (Int.gcd t.u t.v)) :
    Int.gcd (gcdPass xs ys t).u (gcdPass xs ys t).v = Int.gcd t.u t.v := by
  obtain ⟨hu', hv'⟩ := gcdHalveBoth_isOddPart xs ys hu hv
  exact (gcdSubtract_gcd _).trans (hu'.gcd_eq hv' hodd)

theorem gcdPass_some_even : (gcdPass xs ys t).u % 2 = 0 ∨ (gcdPass xs ys t).v % 2 = 0 := by
  obtain ⟨hu', hv'⟩ := gcdHalveBoth_isOddPart xs ys hu hv
  exact gcdSubtract_some_even hu'.odd hv'.odd

theorem gcdPass_mul_le : (gcdPass xs ys t).u * (gcdPass xs ys t).v ≤ t.u * t.v := by
  obtain ⟨hu', hv'⟩ := gcdHalveBoth_isOddPart xs ys hu hv
  exact (gcdSubtract_mul_le (hu'.pos hu) (hv'.pos hv)).trans
    (mul_le_mul (hu'.le hu) (hv'.le hv) (hv'.pos hv).le hu.le)

/-- A pass that starts with an even value halves the product. -/
theorem two_mul_gcdPass_mul_le (heven : t.u % 2 = 0 ∨ t.v % 2 = 0) :
    2 * ((gcdPass xs ys t).u * (gcdPass xs ys t).v) ≤ t.u * t.v := by
  obtain ⟨hu', hv'⟩ := gcdHalveBoth_isOddPart xs ys hu hv
  have hsub := gcdSubtract_mul_le (hu'.pos hu) (hv'.pos hv)
  refine (mul_le_mul_of_nonneg_left hsub zero_le_two).trans ?_
  rcases heven with h | h
  · rw [← mul_assoc]
    exact mul_le_mul (hu'.two_mul_le_of_even hu h) (hv'.le hv) (hv'.pos hv).le hu.le
  · rw [mul_left_comm]
    exact mul_le_mul (hu'.le hu) (hv'.two_mul_le_of_even hv h) (mul_nonneg zero_le_two (hv'.pos hv).le) hu.le

/-! ### The loop (42_binary_extended_gcd.md R144) -/

/-- `k` passes are enough for a product below `2^k` when a value is even: each pass leaves an even value again, and
halves the product. -/
theorem gcdLoop_ends {k : Nat} (heven : t.u % 2 = 0 ∨ t.v % 2 = 0) (hk : t.u * t.v < 2 ^ k) :
    (gcdLoop xs ys k t).u = 0 ∧ 0 < (gcdLoop xs ys k t).v := by
  induction k generalizing t with
  | zero =>
    have := mul_pos hu hv
    omega
  | succ k ih =>
    obtain ⟨hu', hv'⟩ := gcdPass_bounds xs ys hu hv
    have hhalf := two_mul_gcdPass_mul_le xs ys hu hv heven
    rw [gcdLoop]
    split_ifs with h
    · exact ⟨h, hv'⟩
    · exact ih (lt_of_le_of_ne hu' (Ne.symm h)) hv' (gcdPass_some_even xs ys hu hv) (by omega)

theorem gcdLoop_gcd (k : Nat) (hodd : Odd (Int.gcd t.u t.v)) :
    Int.gcd (gcdLoop xs ys k t).u (gcdLoop xs ys k t).v = Int.gcd t.u t.v := by
  induction k generalizing t with
  | zero => rfl
  | succ k ih =>
    obtain ⟨hu', hv'⟩ := gcdPass_bounds xs ys hu hv
    have hgcd := gcdPass_gcd xs ys hu hv hodd
    rw [gcdLoop]
    split_ifs with h
    · exact hgcd
    · exact (ih (lt_of_le_of_ne hu' (Ne.symm h)) hv' (hgcd ▸ hodd)).trans hgcd

end

/-- The first pass leaves an even value and no larger product, which the remaining passes bring down to 0. -/
theorem gcdRun_ends {xs ys : Int} (hx : 0 < xs) (hy : 0 < ys) : (gcdRun xs ys).u = 0 ∧ 0 < (gcdRun xs ys).v := by
  have hlt : xs * ys < 2 ^ (bitlen xs + bitlen ys) := by
    rw [pow_add]
    exact mul_lt_mul'' (lt_two_pow_bitlen xs) (lt_two_pow_bitlen ys) hx.le hy.le
  obtain ⟨hu', hv'⟩ := gcdPass_bounds xs ys (t := gcdStart xs ys) hx hy
  have hmul := gcdPass_mul_le xs ys (t := gcdStart xs ys) hx hy
  rw [gcdRun, gcdLoop]
  split_ifs with h
  · exact ⟨h, hv'⟩
  · exact gcdLoop_ends xs ys (lt_of_le_of_ne hu' (Ne.symm h)) hv' (gcdPass_some_even xs ys hx hy) (hmul.trans_lt hlt)

theorem odd_gcd_iff (x y : Int) : Odd (Int.gcd x y) ↔ ¬ (x % 2 = 0 ∧ y % 2 = 0) := by
  rw [← Nat.not_even_iff_odd, even_iff_two_dvd, Int.dvd_gcd_iff, Int.dvd_iff_emod_eq_zero, Int.dvd_iff_emod_eq_zero]
  rfl

theorem gcdRun_v {xs ys : Int} (hx : 0 < xs) (hy : 0 < ys) (hodd : ¬ (xs % 2 = 0 ∧ ys % 2 = 0)) :
    (gcdRun xs ys).v = (Int.gcd xs ys : Int) := by
  obtain ⟨hu, hv⟩ := gcdRun_ends hx hy
  have hgcd : Int.gcd (gcdRun xs ys).u (gcdRun xs ys).v = Int.gcd xs ys :=
    gcdLoop_gcd xs ys (t := gcdStart xs ys) hx hy _ ((odd_gcd_iff xs ys).2 hodd)
  rw [← hgcd, hu, Int.gcd_zero_left, Int.natAbs_of_nonneg hv.le]

/-! ### The whole algorithm -/

/-- The common factor stays positive, and so do the stripped values. -/
theorem gcdStrip_pos (k : Nat) {x y g : Int} (hx : 0 < x) (hy : 0 < y) (hg : 0 < g) :
    0 < (gcdStrip k x y g).1 ∧ 0 < (gcdStrip k x y g).2.1 ∧ 0 < (gcdStrip k x y g).2.2 := by
  induction k generalizing x y g with
  | zero => exact ⟨hx, hy, hg⟩
  | succ k ih =>
    rw [gcdStrip]
    split_ifs with h
    · simp only [Bool.and_eq_true, even_iff] at h
      exact ih (by omega) (by omega) (by omega)
    · exact ⟨hx, hy, hg⟩

theorem egcd_invalid {x y : Int} (h : x ≤ 0 ∨ y ≤ 0) : egcd x y = .error .invalidInput := if_pos h

/-- 42_binary_extended_gcd.md R140, for positive arguments. -/
theorem egcd_ok {x y : Int} (hx : 0 < x) (hy : 0 < y) :
    ∃ g a b, egcd x y = .ok (g, a, b) ∧ g = (Int.gcd x y : Int) ∧ a * x + b * y = g := by
  have hegcd : egcd x y = .ok _ := if_neg (by omega)
  obtain ⟨-, -, hcomb⟩ := egcd_combination hegcd
  refine ⟨_, _, _, hegcd, ?_, hcomb⟩
  obtain ⟨hxs, hys, hg⟩ := gcdStrip_pos (bitlen x) hx hy one_pos
  obtain ⟨hmulx, hmuly⟩ := gcdStrip_mul (bitlen x) x y 1
  have hgcd := Int.gcd_mul_right (gcdStrip (bitlen x) x y 1).1 (gcdStrip (bitlen x) x y 1).2.2
    (gcdStrip (bitlen x) x y 1).2.1
  rw [hmulx, hmuly, mul_one, mul_one] at hgcd
  rw [gcdRun_v hxs hys (gcdStrip_not_both_even y 1 hx (lt_two_pow_bitlen x)), hgcd, Nat.cast_mul,
    Int.natAbs_of_nonneg hg.le, mul_comm]

/-! ### The command (42_binary_extended_gcd.md R141) -/

theorem distinctDestinations_iff (rg rp rq : RegIdx) :
    distinctDestinations rg rp rq = true ↔ rg ≠ rp ∧ rg ≠ rq ∧ rp ≠ rq := by
  simp [distinctDestinations, and_assoc]

theorem hasWord_egcd {rg rp rq : RegIdx} (rx ry : RegIdx) (h : distinctDestinations rg rp rq = true) :
    HasWord (.egcd rg rp rq rx ry)
      (0x20000000 + rg.val * 2 ^ 20 + rp.val * 2 ^ 16 + rq.val * 2 ^ 12 + rx.val * 2 ^ 8 + ry.val * 2 ^ 4) := by
  refine ⟨rfl, ?_⟩
  change decode (formatR 0x20 rg rp rq rx ry) = _
  have hzero : bits (formatR 0x20 rg rp rq rx ry) 3 0 = 0 := by
    rw [bits_formatR (by decide) rg.isLt rp.isLt rq.isLt rx.isLt ry.isLt]
    omega
  simp (disch := omega) only [decode, decodeEgcd, opcode_formatR, regFields_formatR, hzero, h, if_true]
  exact requireZero_of_eq_zero _ rfl

theorem exec_egcd_repeated {rg rp rq : RegIdx} (rx ry : RegIdx) (s : State)
    (h : ¬ distinctDestinations rg rp rq = true) :
    exec (.egcd rg rp rq rx ry) s =
      complete (encode (.egcd rg rp rq rx ry)) s (.error .illegalCommand) :=
  congrArg (complete _ s) (if_neg h)

theorem exec_egcd {rg rp rq : RegIdx} (rx ry : RegIdx) (s : State) (h : distinctDestinations rg rp rq = true) :
    exec (.egcd rg rp rq rx ry) s = complete (encode (.egcd rg rp rq rx ry)) s
      (readReg s rx >>= fun x => readReg s ry >>= fun y => egcd x y >>= fun t =>
        writeRegs3 s rg rp rq t.1 t.2.1 t.2.2) :=
  congrArg (complete _ s) (if_pos h)

section

variable {i : Instr} {s : State} {rg rp rq : RegIdx} {g a b : Int}
  (hexec : exec i s = complete (encode i) s (writeRegs3 s rg rp rq g a b))
include hexec

theorem retires_of_exec_eq_writeRegs3 (hfits : FitsReg s g ∧ FitsReg s a ∧ FitsReg s b) :
    exec i s = .next { s with
      regs := ((s.regs.set rg.val (some g) rg.isLt).set rp.val (some a) rp.isLt).set rq.val (some b) rq.isLt
      cmdseq := s.cmdseq + 1 } := by
  simp only [FitsReg, ← fits_iff] at hfits
  rw [hexec, (writeRegs3_ok_iff s rg rp rq g a b _).2 ⟨hfits, rfl⟩]
  rfl

theorem exceeds_of_exec_eq_writeRegs3 (hfits : ¬ (FitsReg s g ∧ FitsReg s a ∧ FitsReg s b)) : Raises i s 8 := by
  simp only [FitsReg, ← fits_iff] at hfits
  exact raises_of_exec_eq_of_error hexec ((writeRegs3_error_iff s rg rp rq g a b .capacityExceeded).2 ⟨hfits, rfl⟩)

end

/-! ### The statements -/

/-- Settles O44: `v` ends as the gcd of the stripped values, and the common factor restores the rest. -/
theorem egcdReturnsGcdAndBezoutPair : Obligations.EgcdReturnsGcdAndBezoutPair :=
  fun _ _ => ⟨egcd_ok, egcd_invalid⟩

/-- Settles O45: the checks in their order, then the contract of `egcd`, then one write of all three or none. -/
theorem egcdCommandWritesTriple : Obligations.EgcdCommandWritesTriple := by
  intro s rg rp rq rx ry
  rw [← distinctDestinations_iff]
  refine ⟨fun h => raises_of_exec_eq (exec_egcd_repeated rx ry s h), fun h => ?_⟩
  have hexec := exec_egcd rx ry s h
  refine ⟨hasWord_egcd rx ry h, raises_of_unwritten_sources hexec, fun x y hx hy => ?_⟩
  rw [readReg_some hx, ok_bind, readReg_some hy, ok_bind] at hexec
  refine ⟨fun hneg => ?_, fun hxpos hypos => ?_⟩
  · rw [egcd_invalid hneg, error_bind] at hexec
    exact raises_of_exec_eq hexec
  · obtain ⟨g, a, b, hegcd, hgcd, hcomb⟩ := egcd_ok hxpos hypos
    rw [hegcd, ok_bind] at hexec
    exact ⟨g, a, b, hegcd, hgcd, hcomb, retires_of_exec_eq_writeRegs3 hexec, exceeds_of_exec_eq_writeRegs3 hexec⟩

/-- Settles O46: a pass is halving, which drops factors of two that the odd gcd does not have, and one subtraction. -/
theorem gcdPassKeepsLinearCombinations : Obligations.GcdPassKeepsLinearCombinations := by
  intro xs ys t _ _ hodd hu hv hcu hcv hgcd
  obtain ⟨hpu, hpv⟩ := gcdPass_combines hodd (t := t) ⟨hcu, hcv⟩
  obtain ⟨hnonneg, hpos⟩ := gcdPass_bounds xs ys hu hv
  have hgcdOdd : Odd (Int.gcd t.u t.v) := by rwa [hgcd, odd_gcd_iff]
  exact ⟨hpu, hpv, hnonneg, hpos, (gcdPass_gcd xs ys hu hv hgcdOdd).trans hgcd⟩

/-- Settles O47: a value has fewer factors of two than bits, and every pass but the first halves `u·v`. -/
theorem gcdLoopsRunToTheirEnd : Obligations.GcdLoopsRunToTheirEnd :=
  ⟨fun x y hx _ => gcdStrip_not_both_even y 1 hx (lt_two_pow_bitlen x),
    fun xs ys u a b hu => Int.odd_iff.1 (gcdHalve_isOddPart xs ys a b hu (lt_two_pow_bitlen u)).odd,
    fun _ _ => gcdRun_ends⟩

end Sys2Proof.Machine

/-! ## Montgomery contexts (43_montgomery_context.md) -/

namespace Sys2Proof.Machine

open Claims

/-! ### Words with a context field (30_encoding.md R84, R85) -/

section

variable {opcode f0 f1 f2 f3 f4 : Nat} (hop : opcode < 2 ^ 8) (h0 : f0 < 16) (h1 : f1 < 16) (h2 : f2 < 16)
  (h3 : f3 < 16) (h4 : f4 < 16)
include hop h0 h1 h2 h3 h4

/-- A context field is the low 2 bits of its 4-bit field. -/
theorem ctxFields_formatR :
    ctxField (formatR opcode f0 f1 f2 f3 f4) 20 = Fin.ofNat 4 f0 ∧
    ctxField (formatR opcode f0 f1 f2 f3 f4) 16 = Fin.ofNat 4 f1 := by
  simp only [ctxField, bits_formatR hop h0 h1 h2 h3 h4, Fin.ext_iff, Fin.val_ofNat]
  omega

/-- The bits above a context field. -/
theorem bits_above_ctxField_formatR :
    bits (formatR opcode f0 f1 f2 f3 f4) 23 22 = f0 / 4 ∧ bits (formatR opcode f0 f1 f2 f3 f4) 19 18 = f1 / 4 := by
  simp only [bits_formatR hop h0 h1 h2 h3 h4]
  omega

theorem bits_19_0_formatR :
    bits (formatR opcode f0 f1 f2 f3 f4) 19 0 = f1 * 2 ^ 16 + f2 * 2 ^ 12 + f3 * 2 ^ 8 + f4 * 2 ^ 4 := by
  rw [bits_formatR hop h0 h1 h2 h3 h4]
  omega

theorem selector_formatR : bits (formatR opcode f0 f1 f2 f3 f4) 15 12 = f2 := by
  rw [bits_formatR hop h0 h1 h2 h3 h4]
  omega

end

theorem hasWord_ctxsetup (cd : CtxIdx) (rn : RegIdx) :
    HasWord (.ctxsetup cd rn) (0x21000000 + cd.val * 2 ^ 20 + rn.val * 2 ^ 16) := by
  refine ⟨rfl, ?_⟩
  change decode (formatR 0x21 cd rn 0 0 0) = _
  simp (disch := omega) only [decode, opcode_formatR, ctxFields_formatR, regFields_formatR, Fin.ofNat_val_eq_self,
    bits_above_ctxField_formatR, lowBits_formatR]
  exact requireZero_of_eq_zero _ (by omega)

theorem hasWord_ctxclr (cd : CtxIdx) : HasWord (.ctxclr cd) (0x23000000 + cd.val * 2 ^ 20) := by
  have hword : BitVec.ofNat 32 (0x23000000 + cd.val * 2 ^ 20) = formatR 0x23 cd 0 0 0 0 := by simp [formatR]
  rw [HasWord, hword]
  refine ⟨rfl, ?_⟩
  simp (disch := omega) only [decode, opcode_formatR, ctxFields_formatR, Fin.ofNat_val_eq_self,
    bits_above_ctxField_formatR, bits_19_0_formatR]
  exact requireZero_of_eq_zero _ (by omega)

/-- The word of a CTXGET row, from the row's selector (30_encoding.md R88). -/
theorem hasWord_ctxget {sel : Nat} {f : RegIdx → CtxIdx → Instr} (hsel : sel < 16)
    (hencode : ∀ rd cs, encode (f rd cs) = formatR 0x22 rd cs sel 0 0)
    (hdecode : ∀ cw, bits cw 15 12 = sel →
      decodeCtxget cw = requireZero (bits cw 19 18 + bits cw 11 0) (f (regField cw 20) (ctxField cw 16)))
    (rd : RegIdx) (cs : CtxIdx) :
    HasWord (f rd cs) (0x22000000 + rd.val * 2 ^ 20 + cs.val * 2 ^ 16 + sel * 2 ^ 12) := by
  refine ⟨hencode rd cs, ?_⟩
  change decode (formatR 0x22 rd cs sel 0 0) = _
  simp (disch := omega) only [decode, opcode_formatR, hdecode _ (selector_formatR _ _ _ _ _ _), ctxFields_formatR,
    regFields_formatR, Fin.ofNat_val_eq_self, bits_above_ctxField_formatR, lowBits_formatR]
  exact requireZero_of_eq_zero _ (by omega)

theorem decode_reservedSelector {cw : Word32} (hop : bits cw 31 24 = 0x22) (hsel : 6 ≤ bits cw 15 12) :
    decode cw = .error .reservedSelector := by
  simp only [decode, hop]
  exact decodeCtxget_of_reserved hsel

/-! ### Deriving a context (43_montgomery_context.md R150, R152) -/

theorem ctxDerive_of_nonpos (w : Nat) {n : Int} (hn : n ≤ 0) : ctxDerive w n = .error .invalidInput := by
  rw [ctxDerive, egcd_invalid (.inl hn)]

/-- For a positive modulus the gcd with the radix decides. -/
theorem ctxDerive_of_pos (w : Nat) {n : Int} (hn : 0 < n) :
    ∃ a b, a * n + b * radix w n = (Int.gcd n (radix w n) : Int) ∧
      ctxDerive w n = if Int.gcd n (radix w n) = 1 then .ok (contextOf w n a) else .error .notInvertible := by
  have hr : 0 < radix w n := pow2_pos _
  obtain ⟨_, a, b, hegcd, rfl, hcomb⟩ := egcd_ok hn hr
  refine ⟨a, b, hcomb, ?_⟩
  simp only [ctxDerive, hegcd, ne_eq, Nat.cast_eq_one, ite_not]

/-- The radix is a positive power of two, so an odd modulus is coprime to it and an even one is not. -/
theorem gcd_radix_eq_one_iff {w : Nat} (hw : 0 < w) {n : Int} (hn : 0 < n) :
    Int.gcd n (radix w n) = 1 ↔ n % 2 = 1 := by
  rw [← Int.isCoprime_iff_gcd_eq_one, ← Int.odd_iff, ← Int.isCoprime_two_right]
  refine ⟨fun h => h.of_isCoprime_of_dvd_right (two_dvd_radix hw hn), fun h => ?_⟩
  rw [radix_eq]
  exact h.pow_right

theorem ctxDerive_of_even {w : Nat} (hw : 0 < w) {n : Int} (hn : 0 < n) (heven : n % 2 = 0) :
    ctxDerive w n = .error .notInvertible := by
  obtain ⟨_, _, -, hderive⟩ := ctxDerive_of_pos w hn
  rw [hderive, if_neg]
  rw [gcd_radix_eq_one_iff hw hn]
  omega

theorem ctxDerive_of_odd {w : Nat} (hw : 0 < w) {n : Int} (hn : 0 < n) (hodd : n % 2 = 1) :
    ∃ a b, a * n + b * radix w n = 1 ∧ ctxDerive w n = .ok (contextOf w n a) := by
  have hgcd := (gcd_radix_eq_one_iff hw hn).2 hodd
  obtain ⟨a, b, hcomb, hderive⟩ := ctxDerive_of_pos w hn
  rw [hgcd] at hcomb
  rw [if_pos hgcd] at hderive
  exact ⟨a, b, hcomb, hderive⟩

theorem contextOf_nInv_eq (w : Nat) (n a : Int) : (contextOf w n a).nInv = -a % radix w n := fmod_eq (pow2_pos _) _

/-- `N_inv` of a derived context: in (0, R), and `N · N_inv ≡ −1 (mod R)` (10_state.md R27). -/
theorem contextOf_nInv_inverts {w : Nat} (hw : 0 < w) {n a b : Int} (hn : 0 < n) (h : a * n + b * radix w n = 1) :
    0 < (contextOf w n a).nInv ∧ (contextOf w n a).nInv < radix w n ∧
      (n * (contextOf w n a).nInv + 1) % radix w n = 0 := by
  have hr : 0 < radix w n := pow2_pos _
  have hle := Int.le_of_dvd hr (two_dvd_radix hw hn)
  rw [contextOf_nInv_eq]
  exact neg_emod_inverts (by omega) h

theorem retiresToCtx_of_exec_eq {i : Instr} {s : State} {cd : CtxIdx} {c : Option Context}
    (h : exec i s = complete (encode i) s (.ok (s.setCtx cd c))) : RetiresToCtx i s cd c := h

theorem exec_ctxsetup (s : State) (cd : CtxIdx) (rn : RegIdx) :
    exec (.ctxsetup cd rn) s = complete (encode (.ctxsetup cd rn)) s
      (readReg s rn >>= fun n => ctxDerive s.params.w n >>= fun c => .ok (s.setCtx cd (some c))) := rfl

/-- Settles O48: one read, then `ctx_derive`, whose outcome the sign and the parity of the modulus decide. -/
theorem ctxsetupDerivesContext : Obligations.CtxsetupDerivesContext := by
  intro s cd rn
  have hexec := exec_ctxsetup s cd rn
  have hw := s.params.w_pos
  refine ⟨hasWord_ctxsetup cd rn, raises_of_unwritten_source hexec, fun n hreg => ?_⟩
  rw [readReg_some hreg, ok_bind] at hexec
  refine ⟨fun hn => ?_, fun hn heven => ?_, fun hn hodd => ?_⟩
  · rw [ctxDerive_of_nonpos _ hn, error_bind] at hexec
    exact raises_of_exec_eq hexec
  · rw [ctxDerive_of_even hw hn heven, error_bind] at hexec
    exact raises_of_exec_eq hexec
  · obtain ⟨a, b, hbezout, hderive⟩ := ctxDerive_of_odd hw hn hodd
    rw [hderive, ok_bind] at hexec
    exact ⟨_, retiresToCtx_of_exec_eq hexec, rfl, (wordCount_iff hw n _).2 rfl, radix_eq _ n, fmod_eq hn _, fmod_eq hn _,
      contextOf_nInv_inverts hw hn hbezout⟩

/-! ### The Bézout pair does not reach the context (43_montgomery_context.md R153) -/

/-- The coefficients of `n` in two pairs are both its inverse modulo `r`: they differ by `(a b' - a' b) r`. -/
theorem neg_bezout_emod_eq {n r a b a' b' : Int} (h : a * n + b * r = 1) (h' : a' * n + b' * r = 1) :
    -a % r = -a' % r := by
  refine Int.modEq_iff_dvd.2 ⟨a * b' - a' * b, ?_⟩
  linear_combination a' * h - a * h'

theorem word_zero_of_nonneg (w : Nat) {v : Int} (hv : 0 ≤ v) : (word w v 0 : Int) = v % 2 ^ w := by
  simp [word, abs_of_nonneg hv]

/-- 2^W divides the radix of a positive modulus. -/
theorem two_pow_dvd_radix {w : Nat} (hw : 0 < w) {n : Int} (hn : 0 < n) : (2 : Int) ^ w ∣ radix w n := by
  have hwords : nwords w n ≠ 0 := (nwords_eq_zero_iff hw n).not.2 hn.ne'
  rw [radix_eq]
  exact pow_dvd_pow 2 (Nat.le_mul_of_pos_left w (Nat.pos_of_ne_zero hwords))

/-- Settles O49: the coefficients of `N` in two pairs are congruent modulo R, and 2^W divides R. -/
theorem ninvIndependentOfBezoutPair : Obligations.NinvIndependentOfBezoutPair := by
  intro p n a b a' b' hn _ h h'
  obtain ⟨hpos, -, hinv⟩ := contextOf_nInv_inverts p.w_pos hn h
  have hdvd := (two_pow_dvd_radix p.w_pos hn).trans (Int.dvd_of_emod_eq_zero hinv)
  refine ⟨by rw [contextOf_nInv_eq, contextOf_nInv_eq, neg_bezout_emod_eq h h'], ?_⟩
  rw [word_zero_of_nonneg _ hpos.le]
  have hmod := ((Int.mod_modEq (contextOf p.w n a).nInv (2 ^ p.w)).mul_left n).add_right 1
  exact hmod.eq.trans (Int.emod_eq_zero_of_dvd hdvd)

/-! ### Reading a field of a context (43_montgomery_context.md R154) -/

/-- What a CTXGET command does with the field it picks. -/
theorem writesOrExceeds_of_ctxAttribute {i : Instr} {s : State} {rd : RegIdx} {cs : CtxIdx} {pick : Context → Int}
    (hexec : exec i s = complete (encode i) s (ctxAttribute s rd cs pick)) :
    (s.ctxs.get cs = none → Raises i s 5) ∧
      ∀ c, s.ctxs.get cs = some c → WritesOrExceeds i s rd (pick c) := by
  rw [ctxAttribute] at hexec
  refine ⟨fun hnone => ?_, fun c hc => ?_⟩
  · rw [readCtx_none hnone, error_bind] at hexec
    exact raises_of_exec_eq hexec
  · rw [readCtx_some hc, ok_bind] at hexec
    exact writesOrExceeds_of_exec_eq hexec

/-- A non-negative value of at most CAP_WORDS words fits (10_state.md R25). -/
theorem fitsReg_of_lt_two_pow {s : State} {v : Int} {k : Nat} (h0 : 0 ≤ v) (hv : v < 2 ^ (k * s.params.w))
    (hk : k ≤ s.params.capWords) : FitsReg s v := by
  rw [FitsReg]
  zify
  rw [abs_of_nonneg h0]
  exact hv.trans_le (pow_le_pow_right₀ one_le_two (Nat.mul_le_mul_right _ hk))

section

variable {s : State} {c : Context} (hc : c.valid s.params)
include hc

/-- Every field of a valid context but R lies in [0, R), so it has at most n_words words. -/
theorem Context.valid.fitsReg :
    FitsReg s c.n ∧ FitsReg s (c.nWords : Int) ∧ FitsReg s c.rModN ∧ FitsReg s c.r2ModN ∧ FitsReg s c.nInv := by
  obtain ⟨hn, -, hcap, hwords, hr, hrn, hr2n, hinv0, hinv, -⟩ := hc
  have hw := s.params.w_pos
  rw [← hwords] at hcap
  rw [pow2_eq] at hr
  have hnlt : c.n < 2 ^ (c.nWords * s.params.w) := by
    have := natAbs_lt_two_pow_nwords hw c.n
    zify at this
    rwa [abs_of_pos (by omega), ← hwords] at this
  have hwlt : (c.nWords : Int) < 2 ^ (c.nWords * s.params.w) := by
    exact_mod_cast Nat.lt_two_pow_self.trans_le (Nat.pow_le_pow_right two_pos (Nat.le_mul_of_pos_right _ hw))
  have hresidue (x : Int) : FitsReg s (x % c.n) :=
    fitsReg_of_lt_two_pow (Int.emod_nonneg _ (by omega)) ((Int.emod_lt_of_pos _ (by omega)).trans hnlt) hcap
  exact ⟨fitsReg_of_lt_two_pow (by omega) hnlt hcap, fitsReg_of_lt_two_pow (Int.natCast_nonneg _) hwlt hcap,
    hrn ▸ hresidue _, hr2n ▸ hresidue _, fitsReg_of_lt_two_pow hinv0.le (hr ▸ hinv) hcap⟩

/-- `R = 2^(n_words·W)` exceeds a register exactly when n_words = CAP_WORDS. -/
theorem Context.valid.fitsReg_r_iff : FitsReg s c.r ↔ c.nWords ≠ s.params.capWords := by
  obtain ⟨-, -, hcap, hwords, hr, -⟩ := hc
  have habs : c.r.natAbs = 2 ^ (c.nWords * s.params.w) := by rw [hr]; exact Int.natAbs_natCast _
  rw [← hwords] at hcap
  rw [FitsReg, habs, Nat.pow_lt_pow_iff_right one_lt_two, Nat.mul_lt_mul_right s.params.w_pos]
  exact hcap.lt_iff_ne

end

/-- Settles O50: the selector chooses the row, the row picks one field, and only R can be too large. -/
theorem ctxgetCopiesAttribute : Obligations.CtxgetCopiesAttribute := by
  refine ⟨fun s rd cs sel i pick hrow => ?_, fun cw hop hsel => ⟨_, decode_reservedSelector hop hsel⟩,
    fun s c _ hc => ?_⟩
  · simp only [List.mem_cons, Prod.mk.injEq, List.not_mem_nil, or_false] at hrow
    rcases hrow with ⟨rfl, rfl, rfl⟩ | ⟨rfl, rfl, rfl⟩ | ⟨rfl, rfl, rfl⟩ | ⟨rfl, rfl, rfl⟩ | ⟨rfl, rfl, rfl⟩ |
      ⟨rfl, rfl, rfl⟩
    all_goals
      exact ⟨hasWord_ctxget (by decide) (fun _ _ => rfl) (fun _ h => by simp only [decodeCtxget, h]) rd cs,
        writesOrExceeds_of_ctxAttribute rfl⟩
  · obtain ⟨hn, hwords, hrn, hr2n, hinv⟩ := hc.fitsReg
    exact ⟨hn, hwords, hrn, hr2n, hinv, hc.fitsReg_r_iff⟩

/-- Settles O51: CTXCLR is one write, with no check before it. -/
theorem ctxclrInvalidates : Obligations.CtxclrInvalidates :=
  fun _ cd => ⟨hasWord_ctxclr cd, retiresToCtx_of_exec_eq rfl⟩

end Sys2Proof.Machine

/-! ## Montgomery multiplier (44_montgomery_multiplier.md) -/

namespace Sys2Proof.Machine

open Claims

/-! ### What a valid context gives the multiplier (10_state.md R27) -/

section

variable {p : Params} {c : Context} (hc : c.valid p)
include hc

theorem Context.valid.n_pos : 0 < c.n := by
  obtain ⟨hn, -⟩ := hc
  omega

theorem Context.valid.r_eq_radix : c.r = radix p.w c.n := by
  obtain ⟨-, -, -, hwords, hr, -⟩ := hc
  rw [hr, hwords, radix]

theorem Context.valid.r_eq : c.r = 2 ^ (c.nWords * p.w) := by
  obtain ⟨-, -, -, -, hr, -⟩ := hc
  rw [hr, pow2_eq]

theorem Context.valid.n_lt_r : c.n < c.r := by
  have hlt := natAbs_lt_two_pow_nwords p.w_pos c.n
  zify at hlt
  rwa [abs_of_pos hc.n_pos, ← radix_eq, ← hc.r_eq_radix] at hlt

theorem Context.valid.one_lt_r : 1 < c.r := hc.n_pos.trans_lt hc.n_lt_r

/-- N is odd and R is a power of two, so R has an inverse modulo N (44_montgomery_multiplier.md R165). -/
theorem Context.valid.isCoprime_n_r : IsCoprime c.n c.r := by
  rw [hc.r_eq_radix, Int.isCoprime_iff_gcd_eq_one, gcd_radix_eq_one_iff p.w_pos hc.n_pos]
  obtain ⟨-, hodd, -⟩ := hc
  exact hodd

/-- `N · N' ≡ −1 (mod 2^W)` for `N' = word(N_inv, 0)` (44_montgomery_multiplier.md R170). -/
theorem Context.valid.two_pow_dvd_n_mul_word_nInv : (2 : Int) ^ p.w ∣ c.n * word p.w c.nInv 0 + 1 := by
  have hdvd : (2 : Int) ^ p.w ∣ c.r := hc.r_eq_radix ▸ two_pow_dvd_radix p.w_pos hc.n_pos
  obtain ⟨-, -, -, -, -, -, -, hpos, -, hinv⟩ := hc
  have hmod : c.n * (c.nInv % 2 ^ p.w) + 1 ≡ c.n * c.nInv + 1 [ZMOD 2 ^ p.w] :=
    ((Int.mod_modEq c.nInv (2 ^ p.w)).mul_left c.n).add_right 1
  rw [word_zero_of_nonneg _ hpos.le, hmod.dvd_iff]
  exact hdvd.trans (Int.dvd_of_emod_eq_zero hinv)

theorem Context.valid.emod_bounds (a : Int) : 0 ≤ a % c.n ∧ a % c.n < c.n :=
  ⟨Int.emod_nonneg _ hc.n_pos.ne', Int.emod_lt_of_pos _ hc.n_pos⟩

theorem Context.valid.r2ModN_bounds : 0 ≤ c.r2ModN ∧ c.r2ModN < c.n := by
  have hbounds := hc.emod_bounds (c.r * c.r)
  obtain ⟨-, -, -, -, -, -, hr2, -⟩ := hc
  rwa [hr2]

theorem Context.valid.r2ModN_modEq : c.r2ModN ≡ c.r * c.r [ZMOD c.n] := by
  obtain ⟨-, -, -, -, -, -, hr2, -⟩ := hc
  rw [hr2]
  exact Int.mod_modEq _ _

/-- A residue is no longer than N, which came from a register (44_montgomery_multiplier.md R167). -/
theorem Context.valid.fits_of_lt {z : Int} (h0 : 0 ≤ z) (hz : z < c.n) : fits p z = true := by
  obtain ⟨-, -, hcap, -⟩ := hc
  exact fits_of_natAbs_le (decide_eq_true hcap) (by omega)

end

/-! ### The loop (44_montgomery_multiplier.md R166, R170) -/

section

variable {w : Nat} {x y : Int} {c : Context}

/-- With non-negative values `u_i` is what the words of `A` and `y` stand for, modulo 2^W. -/
theorem mmDigit_modEq {acc : Int} (hacc : 0 ≤ acc) (hy : 0 ≤ y) (nInv : Int) (i : Nat) :
    (mmDigit w x y nInv acc i : Int) ≡ (acc + word w x i * y) * word w nInv 0 [ZMOD 2 ^ w] := by
  have hmod (v : Int) : v % 2 ^ w ≡ v [ZMOD 2 ^ w] := Int.mod_modEq v _
  rw [mmDigit]
  push_cast
  rw [word_zero_of_nonneg w hacc, word_zero_of_nonneg w hy]
  exact (hmod _).trans (((hmod acc).add ((hmod y).mul_left _)).mul_right _)

/-- The shift is exact: `T ≡ (A + x_i·y)·(1 + N'·N) ≡ 0 (mod 2^W)`. -/
theorem two_pow_dvd_mmSum (hinv : (2 : Int) ^ w ∣ c.n * word w c.nInv 0 + 1) {acc : Int} (hacc : 0 ≤ acc)
    (hy : 0 ≤ y) (i : Nat) : (2 : Int) ^ w ∣ mmSum w x y c acc i := by
  have hsum : mmSum w x y c acc i ≡ (acc + word w x i * y) * (c.n * word w c.nInv 0 + 1) [ZMOD 2 ^ w] := by
    calc mmSum w x y c acc i
        ≡ acc + word w x i * y + (acc + word w x i * y) * word w c.nInv 0 * c.n [ZMOD 2 ^ w] :=
          ((mmDigit_modEq hacc hy c.nInv i).mul_right c.n).add_left _
      _ = (acc + word w x i * y) * (c.n * word w c.nInv 0 + 1) := by ring
  exact hsum.dvd_iff.2 (hinv.mul_left _)

variable (hn : 0 < c.n) (hy : 0 ≤ y)
include hn hy

theorem mmAcc_nonneg (i : Nat) : 0 ≤ mmAcc w x y c i := by
  induction i with
  | zero => exact le_rfl
  | succ i ih =>
    rw [mmAcc, mmSum]
    exact Int.ediv_nonneg (by positivity) (pow2_pos w).le

variable (hinv : (2 : Int) ^ w ∣ c.n * word w c.nInv 0 + 1)
include hinv

theorem mmAcc_succ_mul (i : Nat) :
    mmAcc w x y c (i + 1) * 2 ^ w = mmSum w x y c (mmAcc w x y c i) i := by
  rw [mmAcc, pow2_eq]
  exact Int.ediv_mul_cancel (two_pow_dvd_mmSum hinv (mmAcc_nonneg hn hy i) hy i)

/-- After `i` iterations `A·2^(i·W)` is the first `i` words of x times y, plus `U·N` for a U of `i` words. -/
theorem exists_mmAcc_mul_eq (i : Nat) :
    ∃ u : Nat, u < 2 ^ (i * w) ∧
      mmAcc w x y c i * 2 ^ (i * w) = (x.natAbs % 2 ^ (i * w) : Nat) * y + u * c.n := by
  induction i with
  | zero => exact ⟨0, by simp, by simp [mmAcc, Nat.mod_one]⟩
  | succ i ih =>
    obtain ⟨u, hu, hval⟩ := ih
    have hdigit : mmDigit w x y c.nInv (mmAcc w x y c i) i < 2 ^ w := Nat.mod_lt _ (by positivity)
    have hx : x.natAbs % 2 ^ (i * w + w) = x.natAbs % 2 ^ (i * w) + 2 ^ (i * w) * word w x i := by
      rw [Nat.pow_add, Nat.mod_mul, word]
    have hstep := mmAcc_succ_mul (x := x) hn hy hinv i
    rw [mmSum] at hstep
    refine ⟨u + 2 ^ (i * w) * mmDigit w x y c.nInv (mmAcc w x y c i) i, ?_, ?_⟩
    · rw [Nat.succ_mul, Nat.pow_add]
      linarith [Nat.mul_le_mul_left (2 ^ (i * w)) (Nat.succ_le_of_lt hdigit)]
    · rw [Nat.succ_mul, hx, pow_add]
      simp only [Nat.cast_add, Nat.cast_mul, Nat.cast_pow, Nat.cast_ofNat]
      linear_combination 2 ^ (i * w) * hstep + hval

/-- `A·2^(i·W)` is at most one `N·2^(i·W)` from the words of x, and less than one more from U. -/
theorem mmAcc_lt {i : Nat} (hxy : (x.natAbs % 2 ^ (i * w) : Nat) * y ≤ c.n * 2 ^ (i * w)) :
    mmAcc w x y c i < 2 * c.n := by
  obtain ⟨u, hu, hval⟩ := exists_mmAcc_mul_eq (x := x) hn hy hinv i
  have hun : (u : Int) * c.n < 2 ^ (i * w) * c.n := mul_lt_mul_of_pos_right (mod_cast hu) hn
  refine lt_of_mul_lt_mul_right ?_ (show (0 : Int) ≤ 2 ^ (i * w) by positivity)
  linarith

end

/-! ### The bound and the value of the product (44_montgomery_multiplier.md R165, R170) -/

section

variable {p : Params} {c : Context} {x y : Int} (hc : c.valid p) (hx0 : 0 ≤ x) (hx : x < c.n) (hy0 : 0 ≤ y)
  (hy : y < c.r)
include hc

/-- During the loop the bound comes from y < N. -/
theorem Context.valid.mmAcc_lt_of_lt_n (hy0 : 0 ≤ y) (hyn : y < c.n) (i : Nat) : mmAcc p.w x y c i < 2 * c.n := by
  refine mmAcc_lt hc.n_pos hy0 hc.two_pow_dvd_n_mul_word_nInv ?_
  have hword : ((x.natAbs % 2 ^ (i * p.w) : Nat) : Int) ≤ 2 ^ (i * p.w) :=
    mod_cast (Nat.mod_lt _ (by positivity)).le
  rw [mul_comm c.n]
  exact mul_le_mul hword hyn.le hy0 (by positivity)

include hx0 hx

/-- A residue is less than R, so its first n_words words are all of it. -/
theorem Context.valid.natAbs_mod_eq : ((x.natAbs % 2 ^ (c.nWords * p.w) : Nat) : Int) = x := by
  have hlt := hc.n_lt_r
  rw [hc.r_eq] at hlt
  rw [Int.natCast_mod, Int.natAbs_of_nonneg hx0]
  push_cast
  exact Int.emod_eq_of_lt hx0 (hx.trans hlt)

include hy0

/-- After the loop `A·R = x·y + U·N`. -/
theorem Context.valid.mmAcc_nWords_modEq : mmAcc p.w x y c c.nWords * c.r ≡ x * y [ZMOD c.n] := by
  obtain ⟨u, -, hval⟩ := exists_mmAcc_mul_eq (x := x) hc.n_pos hy0 hc.two_pow_dvd_n_mul_word_nInv c.nWords
  rw [hc.natAbs_mod_eq hx0 hx, ← hc.r_eq] at hval
  rw [hval]
  exact Int.add_mul_modulus_modEq_iff.2 .rfl

theorem Context.valid.mm_mul_r_modEq : mm p.w x y c * c.r ≡ x * y [ZMOD c.n] := by
  have hacc := hc.mmAcc_nWords_modEq hx0 hx hy0
  simp only [mm]
  split_ifs with hle
  · exact ((Int.sub_modulus_modEq_iff.2 .rfl).mul_right _).trans hacc
  · exact hacc

include hy

/-- After the loop the bound comes from x < N. -/
theorem Context.valid.mmAcc_nWords_lt : mmAcc p.w x y c c.nWords < 2 * c.n := by
  refine mmAcc_lt hc.n_pos hy0 hc.two_pow_dvd_n_mul_word_nInv ?_
  rw [hc.natAbs_mod_eq hx0 hx, ← hc.r_eq]
  exact mul_le_mul hx.le hy.le hy0 hc.n_pos.le

/-- The one conditional subtraction brings A into [0, N). -/
theorem Context.valid.mm_bounds : 0 ≤ mm p.w x y c ∧ mm p.w x y c < c.n := by
  have hnonneg : 0 ≤ mmAcc p.w x y c c.nWords := mmAcc_nonneg hc.n_pos hy0 _
  have hlt := hc.mmAcc_nWords_lt hx0 hx hy0 hy
  simp only [mm]
  split_ifs <;> omega

/-- R is invertible modulo N, so the residue the multiplier returns is determined by its product with R. -/
theorem Context.valid.mm_eq {z : Int} (hz0 : 0 ≤ z) (hz : z < c.n) (hmul : z * c.r ≡ x * y [ZMOD c.n]) :
    mm p.w x y c = z := by
  obtain ⟨hm0, hm⟩ := hc.mm_bounds hx0 hx hy0 hy
  have hdvd : c.n ∣ (z - mm p.w x y c) * c.r := by
    rw [sub_mul]
    exact ((hc.mm_mul_r_modEq hx0 hx hy0).trans hmul.symm).dvd
  have hmod : mm p.w x y c % c.n = z % c.n := Int.modEq_iff_dvd.2 (hc.isCoprime_n_r.dvd_of_dvd_mul_right hdvd)
  rwa [Int.emod_eq_of_lt hm0 hm, Int.emod_eq_of_lt hz0 hz] at hmod

end

/-- Settles O56: every accumulator is non-negative, so every shift is exact, and `A·2^(i·W)` bounds A. -/
theorem multiplierShiftsExactlyWithinBound : Obligations.MultiplierShiftsExactlyWithinBound := by
  intro p c x y hc hx0 hx hy0 hy
  have hnonneg (i : Nat) : 0 ≤ mmAcc p.w x y c i := mmAcc_nonneg hc.n_pos hy0 i
  exact ⟨fun i _ => Int.emod_eq_zero_of_dvd (two_pow_dvd_mmSum hc.two_pow_dvd_n_mul_word_nInv (hnonneg i) hy0 i),
    hnonneg _, hc.mmAcc_nWords_lt hx0 hx hy0 hy, fun hyn i _ => hc.mmAcc_lt_of_lt_n hy0 hyn i⟩

/-! ### The two domains (44_montgomery_multiplier.md R168, R169, R171) -/

section

variable {p : Params} {c : Context} {x y : Int} (hc : c.valid p) (hx0 : 0 ≤ x) (hx : x < c.n)
include hc

/-- A factor in the Montgomery domain is multiplied as the ordinary value it stands for. -/
theorem Context.valid.mm_of_mul_r (a : Int) (hy0 : 0 ≤ y) (hy : y < c.r) :
    mm p.w (a * c.r % c.n) y c = a * y % c.n := by
  obtain ⟨h0, hlt⟩ := hc.emod_bounds (a * c.r)
  obtain ⟨hz0, hz⟩ := hc.emod_bounds (a * y)
  refine hc.mm_eq h0 hlt hy0 hy hz0 hz ?_
  calc a * y % c.n * c.r
      ≡ a * y * c.r [ZMOD c.n] := (Int.mod_modEq _ _).mul_right _
    _ = a * c.r * y := mul_right_comm _ _ _
    _ ≡ a * c.r % c.n * y [ZMOD c.n] := (Int.mod_modEq _ _).symm.mul_right _

/-- From the Montgomery domain, for a residue given as a multiple of R; 1 is below R also where N = 1. -/
theorem Context.valid.mm_one_of_mul_r (a : Int) : mm p.w (a * c.r % c.n) 1 c = a % c.n := by
  rw [hc.mm_of_mul_r a zero_le_one hc.one_lt_r, mul_one]

include hx0 hx

/-- To the Montgomery domain. -/
theorem Context.valid.mm_r2ModN : mm p.w x c.r2ModN c = x * c.r % c.n := by
  obtain ⟨h0, hlt⟩ := hc.r2ModN_bounds
  obtain ⟨hz0, hz⟩ := hc.emod_bounds (x * c.r)
  refine hc.mm_eq hx0 hx h0 (hlt.trans hc.n_lt_r) hz0 hz ?_
  calc x * c.r % c.n * c.r
      ≡ x * c.r * c.r [ZMOD c.n] := (Int.mod_modEq _ _).mul_right _
    _ = x * (c.r * c.r) := mul_assoc _ _ _
    _ ≡ x * c.r2ModN [ZMOD c.n] := hc.r2ModN_modEq.symm.mul_left _

/-- The product with 1 is a residue, also where N = 1 and 1 is none (44_montgomery_multiplier.md R169). -/
theorem Context.valid.mm_one_bounds : 0 ≤ mm p.w x 1 c ∧ mm p.w x 1 c < c.n :=
  hc.mm_bounds hx0 hx zero_le_one hc.one_lt_r

/-- From the Montgomery domain: the residue whose product with R is `x`. -/
theorem Context.valid.mm_one_mul_r : mm p.w x 1 c * c.r % c.n = x := by
  have hmod := (hc.mm_mul_r_modEq hx0 hx zero_le_one).eq
  rwa [mul_one, Int.emod_eq_of_lt hx0 hx] at hmod

end

/-- Settles O55: every law is the two conversions and one factor in the Montgomery domain. -/
theorem montgomeryDomainLaws : Obligations.MontgomeryDomainLaws := by
  intro p c x y hc hx0 hx hy0 hy
  have hyr := hy.trans hc.n_lt_r
  obtain ⟨hfrom0, hfrom⟩ := hc.mm_one_bounds hx0 hx
  obtain ⟨hto0, hto⟩ := hc.emod_bounds (y * c.r)
  obtain ⟨hxy0, hxy⟩ := hc.emod_bounds (x * y)
  have hproduct : mm p.w (x * c.r % c.n) (y * c.r % c.n) c = x * y * c.r % c.n := by
    rw [hc.mm_of_mul_r x hto0 (hto.trans hc.n_lt_r), mul_assoc]
    exact (Int.mod_modEq _ _).mul_left _
  rw [hc.mm_r2ModN hx0 hx, hc.mm_r2ModN hy0 hy, hc.mm_r2ModN hfrom0 hfrom, hc.mm_r2ModN hxy0 hxy, hproduct]
  refine ⟨?_, hc.mm_one_mul_r hx0 hx, hc.mm_one_of_mul_r _, ?_, hc.mm_of_mul_r x hy0 hyr⟩
  · rw [hc.mm_one_of_mul_r, Int.emod_eq_of_lt hx0 hx]
  · exact ((Int.mod_modEq _ _).mul_right _).symm

/-! ### The words of the commands (30_encoding.md R84) -/

section

variable {opcode f0 f1 f2 f3 f4 : Nat} (hop : opcode < 2 ^ 8) (h0 : f0 < 16) (h1 : f1 < 16) (h2 : f2 < 16)
  (h3 : f3 < 16) (h4 : f4 < 16)
include hop h0 h1 h2 h3 h4

/-- The context fields of MONTMUL, and of TOMONT and FROMMONT. -/
theorem lowCtxFields_formatR :
    ctxField (formatR opcode f0 f1 f2 f3 f4) 12 = Fin.ofNat 4 f2 ∧
    ctxField (formatR opcode f0 f1 f2 f3 f4) 8 = Fin.ofNat 4 f3 := by
  simp only [ctxField, bits_formatR hop h0 h1 h2 h3 h4, Fin.ext_iff, Fin.val_ofNat]
  omega

theorem bits_above_lowCtxField_formatR :
    bits (formatR opcode f0 f1 f2 f3 f4) 15 14 = f2 / 4 ∧ bits (formatR opcode f0 f1 f2 f3 f4) 11 10 = f3 / 4 := by
  simp only [bits_formatR hop h0 h1 h2 h3 h4]
  omega

end

theorem hasWord_montmul (rd rx ry : RegIdx) (cs : CtxIdx) :
    HasWord (.montmul rd rx ry cs)
      (0x24000000 + rd.val * 2 ^ 20 + rx.val * 2 ^ 16 + ry.val * 2 ^ 12 + cs.val * 2 ^ 8) := by
  refine ⟨rfl, ?_⟩
  change decode (formatR 0x24 rd rx ry cs 0) = _
  simp (disch := omega) only [decode, opcode_formatR, regFields_formatR, lowCtxFields_formatR, Fin.ofNat_val_eq_self,
    bits_above_lowCtxField_formatR, lowBits_formatR]
  exact requireZero_of_eq_zero _ (by omega)

/-- The word of TOMONT and of FROMMONT. -/
theorem hasWord_conversion {opcode : Nat} {f : RegIdx → RegIdx → CtxIdx → Instr} (hop : opcode < 2 ^ 8)
    (hencode : ∀ rd ra cs, encode (f rd ra cs) = formatR opcode rd ra cs 0 0)
    (hdecode : ∀ cw, bits cw 31 24 = opcode → decode cw =
      requireZero (bits cw 15 14 + bits cw 11 0) (f (regField cw 20) (regField cw 16) (ctxField cw 12)))
    (rd ra : RegIdx) (cs : CtxIdx) :
    HasWord (f rd ra cs) (opcode * 2 ^ 24 + rd.val * 2 ^ 20 + ra.val * 2 ^ 16 + cs.val * 2 ^ 12) := by
  have hword : BitVec.ofNat 32 (opcode * 2 ^ 24 + rd.val * 2 ^ 20 + ra.val * 2 ^ 16 + cs.val * 2 ^ 12) =
      formatR opcode rd ra cs 0 0 := by
    simp only [formatR, Nat.zero_mul, Nat.add_zero]
  rw [HasWord, hword]
  refine ⟨hencode rd ra cs, ?_⟩
  rw [hdecode _ (opcode_formatR hop rd.isLt ra.isLt (by omega) (by decide) (by decide))]
  simp (disch := omega) only [regFields_formatR, lowCtxFields_formatR, Fin.ofNat_val_eq_self,
    bits_above_lowCtxField_formatR, lowBits_formatR]
  exact requireZero_of_eq_zero _ (by omega)

/-! ### Operands: a source without a value, then an operand outside [0, N) (44_montgomery_multiplier.md R167) -/

section

variable {α : Type} {s : State}

/-- `readReg_bind_unwritten`, where what follows the sources can lack a value too. -/
theorem readReg_bind_invalidOperand {P : Prop} {j : RegIdx} {js : List RegIdx} {f : Int → Except ErrorKind α}
    (h : SomeUnwritten s (j :: js) ∨ P) (hf : SomeUnwritten s js ∨ P → ∀ a, f a = .error .invalidOperand) :
    (readReg s j >>= f) = .error .invalidOperand := by
  cases hj : s.reg j with
  | none => rw [readReg_none hj, error_bind]
  | some a =>
    rw [readReg_some hj, ok_bind]
    exact hf (h.imp_left fun h => ((someUnwritten_cons_iff s j js).1 h).resolve_left (by simp [hj])) a

/-- A context is read after every register. -/
theorem readCtx_bind_invalidOperand {cs : CtxIdx} {f : Context → Except ErrorKind α}
    (h : SomeUnwritten s [] ∨ s.ctxs.get cs = none) : (readCtx s cs >>= f) = .error .invalidOperand := by
  rw [readCtx_none (h.resolve_left (by simp [SomeUnwritten])), error_bind]

theorem residue_bind_inside {v n : Int} {f : Int → Except ErrorKind α} (h0 : 0 ≤ v) (hv : v < n) :
    (residue v n >>= f) = f v := by
  rw [(residue_ok_iff v n v).2 ⟨⟨h0, hv⟩, rfl⟩, ok_bind]

theorem residue_bind_outside {v n : Int} {f : Int → Except ErrorKind α} (h : v < 0 ∨ n ≤ v) :
    (residue v n >>= f) = .error .contractViolation := by
  rw [(residue_error_iff v n _).2 ⟨h, rfl⟩, error_bind]

/-- Two operands are checked one after the other; outside [0, N) both raise the same error. -/
theorem residue_bind_residue_outside {x y n : Int} {f : Int → Int → Except ErrorKind α}
    (h : x < 0 ∨ n ≤ x ∨ y < 0 ∨ n ≤ y) :
    (residue x n >>= fun x => residue y n >>= f x) = .error .contractViolation := by
  by_cases hx : x < 0 ∨ n ≤ x
  · exact residue_bind_outside hx
  · rw [residue_bind_inside (by omega) (by omega)]
    exact residue_bind_outside (by omega)

end

/-- What a command with one residue and a context does, where its result fits. -/
theorem raises_or_retires_of_residue {i : Instr} {s : State} {rd ra : RegIdx} {cs : CtxIdx}
    {op : Int → Context → Int}
    (hexec : exec i s = complete (encode i) s (readReg s ra >>= fun a => readCtx s cs >>= fun c =>
      residue a c.n >>= fun a => writeReg s rd (op a c))) :
    (SomeUnwritten s [ra] ∨ s.ctxs.get cs = none → Raises i s 5) ∧
      ∀ a c, s.regs.get ra = some a → s.ctxs.get cs = some c →
        (a < 0 ∨ c.n ≤ a → Raises i s 6) ∧
        (0 ≤ a → a < c.n → fits s.params (op a c) = true → RetiresToReg i s rd (op a c)) := by
  refine ⟨fun h => ?_, fun a c ha hcs => ?_⟩
  · exact raises_of_exec_eq_of_error hexec
      (readReg_bind_invalidOperand h fun h _ => readCtx_bind_invalidOperand h)
  · rw [readReg_some ha, ok_bind, readCtx_some hcs, ok_bind] at hexec
    refine ⟨fun h => raises_of_exec_eq_of_error hexec (residue_bind_outside h), fun h0 hlt hfits => ?_⟩
    rw [residue_bind_inside h0 hlt] at hexec
    exact retiresToReg_of_exec_eq hexec hfits

/-! ### The commands -/

theorem exec_montmul (s : State) (rd rx ry : RegIdx) (cs : CtxIdx) :
    exec (.montmul rd rx ry cs) s = complete (encode (.montmul rd rx ry cs)) s
      (readReg s rx >>= fun x => readReg s ry >>= fun y => readCtx s cs >>= fun c =>
        residue x c.n >>= fun x => residue y c.n >>= fun y => writeReg s rd (mm s.params.w x y c)) := rfl

theorem exec_tomont (s : State) (rd ra : RegIdx) (cs : CtxIdx) :
    exec (.tomont rd ra cs) s = complete (encode (.tomont rd ra cs)) s
      (readReg s ra >>= fun a => readCtx s cs >>= fun c =>
        residue a c.n >>= fun a => writeReg s rd (mm s.params.w a c.r2ModN c)) := rfl

theorem exec_frommont (s : State) (rd ra : RegIdx) (cs : CtxIdx) :
    exec (.frommont rd ra cs) s = complete (encode (.frommont rd ra cs)) s
      (readReg s ra >>= fun a => readCtx s cs >>= fun c =>
        residue a c.n >>= fun a => writeReg s rd (mm s.params.w a 1 c)) := rfl

/-- Settles O52: the product of two residues is a residue, so it fits. -/
theorem montmulWritesMontgomeryProduct : Obligations.MontmulWritesMontgomeryProduct := by
  intro s rd rx ry cs
  have hexec := exec_montmul s rd rx ry cs
  refine ⟨hasWord_montmul rd rx ry cs, fun h => ?_, fun x y c hrx hry hcs => ?_⟩
  · exact raises_of_exec_eq_of_error hexec (readReg_bind_invalidOperand h fun h _ =>
      readReg_bind_invalidOperand h fun h _ => readCtx_bind_invalidOperand h)
  · rw [readReg_some hrx, ok_bind, readReg_some hry, ok_bind, readCtx_some hcs, ok_bind] at hexec
    refine ⟨fun h => raises_of_exec_eq_of_error hexec (residue_bind_residue_outside h),
      fun hc hx0 hx hy0 hy => ?_⟩
    rw [residue_bind_inside hx0 hx, residue_bind_inside hy0 hy] at hexec
    obtain ⟨hz0, hz⟩ := hc.mm_bounds hx0 hx hy0 (hy.trans hc.n_lt_r)
    exact ⟨_, hz0, hz, hc.mm_mul_r_modEq hx0 hx hy0, retiresToReg_of_exec_eq hexec (hc.fits_of_lt hz0 hz)⟩

/-- Settles O53: the multiplier's product with `R2_mod_N` is `a·R mod N`. -/
theorem tomontWritesResidue : Obligations.TomontWritesResidue := by
  intro s rd ra cs
  obtain ⟨hraises, hvalues⟩ :=
    raises_or_retires_of_residue (op := fun a c => mm s.params.w a c.r2ModN c) (exec_tomont s rd ra cs)
  refine ⟨hasWord_conversion (f := .tomont) (by decide) (fun _ _ _ => rfl) (fun _ h => ?_) rd ra cs, hraises,
    fun a c ha hcs => ?_⟩
  · simp only [decode, h]
  obtain ⟨houtside, hretires⟩ := hvalues a c ha hcs
  refine ⟨houtside, fun hc h0 hlt => ?_⟩
  obtain ⟨hz0, hz⟩ := hc.emod_bounds (a * c.r)
  have hvalue := hc.mm_r2ModN h0 hlt
  exact hvalue ▸ hretires h0 hlt (hvalue ▸ hc.fits_of_lt hz0 hz)

/-- Settles O54: the multiplier's product with 1. -/
theorem frommontWritesOrdinaryValue : Obligations.FrommontWritesOrdinaryValue := by
  intro s rd ra cs
  obtain ⟨hraises, hvalues⟩ :=
    raises_or_retires_of_residue (op := fun a c => mm s.params.w a 1 c) (exec_frommont s rd ra cs)
  refine ⟨hasWord_conversion (f := .frommont) (by decide) (fun _ _ _ => rfl) (fun _ h => ?_) rd ra cs, hraises,
    fun a c ha hcs => ?_⟩
  · simp only [decode, h]
  obtain ⟨houtside, hretires⟩ := hvalues a c ha hcs
  refine ⟨houtside, fun hc h0 hlt => ?_⟩
  obtain ⟨hz0, hz⟩ := hc.mm_one_bounds h0 hlt
  exact ⟨_, hz0, hz, hc.mm_one_mul_r h0 hlt, hretires h0 hlt (hc.fits_of_lt hz0 hz)⟩

end Sys2Proof.Machine

/-! ## Modular exponentiation (45_modular_exponentiation.md) -/

namespace Sys2Proof.Machine

open Claims

/-! ### The scan of the exponent (45_modular_exponentiation.md R182) -/

/-- Bit `i` is what the exponent above it leaves out. -/
theorem natAbs_div_two_pow_eq (e : Int) (i : Nat) :
    e.natAbs / 2 ^ i = e.natAbs / 2 ^ (i + 1) + e.natAbs / 2 ^ (i + 1) + (bitOf e i).toNat := by
  have hquot : e.natAbs / 2 ^ (i + 1) = e.natAbs / 2 ^ i / 2 := by rw [pow_succ, Nat.div_div_eq_div_mul]
  rw [hquot, bitOf, Bool.toNat, Bool.cond_decide]
  split_ifs <;> omega

section

variable {p : Params} {c : Context} (hc : c.valid p)
include hc

/-- The Montgomery domain is closed under the multiplier. -/
theorem Context.valid.mm_of_mul_r_of_mul_r (a b : Int) :
    mm p.w (a * c.r % c.n) (b * c.r % c.n) c = a * b * c.r % c.n := by
  obtain ⟨h0, hlt⟩ := hc.emod_bounds (b * c.r)
  rw [hc.mm_of_mul_r a h0 (hlt.trans hc.n_lt_r), mul_assoc]
  exact (Int.mod_modEq _ _).mul_left _

/-- One bit doubles the exponent of the accumulator and adds the bit. -/
theorem Context.valid.expBit_of_pow (b e : Int) (i k : Nat) :
    expBit p.w c (b * c.r % c.n) e i (b ^ k * c.r % c.n) = b ^ (k + k + (bitOf e i).toNat) * c.r % c.n := by
  rw [expBit, hc.mm_of_mul_r_of_mul_r, ← pow_add]
  cases bitOf e i with
  | false => rfl
  | true => rw [if_pos rfl, hc.mm_of_mul_r_of_mul_r, ← pow_succ, Bool.toNat_true]

/-- The accumulator before bit `i - 1` is the base to the exponent's bits from `i` up, in the Montgomery domain. -/
theorem Context.valid.expScan_of_pow (b e : Int) (i : Nat) :
    expScan p.w c (b * c.r % c.n) e i (b ^ (e.natAbs / 2 ^ i) * c.r % c.n) = b ^ e.natAbs * c.r % c.n := by
  induction i with
  | zero => rw [pow_zero, Nat.div_one, expScan]
  | succ i ih => rw [expScan, hc.expBit_of_pow, ← natAbs_div_two_pow_eq, ih]

/-- CONVERT: the reduced base enters the Montgomery domain as the base itself does. -/
theorem Context.valid.mm_reduceBase (m : Int) : mm p.w (reduceBase m c.n) c.r2ModN c = m * c.r % c.n := by
  obtain ⟨h0, hlt⟩ := hc.emod_bounds m
  rw [reduceBase_eq hc.n_pos, hc.mm_r2ModN h0 hlt]
  exact (Int.mod_modEq _ _).mul_right _

/-- The scan starts from `R_mod_N`, the power with no bit of the exponent. -/
theorem Context.valid.rModN_eq_pow (m e : Int) :
    c.rModN = m ^ (e.natAbs / 2 ^ bitlen e) * c.r % c.n := by
  obtain ⟨-, -, -, -, -, hrModN, -⟩ := hc
  rw [hrModN, Nat.div_eq_of_lt (natAbs_lt_two_pow_bitlen e), pow_zero, one_mul]

theorem Context.valid.expWith_eq (m e : Int) : expWith p.w m e c = m ^ e.natAbs % c.n := by
  simp only [expWith]
  rw [hc.mm_reduceBase, hc.rModN_eq_pow m e, hc.expScan_of_pow, hc.mm_one_of_mul_r]

end

/-! ### The checks of the exponent and the modulus (45_modular_exponentiation.md R184) -/

theorem modexp_of_neg (w : Nat) (m : Int) {e : Int} (n : Int) (he : e < 0) :
    modexp w m e n = .error .contractViolation := if_pos he

theorem modexp_of_nonneg (w : Nat) (m : Int) {e : Int} (n : Int) (he : 0 ≤ e) :
    modexp w m e n =
      if n = 0 then .error .divisionByZero else ctxDerive w n >>= fun c => .ok (expWith w m e c) := by
  rw [modexp, if_neg he.not_gt]
  cases ctxDerive w n <;> rfl

/-- An odd modulus from a register has a valid context, so the power is exact. -/
theorem modexp_of_odd {p : Params} (m : Int) {e n : Int} (he : 0 ≤ e) (hn : 0 < n) (hodd : n % 2 = 1)
    (hfits : fits p n = true) : modexp p.w m e n = .ok (m ^ e.toNat % n) := by
  obtain ⟨a, b, hbezout, hderive⟩ := ctxDerive_of_odd p.w_pos hn hodd
  have hvalid : (contextOf p.w n a).valid p := contextOf_valid hn hfits hbezout
  have hexp : e.natAbs = e.toNat := by omega
  rw [modexp_of_nonneg p.w m n he, if_neg hn.ne', hderive, ok_bind, hvalid.expWith_eq, hexp]
  rfl

/-! ### The command (45_modular_exponentiation.md R181) -/

theorem hasWord_modexp (rd rm re rn : RegIdx) :
    HasWord (.modexp rd rm re rn)
      (0x27000000 + rd.val * 2 ^ 20 + rm.val * 2 ^ 16 + re.val * 2 ^ 12 + rn.val * 2 ^ 8) := by
  refine ⟨rfl, ?_⟩
  change decode (formatR 0x27 rd rm re rn 0) = _
  simp (disch := omega) only [decode, opcode_formatR, regFields_formatR, lowBits_formatR]
  exact requireZero_of_eq_zero _ rfl

theorem exec_modexp (s : State) (rd rm re rn : RegIdx) :
    exec (.modexp rd rm re rn) s = complete (encode (.modexp rd rm re rn)) s
      (readReg s rm >>= fun m => readReg s re >>= fun e => readReg s rn >>= fun n =>
        modexp s.params.w m e n >>= fun v => writeReg s rd v) := rfl

/-- With its sources read, the command raises what `modexp` raises. -/
theorem raises_of_modexp_error {i : Instr} {s : State} {rd : RegIdx} {m e n : Int} {k : ErrorKind}
    (hexec : exec i s = complete (encode i) s (modexp s.params.w m e n >>= fun v => writeReg s rd v))
    (h : modexp s.params.w m e n = .error k) : Raises i s k.code :=
  raises_of_exec_eq_of_error hexec (by rw [h, error_bind])

/-- Settles O57: after the checks the scan computes the power in the Montgomery domain, and the residue fits because the
modulus does. -/
theorem modexpWritesPower : Obligations.ModexpWritesPower := by
  intro s rd rm re rn hregs
  have hexec := exec_modexp s rd rm re rn
  refine ⟨hasWord_modexp rd rm re rn, fun h => ?_, fun m e n hrm hre hrn => ?_⟩
  · exact raises_of_exec_eq_of_error hexec (readReg_bind_unwritten h fun h _ =>
      readReg_bind_unwritten h fun h _ => readReg_bind_last_unwritten h)
  rw [readReg_some hrm, ok_bind, readReg_some hre, ok_bind, readReg_some hrn, ok_bind] at hexec
  refine ⟨fun he => raises_of_modexp_error hexec (modexp_of_neg _ m n he), fun he hn => ?_, fun he hn => ?_,
    fun he hn heven => ?_, fun he hn hodd => ?_⟩
  · refine raises_of_modexp_error hexec (k := .divisionByZero) ?_
    rw [modexp_of_nonneg _ m n he, if_pos hn]
  · refine raises_of_modexp_error hexec (k := .invalidInput) ?_
    rw [modexp_of_nonneg _ m n he, if_neg hn.ne, ctxDerive_of_nonpos _ hn.le, error_bind]
  · refine raises_of_modexp_error hexec (k := .notInvertible) ?_
    rw [modexp_of_nonneg _ m n he, if_neg hn.ne', ctxDerive_of_even s.params.w_pos hn heven, error_bind]
  · have hfits := hregs.fits_of_reg hrn
    have hbounds : 0 ≤ m ^ e.toNat % n ∧ m ^ e.toNat % n < n :=
      ⟨Int.emod_nonneg _ hn.ne', Int.emod_lt_of_pos _ hn⟩
    rw [modexp_of_odd m he hn hodd hfits, ok_bind] at hexec
    exact retiresToReg_of_exec_eq hexec (fits_of_natAbs_le hfits (by omega))

end Sys2Proof.Machine

/-! ## Words that no row matches (30_encoding.md R89 to R92) -/

namespace Sys2Proof.Machine

theorem requireZero_ok_iff {z : Nat} {i j : Instr} : requireZero z i = .ok j ↔ z = 0 ∧ i = j := by
  unfold requireZero
  split_ifs with h <;> simp [h]

/-- The fields, high bit and low bit, that the mask of the command's row is made of (30_encoding.md R89). -/
def fixedFields : Instr → List (Nat × Nat)
  | .nop => [(31, 24), (23, 0)]
  | .li _ _ | .ld _ _ | .st _ _ | .shl _ _ _ | .shr _ _ _ => [(31, 24)]
  | .add _ _ _ | .sub _ _ _ | .mul _ _ _ | .div _ _ _ | .mod _ _ _ => [(31, 24), (11, 0)]
  | .sqr _ _ => [(31, 24), (15, 0)]
  | .modmul _ _ _ _ | .modexp _ _ _ _ => [(31, 24), (7, 0)]
  | .egcd _ _ _ _ _ => [(31, 24), (3, 0)]
  | .ctxsetup _ _ => [(31, 24), (23, 22), (15, 0)]
  | .ctxgetN _ _ | .ctxgetNwords _ _ | .ctxgetR _ _ | .ctxgetRmodn _ _ | .ctxgetR2modn _ _ | .ctxgetNinv _ _ =>
    [(31, 24), (19, 18), (15, 12), (11, 0)]
  | .ctxclr _ => [(31, 24), (23, 22), (19, 0)]
  | .montmul _ _ _ _ => [(31, 24), (11, 10), (7, 0)]
  | .tomont _ _ _ | .frommont _ _ _ => [(31, 24), (15, 14), (11, 0)]

/-- The word agrees with the pattern of the command's row on the row's fixed fields. -/
def AgreesWithPattern (i : Instr) (cw : Word32) : Prop :=
  ∀ g ∈ fixedFields i, bits cw g.1 g.2 = bits i.row.pattern g.1 g.2

/-- A word matches a command's row exactly when it agrees with the pattern on the fixed fields. -/
theorem matches_row_iff (i : Instr) (cw : Word32) : cw &&& i.row.mask = i.row.pattern ↔ AgreesWithPattern i cw := by
  cases i
  all_goals
    simp only [AgreesWithPattern, fixedFields, Instr.row]
    exact and_mask_eq_iff _ (by decide) (by decide) (by decide) cw

theorem row_mem_opcodeTable (i : Instr) : i.row ∈ opcodeTable := by
  cases i <;> simp [Instr.row, opcodeTable]

theorem agreesWithPattern_of_decodeCtxget {cw : Word32} {i : Instr} (hop : bits cw 31 24 = 0x22)
    (h : decodeCtxget cw = .ok i) : AgreesWithPattern i cw := by
  unfold decodeCtxget at h
  split at h
  case h_7 => exact absurd h nofun
  all_goals
    rename_i hsel
    obtain ⟨hzero, rfl⟩ := requireZero_ok_iff.1 h
    obtain ⟨hhigh, hlow⟩ := Nat.add_eq_zero_iff.1 hzero
    simp only [AgreesWithPattern, fixedFields, Instr.row, List.forall_mem_cons, List.not_mem_nil, false_implies,
      implies_true, hop, hsel, hhigh, hlow]
    decide

theorem agreesWithPattern_of_decodeEgcd {cw : Word32} {i : Instr} (hop : bits cw 31 24 = 0x20)
    (h : decodeEgcd cw = .ok i) : AgreesWithPattern i cw := by
  unfold decodeEgcd at h
  split_ifs at h
  obtain ⟨hzero, rfl⟩ := requireZero_ok_iff.1 h
  simp only [AgreesWithPattern, fixedFields, Instr.row, List.forall_mem_cons, List.not_mem_nil, false_implies,
    implies_true, hop, hzero]
  decide

/-- A word that decodes has the fixed fields of its command's row (30_encoding.md R91). -/
theorem agreesWithPattern_of_decode {cw : Word32} {i : Instr} (h : decode cw = .ok i) : AgreesWithPattern i cw := by
  unfold decode at h
  split at h
  all_goals rename_i hop
  case h_22 => exact absurd h nofun
  case h_2 | h_3 | h_4 | h_11 | h_12 =>
    obtain rfl := Except.ok.inj h
    simp only [AgreesWithPattern, fixedFields, Instr.row, List.forall_mem_cons, List.not_mem_nil, false_implies,
      implies_true, hop]
    decide
  case h_16 => exact agreesWithPattern_of_decodeCtxget hop h
  case h_14 => exact agreesWithPattern_of_decodeEgcd hop h
  all_goals
    simp only [requireZero_ok_iff, Nat.add_eq_zero_iff] at h
    obtain ⟨hzero, rfl⟩ := h
    simp only [AgreesWithPattern, fixedFields, Instr.row, List.forall_mem_cons, List.not_mem_nil, false_implies,
      implies_true, hop, hzero]
    decide

/-- An EGCD word with repeated destinations does not decode (30_encoding.md R90). -/
theorem decode_repeatedDestination {cw : Word32} (hop : bits cw 31 24 = 0x20)
    (h : bits cw 23 20 = bits cw 19 16 ∨ bits cw 23 20 = bits cw 15 12 ∨ bits cw 19 16 = bits cw 15 12) :
    decode cw = .error .repeatedDestination := by
  simp only [decode, hop]
  apply decodeEgcd_of_repeated
  rw [← Bool.not_eq_true, distinctDestinations_iff]
  rintro ⟨hgp, hgq, hpq⟩
  rcases h with h | h | h
  · exact hgp (congrArg (Fin.ofNat 16) h)
  · exact hgq (congrArg (Fin.ofNat 16) h)
  · exact hpq (congrArg (Fin.ofNat 16) h)

/-- A word that no row matches does not decode (30_encoding.md R92). -/
theorem decode_unmatched {cw : Word32} (h : ∀ r ∈ opcodeTable, cw &&& r.mask ≠ r.pattern) :
    ∃ d, decode cw = .error d := by
  cases hdecode : decode cw with
  | error d => exact ⟨d, rfl⟩
  | ok i => exact absurd ((matches_row_iff i cw).2 (agreesWithPattern_of_decode hdecode)) (h _ (row_mem_opcodeTable i))

/-- Settles O6: neither kind of word decodes, and issuing a word that does not decode looks at no register. -/
theorem illegalWordRaisesIllegalCommand : Obligations.IllegalWordRaisesIllegalCommand := by
  intro s cw rest hpending hhalted hillegal
  have herror : ∃ d, decode cw = .error d := by
    rcases hillegal with hunmatched | ⟨hop, hrepeated⟩
    · exact decode_unmatched hunmatched
    · exact ⟨_, decode_repeatedDestination hop hrepeated⟩
  obtain ⟨d, hd⟩ := herror
  rw [step_access hpending]
  exact issue_illegal hhalted hd

end Sys2Proof.Machine

/-! ## Halting and errors of commands (60_exceptions.md) -/

namespace Sys2Proof.Machine

open Claims

/-- Settles O15, by the cases of a step: a halted engine runs no command, and three of the four CTRL values act. -/
theorem haltedUntilCtrlWrite : Obligations.HaltedUntilCtrlWrite := by
  intro s t hhalted h
  cases stepTo_of_step h with
  | idle _ | read _ | dropped _ _ | ctrlZero _ | stored _ _ => exact .inl ⟨hhalted, rfl, rfl, rfl, rfl, rfl⟩
  | retired _ hrunning _ | faulted _ hrunning _ => simp [hhalted] at hrunning
  | reset hpending hv => exact .inr ⟨_, _, hpending, .inr hv⟩
  | cleared hpending => exact .inr ⟨_, _, hpending, .inl rfl⟩

/-- Settles O26: every command is checks and one write, ended by `complete`. -/
theorem everyCommandRetiresOrRaises : Obligations.EveryCommandRetiresOrRaises := by
  intro i s
  obtain ⟨u, hu, hk⟩ | ⟨e, he⟩ := exec_retires_or_faults i s
  · exact .inl ⟨retire u, hu, congrArg (· + 1) hk.cmdseq, hk.status, hk.faultcmd, hk.params, hk.pending, hk.reads⟩
  · exact .inr ⟨e.code, e.code_pos, e.code_le, he⟩

/-! ### The errors a command can raise (60_exceptions.md R211) -/

/-- The command ends with its writes made and `STATUS` as it was, or in an error with one of the codes. -/
def EndsWithin (s : State) (codes : List Nat) (r : Except ErrorKind State) : Prop :=
  (∃ u, r = .ok u ∧ u.status = s.status) ∨ ∃ e, r = .error e ∧ e.code ∈ codes

theorem endsWithin_ok {s u : State} {codes : List Nat} (h : u.status = s.status) : EndsWithin s codes (.ok u) :=
  .inl ⟨u, rfl, h⟩

theorem endsWithin_error {s : State} {codes : List Nat} {e : ErrorKind} (h : e.code ∈ codes) :
    EndsWithin s codes (.error e) :=
  .inr ⟨e, rfl, h⟩

/-- A check adds its own errors to those of what follows it. -/
theorem endsWithin_bind {α : Type} {s : State} {codes : List Nat} {x : Except ErrorKind α}
    {f : α → Except ErrorKind State} (hx : ∀ e, x = .error e → e.code ∈ codes)
    (hf : ∀ a, x = .ok a → EndsWithin s codes (f a)) : EndsWithin s codes (x >>= f) := by
  cases x with
  | ok a => exact hf a rfl
  | error e => exact endsWithin_error (hx e rfl)

theorem State.ctxsValid.valid_of_ctx {s : State} (hs : s.ctxsValid) {k : CtxIdx} {c : Context} (hc : s.ctx k = some c) :
    c.valid s.params := by
  have hk := hs k
  rw [show s.ctxs.get k = some c from hc, Option.all_some] at hk
  exact of_decide_eq_true hk

theorem egcd_error {x y : Int} {e : ErrorKind} (h : egcd x y = .error e) : e = .invalidInput := by
  by_cases hneg : x ≤ 0 ∨ y ≤ 0
  · simpa [egcd_invalid hneg, eq_comm] using h
  · obtain ⟨_, _, _, hok, -⟩ := egcd_ok (x := x) (y := y) (by omega) (by omega)
    simp [hok] at h

theorem ctxDerive_error {w : Nat} {n : Int} {e : ErrorKind} (h : ctxDerive w n = .error e) :
    e = .invalidInput ∨ e = .notInvertible := by
  unfold ctxDerive at h
  split at h
  · rename_i hegcd
    obtain rfl := Except.error.inj h
    exact .inl (egcd_error hegcd)
  · split_ifs at h
    exact .inr (Except.error.inj h).symm

theorem loadImage_error {s : State} {a : Nat} {e : ErrorKind} (h : loadImage s a = .error e) :
    e = .memoryFault ∨ e = .badFormat := by
  rw [loadImage_eq] at h
  split_ifs at h <;> obtain rfl := Except.error.inj h
  · exact .inl rfl
  · exact .inl rfl
  · exact .inr rfl

theorem modexp_error {w : Nat} {m e n : Int} {k : ErrorKind} (h : modexp w m e n = .error k) :
    k = .contractViolation ∨ k = .divisionByZero ∨ k = .invalidInput ∨ k = .notInvertible := by
  by_cases he : e < 0
  · rw [modexp_of_neg w m n he] at h
    exact .inl (Except.error.inj h).symm
  · rw [modexp_of_nonneg w m n (by omega)] at h
    split_ifs at h
    · exact .inr (.inl (Except.error.inj h).symm)
    · obtain hderive | ⟨_, -, hok⟩ := (bind_error_iff _ _ _).1 h
      · exact .inr (.inr (ctxDerive_error hderive))
      · exact absurd hok nofun

/-- The power is a residue of a modulus that came from a register. -/
theorem fits_of_modexp {p : Params} {m e n v : Int} (hn : fits p n = true) (h : modexp p.w m e n = .ok v) :
    fits p v = true := by
  by_cases he : e < 0
  · simp [modexp_of_neg p.w m n he] at h
  · rw [modexp_of_nonneg p.w m n (by omega)] at h
    split_ifs at h
    obtain ⟨c, hderive, hv⟩ := (bind_ok_iff _ _ _).1 h
    have hc := ctxDerive_valid hn hderive
    obtain rfl := Except.ok.inj hv
    obtain ⟨hz0, hz⟩ := hc.emod_bounds (m ^ e.natAbs)
    rw [hc.expWith_eq]
    exact hc.fits_of_lt hz0 hz

section

variable {s : State} {codes : List Nat}

/-! #### Checks -/

theorem endsWithin_readReg {i : RegIdx} {f : Int → Except ErrorKind State}
    (hf : ∀ v, s.reg i = some v → EndsWithin s codes (f v)) (hcode : 5 ∈ codes := by simp [possibleCodes]) :
    EndsWithin s codes (readReg s i >>= f) := by
  refine endsWithin_bind (fun e he => ?_) fun v hv => hf v ((readReg_ok_iff s i v).1 hv)
  obtain ⟨-, rfl⟩ := (readReg_error_iff s i e).1 he
  exact hcode

theorem endsWithin_readCtx {k : CtxIdx} {f : Context → Except ErrorKind State}
    (hf : ∀ c, s.ctx k = some c → EndsWithin s codes (f c)) (hcode : 5 ∈ codes := by simp [possibleCodes]) :
    EndsWithin s codes (readCtx s k >>= f) := by
  refine endsWithin_bind (fun e he => ?_) fun c hc => hf c ((readCtx_ok_iff s k c).1 hc)
  obtain ⟨-, rfl⟩ := (readCtx_error_iff s k e).1 he
  exact hcode

theorem endsWithin_unlessZero {b v : Int} {f : Int → Except ErrorKind State}
    (hf : b ≠ 0 → EndsWithin s codes (f v)) (hcode : 3 ∈ codes := by simp [possibleCodes]) :
    EndsWithin s codes (unlessZero b v >>= f) := by
  refine endsWithin_bind (fun e he => ?_) fun u hu => ?_
  · obtain ⟨-, rfl⟩ := (unlessZero_error_iff b v e).1 he
    exact hcode
  · obtain ⟨hb, rfl⟩ := (unlessZero_ok_iff b v u).1 hu
    exact hf hb

theorem endsWithin_residue {v n : Int} {f : Int → Except ErrorKind State}
    (hf : 0 ≤ v → v < n → EndsWithin s codes (f v)) (hcode : 6 ∈ codes := by simp [possibleCodes]) :
    EndsWithin s codes (residue v n >>= f) := by
  refine endsWithin_bind (fun e he => ?_) fun u hu => ?_
  · obtain ⟨-, rfl⟩ := (residue_error_iff v n e).1 he
    exact hcode
  · obtain ⟨⟨h0, hlt⟩, rfl⟩ := (residue_ok_iff v n u).1 hu
    exact hf h0 hlt

/-! #### Writes -/

theorem endsWithin_writeReg {i : RegIdx} {v : Int} (hcode : 8 ∈ codes := by simp [possibleCodes]) :
    EndsWithin s codes (writeReg s i v) := by
  rw [writeReg]
  split_ifs
  · exact endsWithin_ok rfl
  · exact endsWithin_error hcode

/-- A value that fits is written without an error. -/
theorem endsWithin_writeReg_of_fits {i : RegIdx} {v : Int} (h : fits s.params v = true) :
    EndsWithin s codes (writeReg s i v) := by
  rw [writeReg_fits i h]
  exact endsWithin_ok rfl

theorem endsWithin_writeReg_of_residue {i : RegIdx} {c : Context} {z : Int} (hc : c.valid s.params)
    (hz : 0 ≤ z ∧ z < c.n) : EndsWithin s codes (writeReg s i z) := by
  obtain ⟨hz0, hlt⟩ := hz
  exact endsWithin_writeReg_of_fits (hc.fits_of_lt hz0 hlt)

theorem endsWithin_writeRegs3 {i j k : RegIdx} {u v w : Int} (hcode : 8 ∈ codes := by simp [possibleCodes]) :
    EndsWithin s codes (writeRegs3 s i j k u v w) := by
  rw [writeRegs3]
  split_ifs
  · exact endsWithin_ok rfl
  · exact endsWithin_error hcode

theorem endsWithin_storeImage {a : Nat} {v : Int} (hcode : 7 ∈ codes := by simp [possibleCodes]) :
    EndsWithin s codes (storeImage s a v) := by
  rw [storeImage]
  split_ifs
  · exact endsWithin_error hcode
  · exact endsWithin_ok rfl

/-- Every field of a valid context but R fits (43_montgomery_context.md R154). -/
theorem endsWithin_ctxAttribute_of_fits {rd : RegIdx} {cs : CtxIdx} {pick : Context → Int} (hctxs : s.ctxsValid)
    (hpick : ∀ c, c.valid s.params → FitsReg s (pick c)) (hcode : 5 ∈ codes := by simp [possibleCodes]) :
    EndsWithin s codes (ctxAttribute s rd cs pick) :=
  endsWithin_readCtx (fun c hc => endsWithin_writeReg_of_fits ((fits_iff _ _).2 (hpick c (hctxs.valid_of_ctx hc)))) hcode

end

/-- In a legal state a command ends within its row of the table: the values the table exempts from CAP_WORDS fit. -/
theorem exec_endsWithin {i : Instr} {s : State} (hwf : i.wellFormed = true) (hregs : s.regsFit) (hctxs : s.ctxsValid) :
    ∃ r, exec i s = complete (encode i) s r ∧ EndsWithin s (possibleCodes i) r := by
  cases i with
  | nop => exact ⟨_, rfl, endsWithin_ok rfl⟩
  | ctxclr cd => exact ⟨.ok (s.setCtx cd none), rfl, endsWithin_ok rfl⟩
  | li rd imm20 => exact ⟨_, rfl, endsWithin_writeReg⟩
  | ld rd imm20 =>
    refine ⟨_, rfl, endsWithin_bind (fun e he => ?_) fun _ _ => endsWithin_writeReg⟩
    rcases loadImage_error he with rfl | rfl <;> simp [possibleCodes, ErrorKind.code]
  | st rs imm20 => exact ⟨_, rfl, endsWithin_readReg fun _ _ => endsWithin_storeImage⟩
  | sqr rd ra | shl rd ra imm16 => exact ⟨_, rfl, endsWithin_readReg fun _ _ => endsWithin_writeReg⟩
  | add rd ra rb | sub rd ra rb | mul rd ra rb =>
    exact ⟨_, rfl, endsWithin_readReg fun _ _ => endsWithin_readReg fun _ _ => endsWithin_writeReg⟩
  | shr rd ra imm16 =>
    exact ⟨_, rfl, endsWithin_readReg fun _ ha => endsWithin_writeReg_of_fits (fits_tdiv _ (hregs.fits_of_reg ha))⟩
  | div rd ra rb =>
    exact ⟨_, rfl, endsWithin_readReg fun _ ha => endsWithin_readReg fun _ _ => endsWithin_unlessZero fun _ =>
      endsWithin_writeReg_of_fits (fits_tdiv _ (hregs.fits_of_reg ha))⟩
  | mod rd ra rb =>
    exact ⟨_, rfl, endsWithin_readReg fun _ _ => endsWithin_readReg fun _ hb => endsWithin_unlessZero fun hne =>
      endsWithin_writeReg_of_fits (fits_trem _ (hregs.fits_of_reg hb) hne)⟩
  | modmul rd ra rb rm =>
    exact ⟨_, rfl, endsWithin_readReg fun _ _ => endsWithin_readReg fun _ _ => endsWithin_readReg fun _ hm =>
      endsWithin_unlessZero fun hne => endsWithin_writeReg_of_fits (fits_trem _ (hregs.fits_of_reg hm) hne)⟩
  | egcd rg rp rq rx ry =>
    refine ⟨_, exec_egcd rx ry s hwf, endsWithin_readReg fun _ _ => endsWithin_readReg fun _ _ =>
      endsWithin_bind (fun e he => ?_) fun _ _ => endsWithin_writeRegs3⟩
    obtain rfl := egcd_error he
    simp [possibleCodes, ErrorKind.code]
  | ctxsetup cd rn =>
    refine ⟨_, rfl, endsWithin_readReg fun _ _ => endsWithin_bind (fun e he => ?_) fun _ _ => endsWithin_ok rfl⟩
    rcases ctxDerive_error he with rfl | rfl <;> simp [possibleCodes, ErrorKind.code]
  | ctxgetN rd cs =>
    exact ⟨_, rfl, endsWithin_ctxAttribute_of_fits hctxs fun _ hc => have ⟨hn, _⟩ := hc.fitsReg; hn⟩
  | ctxgetNwords rd cs =>
    exact ⟨_, rfl, endsWithin_ctxAttribute_of_fits hctxs fun _ hc => have ⟨_, hwords, _⟩ := hc.fitsReg; hwords⟩
  | ctxgetR rd cs => exact ⟨_, rfl, endsWithin_readCtx fun _ _ => endsWithin_writeReg⟩
  | ctxgetRmodn rd cs =>
    exact ⟨_, rfl, endsWithin_ctxAttribute_of_fits hctxs fun _ hc => have ⟨_, _, hr, _⟩ := hc.fitsReg; hr⟩
  | ctxgetR2modn rd cs =>
    exact ⟨_, rfl, endsWithin_ctxAttribute_of_fits hctxs fun _ hc => have ⟨_, _, _, hr2, _⟩ := hc.fitsReg; hr2⟩
  | ctxgetNinv rd cs =>
    exact ⟨_, rfl, endsWithin_ctxAttribute_of_fits hctxs fun _ hc => have ⟨_, _, _, _, hinv⟩ := hc.fitsReg; hinv⟩
  | montmul rd rx ry cs =>
    refine ⟨_, rfl, endsWithin_readReg fun x _ => endsWithin_readReg fun y _ => endsWithin_readCtx fun c hcs =>
      endsWithin_residue fun hx0 hx => endsWithin_residue fun hy0 hy => ?_⟩
    have hc := hctxs.valid_of_ctx hcs
    exact endsWithin_writeReg_of_residue hc (hc.mm_bounds hx0 hx hy0 (hy.trans hc.n_lt_r))
  | tomont rd ra cs =>
    refine ⟨_, rfl, endsWithin_readReg fun a _ => endsWithin_readCtx fun c hcs =>
      endsWithin_residue fun ha0 ha => ?_⟩
    have hc := hctxs.valid_of_ctx hcs
    obtain ⟨hr0, hr⟩ := hc.r2ModN_bounds
    exact endsWithin_writeReg_of_residue hc (hc.mm_bounds ha0 ha hr0 (hr.trans hc.n_lt_r))
  | frommont rd ra cs =>
    refine ⟨_, rfl, endsWithin_readReg fun a _ => endsWithin_readCtx fun c hcs =>
      endsWithin_residue fun ha0 ha => ?_⟩
    have hc := hctxs.valid_of_ctx hcs
    exact endsWithin_writeReg_of_residue hc (hc.mm_one_bounds ha0 ha)
  | modexp rd rm re rn =>
    refine ⟨_, rfl, endsWithin_readReg fun _ _ => endsWithin_readReg fun _ _ => endsWithin_readReg fun n hn =>
      endsWithin_bind (fun e he => ?_) fun v hv =>
        endsWithin_writeReg_of_fits (fits_of_modexp (hregs.fits_of_reg hn) hv)⟩
    rcases modexp_error he with rfl | rfl | rfl | rfl <;> simp [possibleCodes, ErrorKind.code]

/-- Settles O29: check by check, each error of a command is in its row, and the results the row exempts fit. -/
theorem commandRaisesOnlyTableErrors : Obligations.CommandRaisesOnlyTableErrors := by
  rintro i s t hwf ⟨-, hregs, hctxs, -⟩ hstatus h
  obtain ⟨r, hexec, hends⟩ := exec_endsWithin hwf hregs hctxs
  rw [hexec] at h
  obtain ⟨u, rfl, hu⟩ | ⟨e, rfl, he⟩ := hends
  · obtain rfl := Host.Outcome.next.inj h
    exact .inl (hu.trans hstatus)
  · obtain rfl := Host.Outcome.next.inj h
    exact .inr (by rwa [takeFault_err])

end Sys2Proof.Machine

/-! ## Encoding and decoding (30_encoding.md R81 to R92) -/

namespace Sys2Proof.Machine

open Claims

/-! ### Decoding an encoding (30_encoding.md R91) -/

theorem decode_encode_of_hasWord {i : Instr} {w : Nat} (h : HasWord i w) : decode (encode i) = .ok i := by
  obtain ⟨hencode, hdecode⟩ := h
  rw [hencode, hdecode]

/-- Settles O1, command by command: each row's word, field by field, is read back as the operands put into it. -/
theorem encodeDecodeRoundTrip : Obligations.EncodeDecodeRoundTrip := by
  intro i hwf
  cases i with
  | nop => rfl
  | li rd imm20 => exact decode_encode_of_hasWord (hasWord_li rd imm20)
  | ld rd imm20 => exact decode_encode_of_hasWord (hasWord_ld rd imm20)
  | st rs imm20 => exact decode_encode_of_hasWord (hasWord_st rs imm20)
  | add rd ra rb | sub rd ra rb | mul rd ra rb | div rd ra rb | mod rd ra rb =>
    exact decode_encode_of_hasWord
      (hasWord_three_registers (by decide) (fun _ _ _ => rfl) (fun _ hop => by simp only [decode, hop]) rd ra rb)
  | sqr rd ra => exact decode_encode_of_hasWord (hasWord_sqr rd ra)
  | shl rd ra imm16 => exact decode_encode_of_hasWord (hasWord_shl rd ra imm16)
  | shr rd ra imm16 => exact decode_encode_of_hasWord (hasWord_shr rd ra imm16)
  | modmul rd ra rb rm => exact decode_encode_of_hasWord (hasWord_modmul rd ra rb rm)
  | egcd rg rp rq rx ry => exact decode_encode_of_hasWord (hasWord_egcd rx ry hwf)
  | ctxsetup cd rn => exact decode_encode_of_hasWord (hasWord_ctxsetup cd rn)
  | ctxgetN rd cs | ctxgetNwords rd cs | ctxgetR rd cs | ctxgetRmodn rd cs | ctxgetR2modn rd cs | ctxgetNinv rd cs =>
    exact decode_encode_of_hasWord
      (hasWord_ctxget (by decide) (fun _ _ => rfl) (fun _ hsel => by simp only [decodeCtxget, hsel]) rd cs)
  | ctxclr cd => exact decode_encode_of_hasWord (hasWord_ctxclr cd)
  | montmul rd rx ry cs => exact decode_encode_of_hasWord (hasWord_montmul rd rx ry cs)
  | tomont rd ra cs | frommont rd ra cs =>
    exact decode_encode_of_hasWord
      (hasWord_conversion (by decide) (fun _ _ _ => rfl) (fun _ hop => by simp only [decode, hop]) rd ra cs)
  | modexp rd rm re rn => exact decode_encode_of_hasWord (hasWord_modexp rd rm re rn)

/-! ### The word of a decoded command (30_encoding.md R82 to R84) -/

section

variable {cw : Word32}

theorem val_regField (lo : Nat) : (regField cw lo).val = bits cw (lo + 3) lo := by
  rw [regField, Fin.val_ofNat, bits, Nat.add_sub_cancel_left]
  omega

theorem val_ctxField (lo : Nat) : (ctxField cw lo).val = bits cw (lo + 1) lo := by
  rw [ctxField, Fin.val_ofNat, bits, Nat.add_sub_cancel_left]
  omega

theorem formatR_eq_of_toNat {opcode f0 f1 f2 f3 f4 : Nat}
    (h : opcode * 2 ^ 24 + f0 * 2 ^ 20 + f1 * 2 ^ 16 + f2 * 2 ^ 12 + f3 * 2 ^ 8 + f4 * 2 ^ 4 = cw.toNat) :
    formatR opcode f0 f1 f2 f3 f4 = cw := by
  rw [formatR, h, BitVec.ofNat_toNat, BitVec.setWidth_eq]

/-- A word is the format I word of its own fields. -/
theorem formatI_fields {opcode : Nat} (hop : bits cw 31 24 = opcode) :
    formatI opcode (regField cw 20) (imm20Field cw) = cw := by
  apply BitVec.eq_of_toNat_eq
  rw [formatI, val_regField, imm20Field]
  simp only [BitVec.toNat_ofNat, bits] at hop ⊢
  omega

/-- A word is the format S word of its own fields. -/
theorem formatS_fields {opcode : Nat} (hop : bits cw 31 24 = opcode) :
    formatS opcode (regField cw 20) (regField cw 16) (imm16Field cw) = cw := by
  apply BitVec.eq_of_toNat_eq
  rw [formatS, val_regField, val_regField, imm16Field]
  simp only [BitVec.toNat_ofNat, bits] at hop ⊢
  omega

theorem encode_of_decodeCtxget {i : Instr} (hop : bits cw 31 24 = 0x22) (h : decodeCtxget cw = .ok i) :
    encode i = cw ∧ i.wellFormed = true := by
  unfold decodeCtxget at h
  split at h
  case h_7 => exact absurd h nofun
  all_goals
    rename_i hsel
    obtain ⟨hzero, rfl⟩ := requireZero_ok_iff.1 h
    refine ⟨formatR_eq_of_toNat ?_, rfl⟩
    simp only [val_regField, val_ctxField, bits] at hop hsel hzero ⊢
    omega

theorem encode_of_decodeEgcd {i : Instr} (hop : bits cw 31 24 = 0x20) (h : decodeEgcd cw = .ok i) :
    encode i = cw ∧ i.wellFormed = true := by
  unfold decodeEgcd at h
  split_ifs at h with hdistinct
  obtain ⟨hzero, rfl⟩ := requireZero_ok_iff.1 h
  refine ⟨formatR_eq_of_toNat ?_, hdistinct⟩
  simp only [val_regField, bits] at hop hzero ⊢
  omega

end

/-- Settles O2, row by row: the fields a row reads and the bits it checks for 0 make up the word. -/
theorem decodedWordIsItsEncoding : Obligations.DecodedWordIsItsEncoding := by
  intro cw i h
  unfold decode at h
  split at h
  all_goals rename_i hop
  case h_22 => exact absurd h nofun
  case h_2 | h_3 | h_4 =>
    obtain rfl := Except.ok.inj h
    exact ⟨formatI_fields hop, rfl⟩
  case h_11 | h_12 =>
    obtain rfl := Except.ok.inj h
    exact ⟨formatS_fields hop, rfl⟩
  case h_16 => exact encode_of_decodeCtxget hop h
  case h_14 => exact encode_of_decodeEgcd hop h
  case h_1 =>
    obtain ⟨hzero, rfl⟩ := requireZero_ok_iff.1 h
    refine ⟨BitVec.eq_of_toNat_eq ?_, rfl⟩
    simp only [encode, bits, BitVec.reduceToNat] at hop hzero ⊢
    omega
  all_goals
    obtain ⟨hzero, rfl⟩ := requireZero_ok_iff.1 h
    refine ⟨formatR_eq_of_toNat ?_, rfl⟩
    simp only [val_regField, val_ctxField, bits] at hop hzero ⊢
    omega

/-! ### The opcode map (30_encoding.md R89) -/

/-- One command of each row of the opcode map, in its order. -/
def tableCommands : List Instr :=
  [.nop, .li 0 0, .ld 0 0, .st 0 0, .add 0 0 0, .sub 0 0 0, .mul 0 0 0, .sqr 0 0, .div 0 0 0, .mod 0 0 0, .shl 0 0 0,
   .shr 0 0 0, .modmul 0 0 0 0, .egcd 0 0 0 0 0, .ctxsetup 0 0, .ctxgetN 0 0, .ctxgetNwords 0 0, .ctxgetR 0 0,
   .ctxgetRmodn 0 0, .ctxgetR2modn 0 0, .ctxgetNinv 0 0, .ctxclr 0, .montmul 0 0 0 0, .tomont 0 0 0, .frommont 0 0 0,
   .modexp 0 0 0 0]

theorem map_row_tableCommands : tableCommands.map Instr.row = opcodeTable := rfl

theorem mem_opcodeTable_iff (r : TableRow) : r ∈ opcodeTable ↔ ∃ i : Instr, i.row = r := by
  constructor
  · intro h
    rw [← map_row_tableCommands] at h
    obtain ⟨i, -, hi⟩ := List.mem_map.1 h
    exact ⟨i, hi⟩
  · rintro ⟨i, rfl⟩
    exact row_mem_opcodeTable i

/-- Every mask covers the opcode. -/
theorem AgreesWithPattern.opcode {i : Instr} {cw : Word32} (h : AgreesWithPattern i cw) :
    bits cw 31 24 = bits i.row.pattern 31 24 := by
  refine h (31, 24) ?_
  cases i <;> exact List.mem_cons_self

/-- The destination fields of the word are pairwise different (30_encoding.md R90). -/
def DistinctDestinationFields (cw : Word32) : Prop :=
  bits cw 23 20 ≠ bits cw 19 16 ∧ bits cw 23 20 ≠ bits cw 15 12 ∧ bits cw 19 16 ≠ bits cw 15 12

theorem distinctDestinations_regFields {cw : Word32} (h : DistinctDestinationFields cw) :
    distinctDestinations (regField cw 20) (regField cw 16) (regField cw 12) = true := by
  simp only [distinctDestinations_iff, ne_eq, Fin.ext_iff, val_regField]
  exact h

/-- An EGCD word that decodes has pairwise different destination fields. -/
theorem distinctDestinationFields_of_decode {cw : Word32} {i : Instr} (hop : bits cw 31 24 = 0x20)
    (h : decode cw = .ok i) : DistinctDestinationFields cw := by
  by_contra hrepeated
  rw [DistinctDestinationFields, not_and_or, not_and_or, not_ne_iff, not_ne_iff, not_ne_iff] at hrepeated
  simp [decode_repeatedDestination hop hrepeated] at h

/-- A word with the fixed fields of a row decodes to a command of that row, EGCD words with repeated destinations
excepted: what the decoder branches on and what it checks for 0 are fixed fields. -/
theorem decode_of_agreesWithPattern {i : Instr} {cw : Word32} (h : AgreesWithPattern i cw)
    (hdistinct : i.row.pattern = 0x20000000 → DistinctDestinationFields cw) :
    ∃ j, decode cw = .ok j ∧ j.row = i.row := by
  cases i
  all_goals simp only [AgreesWithPattern, fixedFields, Instr.row, List.forall_mem_cons, List.not_mem_nil, false_implies,
      implies_true, and_true] at h
  case egcd =>
    simp only [decode, decodeEgcd, h, distinctDestinations_regFields (hdistinct rfl)]
    exact ⟨_, rfl, rfl⟩
  all_goals
    simp only [decode, decodeCtxget, h]
    exact ⟨_, rfl, rfl⟩

/-- Settles O3: the fixed fields of a row decide whether it matches, and the decoder reads the same fields. -/
theorem decodeIsMatchAndMask : Obligations.DecodeIsMatchAndMask := by
  refine ⟨fun cw i h => ?_, fun cw r hr hmatch hdistinct => ?_⟩
  · have hagrees := agreesWithPattern_of_decode h
    refine ⟨row_mem_opcodeTable i, (matches_row_iff i cw).2 hagrees, fun hegcd => ?_⟩
    exact distinctDestinationFields_of_decode (by rw [hagrees.opcode, hegcd]; rfl) h
  · obtain ⟨i, rfl⟩ := (mem_opcodeTable_iff r).1 hr
    exact decode_of_agreesWithPattern ((matches_row_iff i cw).1 hmatch) hdistinct

/-- Rows that match a common word agree on the bits both fix. -/
theorem pattern_and_mask_comm {r r' : TableRow} {cw : Word32} (h : cw &&& r.mask = r.pattern)
    (h' : cw &&& r'.mask = r'.pattern) : r.pattern &&& r'.mask = r'.pattern &&& r.mask := by
  rw [← h, ← h', BitVec.and_assoc, BitVec.and_assoc, BitVec.and_comm r.mask]

/-- Settles O4: any two rows of the table differ in a bit that both fix. -/
theorem opcodeRowsMatchDisjointWords : Obligations.OpcodeRowsMatchDisjointWords := by
  intro r r' cw hr hr' h h'
  have htable : ∀ r ∈ opcodeTable, ∀ r' ∈ opcodeTable, r.pattern &&& r'.mask = r'.pattern &&& r.mask → r = r' := by
    decide
  exact htable r hr r' hr' (pattern_and_mask_comm h h')

end Sys2Proof.Machine

/-! ## Steps: issuing a command, idling, `CTRL`, and the reset state -/

namespace Sys2Proof.Machine

/-! ### Command issue (20_memory.md R60) -/

/-- Settles O7, by the three cases of command issue. -/
theorem stepIssuesTheDecodedCommand : Obligations.StepIssuesTheDecodedCommand := by
  intro s cw rest hpending
  have hissue : step s = issue cw { s with pending := rest } := (step_access hpending).trans (hostAccess_issue cw _)
  rw [hissue]
  exact ⟨fun hhalted => issue_halted cw hhalted, fun hhalted _ hi => issue_decoded hhalted hi,
    fun hhalted _ hd => issue_illegal hhalted hd⟩

theorem decode_of_decodeTableWord {nbits w : Nat} {i : Instr} (h : decodeTableWord nbits w = some i) :
    decode (BitVec.ofNat 32 (w % 2 ^ nbits)) = .ok i := by
  unfold decodeTableWord at h
  split_ifs at h
  split at h
  · rename_i j hj
    rw [hj, Option.some.inj h]
  · exact absurd h nofun

/-- Settles O8: the placed word is the oldest pending access, and it is issued on the state as it was. -/
theorem placedWordRunsNext : Obligations.PlacedWordRunsNext := by
  intro s w i hhalted h
  rw [step_access (State.withFetchWord_pending s 32 w), hostAccess_issue]
  exact issue_decoded hhalted (decode_of_decodeTableWord h)

/-- Settles O9: a step with nothing pending is idle. -/
theorem idleEngineKeepsState : Obligations.IdleEngineKeepsState := fun _ => step_idle

/-! ### Writes of `CTRL`, value by value (10_state.md R36) -/

section

variable (s : State)

theorem writeCtrl_reserved {v : Word32} (h : 4 ≤ v.toNat) : writeCtrl v s = .refused (.ctrlReservedBits v) := by
  refine if_pos ?_
  rw [bits]
  omega

theorem writeCtrl_zero : writeCtrl 0 s = .next s := rfl

theorem writeCtrl_one : writeCtrl 1 s = .next (clearFault s) := rfl

/-- `SRST` prevails over `CLRF`. -/
theorem writeCtrl_two_or_three {v : Word32} (h : v = 2 ∨ v = 3) : writeCtrl v s = .next (softReset s) := by
  rcases h with rfl | rfl <;> rfl

end

/-- Settles O14: each value of the two bits is one branch of the write, and the read is one of the register map. -/
theorem ctrlWriteClearsOrResets : Obligations.CtrlWriteClearsOrResets := by
  intro s v rest
  refine ⟨fun hpending => ?write, fun hpending => ?read⟩
  all_goals rw [step_access hpending]
  case write =>
    refine ⟨writeCtrl_reserved _, ?_, ?_, writeCtrl_two_or_three _⟩
    · rintro rfl
      exact writeCtrl_zero _
    · rintro rfl
      exact writeCtrl_one _
  case read => exact hostRead_register rfl (by decide) (by decide)

/-! ### The reset state (10_state.md R39) -/

theorem State.resetWith_inv {p : Params} {m : Memory} (hp : p.wf = true) (hm : Memory.wf m = true)
    (hwithin : Memory.within p.memBytes m = true) : (State.resetWith p m).Inv := by
  refine ⟨hp, fun i => ?_, fun k => ?_, statusLegal_of_status_zero rfl, hm, hwithin⟩
  · rw [State.resetWith_regs, vector_get_replicate, Option.all_none]
  · rw [State.resetWith_ctxs, vector_get_replicate, Option.all_none]

/-- Settles O19: nothing is written, no status bit is set, and the parameters of `State.reset` are legal ones. -/
theorem resetIsLegal : Obligations.ResetIsLegal :=
  ⟨State.resetWith_inv (by decide) rfl rfl, fun _ _ => State.resetWith_inv⟩

end Sys2Proof.Machine
